-- ==== Sys2Proof/Word.lean ====
section
/-! DEFINITION. The word type of the machine: the byte. Every other quantity is a natural number, a
short bit field or a list of bytes (spec/00_scope.md R6, R7). -/

namespace Sys2Proof

/-- A byte is 8 bits (R7). -/
abbrev Byte := BitVec 8

end Sys2Proof
end

