-- ==== Sys2Proof/Config.lean ====
section
/-! DEFINITION. What one build of the block or one chip fixes (the parameters of spec/00_scope.md R5), and
the free values: constants with no body, of which nothing can be proved. -/

namespace Sys2Proof

/-- The environment's answer to one transport call (R9, R10).
`ok none`: the call succeeds, and if it is `T_RX` the byte is the reference chip's (spec/20_memory.md R75).
`ok (some b)`: the call succeeds, and if it is `T_RX` the byte is `b`, under no law (R10).
`fail arrived`: the call answers `fail`; `arrived` says whether it reached the wire all the same (R10, U3).
`never arrived`: the call is never answered (spec/70_reset_and_hazards.md R251, U19). -/
inductive Answer where
  | ok (byte : Option Byte)
  | fail (arrived : Bool)
  | never (arrived : Bool)
  deriving DecidableEq, Repr, Inhabited

/-- `MEM_SIZE` (R5, R51): the array has addresses 0x0000 to 0x1FFF. -/
abbrev Config.memSize : Nat := 8192

/-- `ID_LEN` (R5): bytes read by RDID. -/
abbrev Config.idLen : Nat := 4

/-- The default of `address_width` (R5, R22, R33). -/
abbrev Config.defaultWidth : Nat := 2

/-- `MFR_IDS` (R5, spec/43_initialization.md R186), a parameter with the source's default. -/
def Config.mfrIds : List Byte := [0x04, 0x07]

/-- `PROD_IDS` (R5, spec/43_initialization.md R186), a parameter with the source's default. -/
def Config.prodIds : List (BitVec 16) := [0x0302, 0x7F7F]

/-- What an array byte that nothing has written reads as. DESIGN CHOICE, unsafe: the spec gives the array
no contents (notes/assumptions/10.md). -/
def Config.blankByte : Byte := 0x00

/-- OPEN parameter `AddrMap` on addresses at or above `MEM_SIZE` (R5, spec/20_memory.md R70): a cell, or no
cell. -/
opaque Config.addrMapBeyond : Nat → Option (Fin Config.memSize)

/-- OPEN parameter `SrView` (R5, spec/20_memory.md R52, R64). -/
opaque Config.srView : Byte → Bool → Byte

/-- OPEN parameter `WEL_RESET` (R5, spec/20_memory.md R73): the latch at power-on of the chip. -/
opaque Config.welReset : Bool

/-- The status register of the chip at the first power-on: unspecified (spec/20_memory.md R73). -/
opaque Config.srPowerOn : Byte

/-- The four identity bytes of the attached chip: a constant the spec gives no value (spec/20_memory.md
R53, R60). -/
opaque Config.chipId : Vector Byte Config.idLen

/-- `CHIP_ADDR_BYTES` (R5, spec/20_memory.md R74): the number of address bytes the attached chip expects. -/
opaque Config.chipAddrBytes : Nat

/-- Free value: the transport's answer where the list of answers is exhausted (R10). -/
opaque Config.freeAnswer : Nat → Answer

/-- Free value: a byte the spec calls a draw. -/
opaque Config.freeByte : Nat → Byte

/-- Free value: a bit the spec leaves unspecified (the latch after a malformed frame, spec/20_memory.md
R71). -/
opaque Config.freeBit : Nat → Bool

/-- Free value: the array's contents after a malformed frame (spec/20_memory.md R71), as (address, byte)
pairs in any order. -/
opaque Config.freeCells : Nat → List (Nat × Byte)

end Sys2Proof
end

