-- ==== Sys2Proof/Syntax.lean ====
section
/-! DEFINITION. The instructions (one constructor per row of spec/opcode_table.json), the two raw forms in
which a request reaches the block, and the descriptors of spec/30_encoding.md R105. -/

namespace Sys2Proof

/-- The seven wire opcodes (spec/30_encoding.md R92) and the nine host commands (R100). -/
inductive Instr where
  /-- WREN, R140. -/
  | wren
  /-- WRDI, R141. -/
  | wrdi
  /-- RDSR, R142. -/
  | rdsr
  /-- WRSR, R143: the byte to store. -/
  | wrsr (v : Byte)
  /-- READ, R144: start address, number of bytes. -/
  | read (addr n : Nat)
  /-- WRITE, R145: start address, data bytes. -/
  | write (addr : Nat) (data : List Byte)
  /-- RDID, R146. -/
  | rdid
  /-- INIT, R188: requested width, transport handle present, chip-select handle present. -/
  | init (aw : BitVec 3) (tp cp : Bool)
  /-- WRITE_ENABLE, R161. -/
  | writeEnable (enable : Bool)
  /-- WRITE_BYTE, R162. -/
  | writeByte (addr : Nat) (value : Byte)
  /-- WRITE_BYTES, R163. -/
  | writeBytes (addr : Nat) (wbytes : List Byte)
  /-- READ_BYTE, R164. -/
  | readByte (addr : Nat)
  /-- READ_BYTES, R165. -/
  | readBytes (addr count : Nat)
  /-- GET_DEVICE_ID, R166. -/
  | getDeviceId
  /-- GET_STATUS, R167. -/
  | getStatus
  /-- SET_STATUS, R168. -/
  | setStatus (value : Byte)
  deriving DecidableEq, Repr

/-- The host command record (spec/10_state.md R24). `LEN_W` is unbounded, as spec/00_scope.md R5 allows. A host
that gives no width supplies the default 2 (R22, R24). The other defaults stand in fields a command does not
use. -/
structure CommandRecord where
  cmd    : BitVec 4
  enable : Bool := false
  addr   : BitVec 32 := 0
  count  : Nat := 0
  wbytes : List Byte := []
  value  : Byte := 0
  aw     : BitVec 3 := 2
  tp     : Bool := false
  cp     : Bool := false
  deriving DecidableEq, Repr

/-- A request as it reaches the block, before decoding: a frame asked of the Transaction Engine (the bytes
to transmit, first sent first, and how many bytes to receive after them, spec/30_encoding.md R91), or a host
command record (R100). -/
inductive Request where
  | frame (tx : List Byte) (nrx : Nat)
  | command (c : CommandRecord)
  deriving DecidableEq, Repr

/-- A number of data bytes: fixed by the opcode, or taken from the command (R105). -/
inductive DataLength where
  | fixed (n : Nat)
  | fromCommand
  deriving DecidableEq, Repr

/-- The "Command" descriptor of R105. -/
structure Descriptor where
  op        : Byte
  addressed : Bool
  nwrite    : DataLength
  nread     : DataLength
  deriving DecidableEq, Repr

/-- Why a request names no instruction. -/
inductive DecodeError where
  /-- A frame with no byte (spec/20_memory.md R71). -/
  | emptyFrame
  /-- The first byte is none of the seven opcodes (spec/30_encoding.md R98). -/
  | unknownOpcode (op : Byte)
  /-- The bytes after the opcode are not of the opcode's format (R91). -/
  | wrongTransmitLength (op : Byte)
  /-- The number of received bytes is not the format's (R91). -/
  | wrongReceiveLength (op : Byte)
  /-- A host code 0x9 to 0xF (R102). -/
  | reservedCommand (cmd : BitVec 4)
  deriving DecidableEq, Repr

end Sys2Proof
end

