-- ==== Sys2Proof/WellFormed.lean ====
section
/-! DEFINITION. When an instruction has an encoding that keeps all its operands. `w` is the number of
address bytes in an addressed frame (the block's `aw`). -/

namespace Sys2Proof

/-- The address fits the `w` address bytes of a frame (spec/30_encoding.md R94). -/
def fitsWire (w addr : Nat) : Bool := decide (addr < 256 ^ w)

/-- The address fits `ADDR_W` = 32 bits of the host record (spec/10_state.md R24). -/
def fitsHostPort (addr : Nat) : Bool := decide (addr < 2 ^ 32)

/-- Well-formedness. Every other operand is bounded by its type or unbounded in the spec (R5, R24). -/
def Instr.wf (w : Nat) : Instr → Bool
  | .wren => true
  | .wrdi => true
  | .rdsr => true
  | .wrsr _ => true
  | .read addr _ => fitsWire w addr
  | .write addr _ => fitsWire w addr
  | .rdid => true
  | .init _ _ _ => true
  | .writeEnable _ => true
  | .writeByte addr _ => fitsHostPort addr
  | .writeBytes addr _ => fitsHostPort addr
  | .readByte addr => fitsHostPort addr
  | .readBytes addr _ => fitsHostPort addr
  | .getDeviceId => true
  | .getStatus => true
  | .setStatus _ => true

end Sys2Proof
end

