-- ==== Sys2Proof/Decode.lean ====
section
/-! DEFINITION. The Address Encoder (spec/40_address_encoder.md), the descriptors of the seven opcodes
(spec/30_encoding.md R105), the decoder of both raw forms, total and rejecting by name, and the encoder
written from the same tables. The chip reads a frame with the same decoder (spec/20_memory.md R61). -/

namespace Sys2Proof

/-- `EncodeAddr(addr, w)` (R120): `w` bytes, most significant first; element `j` is
`(addr >> (8*(w-1-j))) & 0xFF`. -/
def encodeAddr (addr : Nat) : Nat → List Byte
  | 0 => []
  | w + 1 => BitVec.ofNat 8 (addr >>> (8 * w)) :: encodeAddr addr w

/-- The value of address bytes, most significant first (R121). -/
def addrValue (bytes : List Byte) : Nat :=
  bytes.foldl (fun acc b => acc * 256 + b.toNat) 0

/-- R92, R105: the opcode bytes and shapes of the seven frames. -/
def descWren : Descriptor := ⟨0x06, false, .fixed 0, .fixed 0⟩
def descWrdi : Descriptor := ⟨0x04, false, .fixed 0, .fixed 0⟩
def descRdsr : Descriptor := ⟨0x05, false, .fixed 0, .fixed 1⟩
def descWrsr : Descriptor := ⟨0x01, false, .fixed 1, .fixed 1⟩
def descRead : Descriptor := ⟨0x03, true, .fixed 0, .fromCommand⟩
def descWrite : Descriptor := ⟨0x02, true, .fromCommand, .fixed 0⟩
def descRdid : Descriptor := ⟨0x9F, false, .fixed 0, .fixed 4⟩

/-- The seven descriptors in the order of R92. -/
def descriptors : List Descriptor :=
  [descWren, descWrdi, descRdsr, descWrsr, descRead, descWrite, descRdid]

/-- Does a number of data bytes agree with what the descriptor says of it? -/
def DataLength.admits : DataLength → Nat → Bool
  | .fixed n, k => k == n
  | .fromCommand, _ => true

/-- The instruction of a frame whose opcode has descriptor `d`, given the bytes transmitted after the
opcode (R91, R95): the first `w` of them are the address when the opcode is address-bearing. -/
def instrOfFrame (d : Descriptor) (w : Nat) (rest : List Byte) (nrx : Nat) : Instr :=
  if d = descWren then .wren
  else if d = descWrdi then .wrdi
  else if d = descRdsr then .rdsr
  else if d = descWrsr then .wrsr (rest.headD 0)
  else if d = descRead then .read (addrValue (rest.take w)) nrx
  else if d = descWrite then .write (addrValue (rest.take w)) (rest.drop w)
  else .rdid

/-- Decode a frame: `tx` are the bytes transmitted, `nrx` the number received after them, `w` the number of
address bytes (R91, R92, R96). -/
def decodeFrame (w : Nat) (tx : List Byte) (nrx : Nat) : Except DecodeError Instr :=
  match tx with
  | [] => .error .emptyFrame
  | op :: rest =>
    match descriptors.find? (fun d => d.op == op) with
    | none => .error (.unknownOpcode op)
    | some d =>
      let addrBytes := if d.addressed then w else 0
      if rest.length < addrBytes || !d.nwrite.admits (rest.length - addrBytes) then
        .error (.wrongTransmitLength op)
      else if !d.nread.admits nrx then .error (.wrongReceiveLength op)
      else .ok (instrOfFrame d w rest nrx)

/-- Decode a host command record (R100); codes 0x9 to 0xF are reserved (R102). A field the command does not
use is ignored (spec/10_state.md R24). -/
def decodeCommand (c : CommandRecord) : Except DecodeError Instr :=
  match c.cmd.toNat with
  | 0 => .ok (.init c.aw c.tp c.cp)
  | 1 => .ok (.writeEnable c.enable)
  | 2 => .ok (.writeByte c.addr.toNat c.value)
  | 3 => .ok (.writeBytes c.addr.toNat c.wbytes)
  | 4 => .ok (.readByte c.addr.toNat)
  | 5 => .ok (.readBytes c.addr.toNat c.count)
  | 6 => .ok .getDeviceId
  | 7 => .ok .getStatus
  | 8 => .ok (.setStatus c.value)
  | _ => .error (.reservedCommand c.cmd)

/-- Decode a request; `w` is the block's address width. -/
def decode (w : Nat) : Request → Except DecodeError Instr
  | .frame tx nrx => decodeFrame w tx nrx
  | .command c => decodeCommand c

/-- The encoding of an instruction: a frame for a wire opcode (R91, R94), a record for a host command
(R100). -/
def encode (w : Nat) : Instr → Request
  | .wren => .frame [0x06] 0
  | .wrdi => .frame [0x04] 0
  | .rdsr => .frame [0x05] 1
  | .wrsr v => .frame [0x01, v] 1
  | .read addr n => .frame (0x03 :: encodeAddr addr w) n
  | .write addr data => .frame (0x02 :: (encodeAddr addr w ++ data)) 0
  | .rdid => .frame [0x9F] 4
  | .init aw tp cp => .command { cmd := 0x0, aw := aw, tp := tp, cp := cp }
  | .writeEnable enable => .command { cmd := 0x1, enable := enable }
  | .writeByte addr value => .command { cmd := 0x2, addr := BitVec.ofNat 32 addr, value := value }
  | .writeBytes addr wbytes => .command { cmd := 0x3, addr := BitVec.ofNat 32 addr, wbytes := wbytes }
  | .readByte addr => .command { cmd := 0x4, addr := BitVec.ofNat 32 addr }
  | .readBytes addr count => .command { cmd := 0x5, addr := BitVec.ofNat 32 addr, count := count }
  | .getDeviceId => .command { cmd := 0x6 }
  | .getStatus => .command { cmd := 0x7 }
  | .setStatus value => .command { cmd := 0x8, value := value }

/-- The first `k` bytes of a number, least significant first. -/
def bytesOfNat (x : Nat) : Nat → List Byte
  | 0 => []
  | k + 1 => BitVec.ofNat 8 x :: bytesOfNat (x / 256) k

/-- The request that a word of spec/opcode_table.json stands for. The table has rows of two levels that
share small numbers: 8-bit opcode bytes and 4-bit host codes. A word of fewer than 8 bits is a host code; a
word of 8 bits or more whose first byte is an opcode is a frame, its operand bytes taken from the word's
higher bits and zero above them; any other small number is a host code (notes/assumptions/20.md). -/
def requestOfTableWord (w nbits x : Nat) : Request :=
  let hostCode : Request := .command { cmd := BitVec.ofNat 4 x }
  if nbits < 8 then hostCode
  else
    match descriptors.find? (fun d => d.op == BitVec.ofNat 8 x) with
    | some d =>
      let operandBytes := (if d.addressed then w else 0) + (match d.nwrite with | .fixed n => n | .fromCommand => 0)
      .frame (bytesOfNat x (1 + operandBytes)) (match d.nread with | .fixed n => n | .fromCommand => 0)
    | none => if x < 16 then hostCode else .frame [BitVec.ofNat 8 x] 0

/-- The instruction the decoder reads from a word of the opcode table, at the default width. -/
def decodeTableWord (nbits w : Nat) : Option Instr :=
  (decode Config.defaultWidth (requestOfTableWord Config.defaultWidth nbits w)).toOption

end Sys2Proof
end

