-- ==== Sys2Proof/Machine/State.lean ====
section
/-! DEFINITION. The state of the machine as plain data: the block (spec/10_state.md), its transient state
(R29), the trace (spec/00_scope.md R10), the reference chip (spec/20_memory.md R60), and the inputs the host
and the transport supply. -/

namespace Sys2Proof.Machine

/-- The lifecycle states (R21). -/
inductive Lifecycle where
  | uninitialized
  | identityChecked
  | ready
  | failed
  deriving DecidableEq, Repr

/-- The status of a response (spec/30_encoding.md R103). -/
inductive Status where
  | ok
  | configurationError
  | identityMismatchError
  | transportError
  | stateError
  | illegalCommand
  deriving DecidableEq, Repr

/-- The host response (R25). A field that is not valid is `none`. -/
structure Response where
  status : Status
  rbytes : Option (List Byte) := none
  mfr    : Option Byte := none
  prod   : Option (BitVec 16) := none
  deriving DecidableEq, Repr

/-- What Transact returns to its caller (spec/41_transaction_engine.md R131). -/
structure EngineResult where
  status : Status
  rbytes : List Byte
  deriving DecidableEq, Repr

/-- The three transport calls (spec/00_scope.md R9). -/
inductive Call where
  | cs (active : Bool)
  | tx (b : Byte)
  | rx
  deriving DecidableEq, Repr

/-- Transport events (R10). -/
inductive Ev where
  | cs (active : Bool)
  | tx (b : Byte)
  | rx (b : Byte)
  | fail (c : Call)
  deriving DecidableEq, Repr

/-- Where a command under way stands (spec/41_transaction_engine.md R136): the call that is made next, or,
when it is waiting, the call that was made and is not answered. `idleLevel` is step 3 of INIT
(spec/43_initialization.md R184). The phase IDLE is `State.progress = none`. -/
inductive Phase where
  | idleLevel
  | sel
  | opc
  | adr (j : Nat)
  | wr (k : Nat)
  | rd (k : Nat)
  | desel
  deriving DecidableEq, Repr

/-- The transient state of a command under way (R29). -/
structure Progress where
  /-- The latched command. -/
  instr   : Instr
  phase   : Phase
  /-- The bytes received so far. -/
  rbytes  : List Byte
  /-- Whether a transport call has failed. -/
  failed  : Bool
  /-- Whether the phase's call has been made and is still unanswered (spec/70_reset_and_hazards.md R251). -/
  waiting : Bool
  deriving DecidableEq, Repr

/-- Memory: (address, byte) pairs, addresses rising, no entry equal to the blank byte
(notes/assumptions/10.md). -/
abbrev Memory := List Host.Cell

/-- The frame open at the chip (spec/20_memory.md R61). -/
structure ChipFrame where
  /-- Bytes transmitted to the chip since the frame began. -/
  tx  : List Byte := []
  /-- Bytes received from the chip since the frame began. -/
  nrx : Nat := 0
  /-- The frame can no longer be well formed (R71). -/
  bad : Bool := false
  deriving DecidableEq, Repr

/-- The reference chip (R60). `addrBytes` is `CHIP_ADDR_BYTES` (R74); it and `id` are constants. -/
structure Chip where
  mem       : Memory
  wel       : Bool
  sr        : Byte
  id        : Vector Byte Config.idLen
  addrBytes : Nat
  frame     : Option ChipFrame
  deriving DecidableEq, Repr

/-- What the host (or the platform) does at one step: present a request and let it run to its response,
begin a request and let it run one transport call per step (R136), nothing, assert the block's reset
(spec/70_reset_and_hazards.md R230), or power the chip on again (spec/20_memory.md R73). -/
inductive HostEvent where
  | present (r : Request)
  | begin (r : Request)
  | wait
  | reset
  | chipPowerOn
  deriving DecidableEq, Repr

/-- The state of the machine. -/
structure State where
  /-- `S.lifecycle` (R20, R21). -/
  lifecycle    : Lifecycle
  /-- `S.aw` (R20, R22). -/
  aw           : Nat
  /-- `S.cs` (R20, R23); `true` is active. -/
  cs           : Bool
  /-- The transient state (R29); `none` between commands. -/
  progress     : Option Progress
  /-- The result Transact returned to the engine's port, when the engine was run on its own. -/
  engineResult : Option EngineResult
  /-- The pending response (R25). -/
  response     : Option Response
  /-- The trace (spec/00_scope.md R10), oldest event first. -/
  trace        : List Ev
  /-- The reference chip (spec/20_memory.md R60). -/
  chip         : Chip
  /-- What the host does at the coming steps. -/
  inputs       : List HostEvent
  /-- What the transport answers to the coming calls (R10). -/
  answers      : List Answer
  /-- The model's own counter of free values drawn. -/
  draws        : Nat
  deriving DecidableEq, Repr

/-- Why the machine stops. -/
inductive Fault where
  /-- Raised by `step` alone: a transport call is unanswered and the host does nothing, so no step exists
  (U19 "stuck", spec/70_reset_and_hazards.md R251). Safe: the spec's block waits for ever. -/
  | transportNeverAnswers
  deriving DecidableEq, Repr

/-- Why an input has no meaning. -/
inductive Refusal where
  /-- Raised by `exec` for an instruction the model has not reached; raised by none. -/
  | notModelled (mnemonic : String)
  /-- Raised by `step`: a request is presented while a command is in progress (R242, D23, U18). Safe. -/
  | busy
  /-- Raised by `step`: a request at the engine's own port is none of the seven frames (R98, U11). No host
  command makes one. Safe. -/
  | notAFrame (why : DecodeError)
  deriving DecidableEq, Repr

/-- The chip at its first power-on: `WEL_RESET`, an unspecified status register (R73), the OPEN identity and
address length, nothing written. -/
def Chip.reset : Chip :=
  { mem := [], wel := Config.welReset, sr := Config.srPowerOn, id := Config.chipId,
    addrBytes := Config.chipAddrBytes, frame := none }

/-- The machine right after reset (R33), with the chip powered on and nothing yet observed or supplied. -/
def State.reset : State :=
  { lifecycle := .uninitialized, aw := Config.defaultWidth, cs := false, progress := none,
    engineResult := none, response := none, trace := [], chip := Chip.reset, inputs := [], answers := [],
    draws := 0 }

end Sys2Proof.Machine
end

