-- ==== Sys2Proof/Machine/Ops.lean ====
section
/-! DEFINITION. The named operations: the array's bytes (spec/20_memory.md R66, R67, R70), the state's
updates, and ending a command in error (spec/60_exceptions.md R200), which is all this block has in place of
taking an exception (R209, R211). -/

namespace Sys2Proof.Machine

/-- One byte of the array; an unlisted byte is blank. -/
def Memory.read : Memory → Nat → Byte
  | [], _ => Config.blankByte
  | (a, b) :: m, x => if a = x then b else Memory.read m x

/-- Store one byte, keeping the canonical form. -/
def Memory.write : Memory → Nat → Byte → Memory
  | [], x, v => if v = Config.blankByte then [] else [(x, v)]
  | (a, b) :: m, x, v =>
    if x < a then
      if v = Config.blankByte then (a, b) :: m else (x, v) :: (a, b) :: m
    else if x = a then
      if v = Config.blankByte then m else (x, v) :: m
    else (a, b) :: Memory.write m x v

/-- The canonical form from address `lo` upward. -/
def Memory.wfFrom (lo : Nat) : Memory → Bool
  | [] => true
  | (a, b) :: m =>
    decide (lo ≤ a) && decide (a < Config.memSize) && decide (b ≠ Config.blankByte) && Memory.wfFrom (a + 1) m

/-- The canonical form: addresses strictly rising and inside the array, no blank entry. -/
def Memory.wf (m : Memory) : Bool := Memory.wfFrom 0 m

/-- The memory that holds the given bytes, blank elsewhere; pairs outside the array are dropped. -/
def Memory.ofCells (cells : List (Nat × Byte)) : Memory :=
  cells.foldl (fun m c => if c.1 < Config.memSize then Memory.write m c.1 c.2 else m) []

/-- `AddrMap` (R70): the cell of an address, or no cell. -/
def addrMap (x : Nat) : Option Nat :=
  if x < Config.memSize then some x else (Config.addrMapBeyond x).map Fin.val

/-- `MemWrite(x, n, v)` of R67: the bytes go to `x`, `x + 1`, and so on, in that order; a byte for no cell is
dropped (R70). -/
def Memory.writeBurst : Memory → Nat → List Byte → Memory
  | m, _, [] => m
  | m, x, b :: bs =>
    Memory.writeBurst (match addrMap x with | some cell => Memory.write m cell b | none => m) (x + 1) bs

/-- Append an event to the trace (spec/00_scope.md R10). -/
def State.log (s : State) (e : Ev) : State := { s with trace := s.trace ++ [e] }

def State.setLifecycle (s : State) (l : Lifecycle) : State := { s with lifecycle := l }
def State.setWidth (s : State) (w : Nat) : State := { s with aw := w }
def State.setCs (s : State) (active : Bool) : State := { s with cs := active }
def State.setProgress (s : State) (p : Option Progress) : State := { s with progress := p }
def State.setEngineResult (s : State) (r : Option EngineResult) : State := { s with engineResult := r }
def State.setResponse (s : State) (r : Option Response) : State := { s with response := r }
def State.setChip (s : State) (c : Chip) : State := { s with chip := c }
def State.setInputs (s : State) (es : List HostEvent) : State := { s with inputs := es }
def State.setAnswers (s : State) (as : List Answer) : State := { s with answers := as }

/-- One free value has been drawn. -/
def State.drew (s : State) : State := { s with draws := s.draws + 1 }

/-- Acceptance of a request: the results of the one before are no longer pending (spec/10_state.md R25,
notes/assumptions/14.md). -/
def State.accept (s : State) : State := (s.setResponse none).setEngineResult none

/-- A command ends with a response (R25). -/
def respond (r : Response) (s : State) : State := s.setResponse (some r)

/-- `raise E` (spec/60_exceptions.md R200): a response with the code and no result fields (R25, R206). -/
def respondError (e : Status) (s : State) : State := respond { status := e } s

/-- A request waits for a call the transport never answers (spec/70_reset_and_hazards.md R251). -/
def hang (p : Progress) (s : State) : State := s.setProgress (some { p with waiting := true })

end Sys2Proof.Machine
end

