-- ==== Sys2Proof/Machine/Operands.lean ====
section
/-! DEFINITION. Operand forms: the legal widths (spec/43_initialization.md R183), the decoding and the test
of an identity (R185, R186, spec/30_encoding.md R95), the engine's operands (spec/41_transaction_engine.md
R131) and the result fields of a response (spec/10_state.md R25). -/

namespace Sys2Proof.Machine

/-- `aw in {1, 2, 3, 4}` (R183). -/
def legalWidth (aw : BitVec 3) : Bool := [1, 2, 3, 4].contains aw.toNat

/-- `prod = (q2 << 8) | q3` (spec/30_encoding.md R95). -/
def joinProduct (q2 q3 : Byte) : BitVec 16 := (q2.setWidth 16 <<< 8) ||| q3.setWidth 16

/-- `mfr = Q[0]` (R95). -/
def identityMfr (rb : List Byte) : Byte := rb.getD 0 0

/-- `prod` of the four identity bytes; `Q[1]` is discarded (R95). -/
def identityProd (rb : List Byte) : BitVec 16 := joinProduct (rb.getD 2 0) (rb.getD 3 0)

/-- The identity test: two independent memberships (R186). -/
def identityAccepted (rb : List Byte) : Bool :=
  Config.mfrIds.contains (identityMfr rb) && Config.prodIds.contains (identityProd rb)

/-- The operands of Transact (spec/41_transaction_engine.md R131). -/
structure Invocation where
  d      : Descriptor
  addr   : Nat
  wbytes : List Byte
  nread  : Nat
  deriving DecidableEq, Repr

/-- The one engine invocation of each instruction (spec/30_encoding.md R101; R140 to R146, R161 to R168, and
R185 for INIT). -/
def invocation : Instr → Invocation
  | .wren => ⟨descWren, 0, [], 0⟩
  | .wrdi => ⟨descWrdi, 0, [], 0⟩
  | .rdsr => ⟨descRdsr, 0, [], 1⟩
  | .wrsr v => ⟨descWrsr, 0, [v], 1⟩
  | .read addr n => ⟨descRead, addr, [], n⟩
  | .write addr data => ⟨descWrite, addr, data, 0⟩
  | .rdid => ⟨descRdid, 0, [], Config.idLen⟩
  | .init _ _ _ => ⟨descRdid, 0, [], Config.idLen⟩
  | .writeEnable enable => if enable then ⟨descWren, 0, [], 0⟩ else ⟨descWrdi, 0, [], 0⟩
  | .writeByte addr value => ⟨descWrite, addr, [value], 0⟩
  | .writeBytes addr wbytes => ⟨descWrite, addr, wbytes, 0⟩
  | .readByte addr => ⟨descRead, addr, [], 1⟩
  | .readBytes addr count => ⟨descRead, addr, [], count⟩
  | .getDeviceId => ⟨descRdid, 0, [], Config.idLen⟩
  | .getStatus => ⟨descRdsr, 0, [], 1⟩
  | .setStatus value => ⟨descWrsr, 0, [value], 1⟩

/-- A successful response with no result fields (R161, R162, R163, R168: an echo is dropped). -/
def plainResult (_ : List Byte) : Response := { status := .ok }

/-- A successful response with the bytes read (R164, R165, R167). -/
def bytesResult (rb : List Byte) : Response := { status := .ok, rbytes := some rb }

/-- A successful response with the identity (R166). -/
def identityResult (rb : List Byte) : Response :=
  { status := .ok, mfr := some (identityMfr rb), prod := some (identityProd rb) }

end Sys2Proof.Machine
end

