-- ==== Sys2Proof/Machine/Chip.lean ====
section
/-! DEFINITION. The reference chip (spec/20_memory.md section 3): how it sees frames, what it answers, what
a frame does at its closing edge. -/

namespace Sys2Proof.Machine

/-- Whether an instruction's frame has an address phase (spec/30_encoding.md R92). -/
def addressBearing : Instr → Bool
  | .read _ _ => true
  | .write _ _ => true
  | .wren => false
  | .wrdi => false
  | .rdsr => false
  | .wrsr _ => false
  | .rdid => false
  | .init _ _ _ => false
  | .writeEnable _ => false
  | .writeByte _ _ => false
  | .writeBytes _ _ => false
  | .readByte _ => false
  | .readBytes _ _ => false
  | .getDeviceId => false
  | .getStatus => false
  | .setStatus _ => false

/-- The frame the chip has seen, if it is well formed (R61); an addressed frame is well formed only when
`CHIP_ADDR_BYTES = S.aw` (R74). -/
def frameMeaning (s : State) (f : ChipFrame) : Option Instr :=
  if f.bad then none
  else
    match decodeFrame s.chip.addrBytes f.tx f.nrx with
    | .ok i => if addressBearing i && s.chip.addrBytes != s.aw then none else some i
    | .error _ => none

/-- What a well-formed frame does to the chip at its closing edge (R62 to R69). A host command is no frame. -/
def chipEffect (c : Chip) : Instr → Chip
  | .wren => { c with wel := true }
  | .wrdi => { c with wel := false }
  | .rdsr => c
  | .wrsr v => { c with sr := if c.wel then v else c.sr, wel := false }
  | .read _ _ => c
  | .write a data => { c with mem := if c.wel then Memory.writeBurst c.mem a data else c.mem, wel := false }
  | .rdid => c
  | .init _ _ _ => c
  | .writeEnable _ => c
  | .writeByte _ _ => c
  | .writeBytes _ _ => c
  | .readByte _ => c
  | .readBytes _ _ => c
  | .getDeviceId => c
  | .getStatus => c
  | .setStatus _ => c

/-- A frame that is not well formed has ended: array, latch and status register are unspecified, the
identity is unchanged (R71). -/
def chipUnspecified (s : State) : State :=
  (s.setChip { s.chip with mem := Memory.ofCells (Config.freeCells s.draws), wel := Config.freeBit s.draws,
                           sr := Config.freeByte s.draws, frame := none }).drew

/-- The open frame, if any, can no longer be well formed (R61, R71). -/
def spoilFrame (s : State) : State :=
  s.setChip { s.chip with frame := s.chip.frame.map (fun f => { f with bad := true }) }

/-- Chip-select becomes active at the chip: a frame begins (R61); inside an open frame it is one more event
that no well-formed frame has (R71). -/
def chipSelected (s : State) : State :=
  match s.chip.frame with
  | none => s.setChip { s.chip with frame := some {} }
  | some _ => spoilFrame s

/-- Chip-select becomes inactive at the chip: the open frame ends (R61 to R71); with no open frame nothing
changes (R72). -/
def chipDeselected (s : State) : State :=
  match s.chip.frame with
  | none => s
  | some f =>
    match frameMeaning s f with
    | some i => s.setChip (chipEffect { s.chip with frame := none } i)
    | none => chipUnspecified s

/-- A chip-select edge reaches the chip. -/
def chipEdge (active : Bool) (s : State) : State := if active then chipSelected s else chipDeselected s

/-- A byte reaches the chip. Within a frame all transmitted bytes come before all received ones
(spec/30_encoding.md R90). -/
def chipGets (b : Byte) (s : State) : State :=
  s.setChip { s.chip with
    frame := s.chip.frame.map (fun f => { f with tx := f.tx ++ [b], bad := f.bad || f.nrx != 0 }) }

/-- The byte the chip gives to the next `T_RX`, or `none` where it is a draw (R64, R65, R66, R68, R70, R71). -/
def chipDrives (s : State) : Option Byte :=
  match s.chip.frame with
  | none => none
  | some f =>
    if f.bad then none
    else if f.tx = [descRdsr.op] && f.nrx == 0 then some (Config.srView s.chip.sr s.chip.wel)
    else if f.tx = [descRdid.op] then s.chip.id.toList[f.nrx]?
    else if f.tx.head? = some descRead.op && f.tx.length == 1 + s.chip.addrBytes
        && s.chip.addrBytes == s.aw then
      (addrMap (addrValue f.tx.tail + f.nrx)).map s.chip.mem.read
    else none

/-- The chip has been read once in the open frame. -/
def countReceived (s : State) : State :=
  s.setChip { s.chip with frame := s.chip.frame.map (fun f => { f with nrx := f.nrx + 1 }) }

/-- A successful `T_RX`: the byte received and the state after. With no byte of the environment's own it is
the chip's, or a free value where the chip's is a draw (R75). A byte of the environment's own that equals the
chip's meets R75 as well. One that differs takes the frame outside the chip's law, so the frame is treated as
not well formed (R71, DEDUCED, notes/assumptions/7.md). -/
def chipSends (own : Option Byte) (s : State) : Byte × State :=
  match own, chipDrives s with
  | none, some b => (b, countReceived s)
  | none, none => (Config.freeByte s.draws, (countReceived s).drew)
  | some b, none => (b, countReceived s)
  | some b, some c => (b, if b = c then countReceived s else spoilFrame (countReceived s))

/-- Power-on of the chip: the array keeps its contents, the latch is `WEL_RESET`, the status register is
unspecified (R73). An open frame is cut (notes/assumptions/19.md). -/
def chipPoweredOn (s : State) : State :=
  spoilFrame ((s.setChip { s.chip with wel := Config.welReset, sr := Config.freeByte s.draws }).drew)

end Sys2Proof.Machine
end

