-- ==== Sys2Proof/Machine/Transport.lean ====
section
/-! DEFINITION. The three transport calls (spec/00_scope.md R9, R10): the answer is the environment's, the
call appends its event to the trace, and what reached the wire reaches the chip. -/

namespace Sys2Proof.Machine

/-- The answer as the block sees it; `ok` carries the byte received, if the call is `T_RX`. -/
inductive Reply where
  | ok (received : List Byte)
  | fail
  | never
  deriving DecidableEq, Repr

/-- The next answer of the transport; past the end of the list it is a free value (R10). -/
def takeAnswer (s : State) : Answer × State :=
  match s.answers with
  | a :: rest => (a, s.setAnswers rest)
  | [] => (Config.freeAnswer s.draws, s.drew)

/-- What a call that was not answered `ok` did to the chip: an edge arrived or not (R10, U3), and the open
frame, if any, now contains a failure (R61). -/
def chipAfterFailure (c : Call) (arrived : Bool) (s : State) : State :=
  match c with
  | .cs true => spoilFrame (if arrived then chipSelected s else s)
  | .cs false => if arrived then chipDeselected (spoilFrame s) else spoilFrame s
  | .tx _ => spoilFrame s
  | .rx => spoilFrame s

/-- `S.cs` records the level requested, whatever the answer (spec/10_state.md R23). -/
def requestLevel (c : Call) (s : State) : State :=
  match c with
  | .cs active => s.setCs active
  | .tx _ => s
  | .rx => s

/-- A call answered `ok`. -/
def callOk (c : Call) (own : Option Byte) (s : State) : Reply × State :=
  match c with
  | .cs active => (.ok [], (chipEdge active s).log (.cs active))
  | .tx b => (.ok [], (chipGets b s).log (.tx b))
  | .rx => let r := chipSends own s; (.ok [r.1], r.2.log (.rx r.1))

/-- One transport call. A call that is never answered leaves no event. -/
def doCall (c : Call) (s : State) : Reply × State :=
  let (a, s) := takeAnswer (requestLevel c s)
  match a with
  | .ok own => callOk c own s
  | .fail arrived => (.fail, (chipAfterFailure c arrived s).log (.fail c))
  | .never arrived => (.never, chipAfterFailure c arrived s)

end Sys2Proof.Machine
end

