-- ==== Sys2Proof/Machine/Engine.lean ====
section
/-! DEFINITION. The Transaction Engine (spec/41_transaction_engine.md R130 to R137): Transact as R131 writes
it, and the run of a command around it. -/

namespace Sys2Proof.Machine

/-- The locals of Transact: `failed`, `rbytes`, and the phase whose call is unanswered, if any. -/
structure EngineRun where
  st     : State
  failed : Bool := false
  rbytes : List Byte := []
  stuck  : Option Phase := none
  deriving DecidableEq, Repr

/-- Make a call and note its answer. -/
def attempt (p : Phase) (c : Call) (a : EngineRun) : EngineRun :=
  match doCall c a.st with
  | (.ok qs, s) => { a with st := s, rbytes := a.rbytes ++ qs }
  | (.fail, s) => { a with st := s, failed := true }
  | (.never, s) => { a with st := s, stuck := some p }

/-- `if not failed then …` (R131, R133 (a)); nor is a call made while one is unanswered (spec/00_scope.md
R9). -/
def guarded (p : Phase) (c : Call) (a : EngineRun) : EngineRun :=
  if a.failed || a.stuck.isSome then a else attempt p c a

/-- `for b in bytes, in order: if not failed then T_TX(b)`, counting from `k`. -/
def sendBytes (phase : Nat → Phase) : Nat → List Byte → EngineRun → EngineRun
  | _, [], a => a
  | k, b :: bs, a => sendBytes phase (k + 1) bs (guarded (phase k) (.tx b) a)

/-- `repeat n times: if not failed then T_RX()`, counting from `k`. -/
def receiveBytes : Nat → Nat → EngineRun → EngineRun
  | _, 0, a => a
  | k, n + 1, a => receiveBytes (k + 1) n (guarded (.rd k) .rx a)

/-- Step 5, on every exit path (R131, R133 (b)): one `T_CS(false)`. -/
def release (a : EngineRun) : EngineRun :=
  if a.stuck.isSome then a else attempt .desel (.cs false) a

/-- `Transact(d, addr, wbytes, nread)` (R131): select, opcode, address, bytes out, bytes in, release. -/
def transact (v : Invocation) (s : State) : EngineRun :=
  let a := guarded .sel (.cs true) { st := s }
  let a := guarded .opc (.tx v.d.op) a
  let a := if v.d.addressed then sendBytes .adr 0 (encodeAddr v.addr s.aw) a else a
  let a := sendBytes .wr 0 v.wbytes a
  let a := receiveBytes 0 v.nread a
  release a

/-- What Transact returns: `(TransportError, [])` or `(OK, rbytes)` (R131). -/
def engineReturn (failed : Bool) (rbytes : List Byte) : EngineResult :=
  if failed then ⟨.transportError, []⟩ else ⟨.ok, rbytes⟩

/-- Run the engine for an instruction and hand its result to `ending`; if a call is never answered the
instruction stays in progress (spec/70_reset_and_hazards.md R251). -/
def runEngine (i : Instr) (v : Invocation) (ending : EngineResult → State → State) (s : State) : State :=
  let a := transact v s
  match a.stuck with
  | some p => hang { instr := i, phase := p, rbytes := a.rbytes, failed := a.failed, waiting := true } a.st
  | none => ending (engineReturn a.failed a.rbytes) a.st

/-- The end of an engine run asked for at the engine's own port: its result stands there. -/
def endEngine (r : EngineResult) (s : State) : State := s.setEngineResult (some r)

/-- The end of an operation (spec/42_driver_operations.md R160): the result fields on OK, otherwise
`TransportError` alone. -/
def endOperation (fields : List Byte → Response) (r : EngineResult) (s : State) : State :=
  if r.status = .ok then respond (fields r.rbytes) s else respondError .transportError s

/-- The common template of the eight operations (R160): the lifecycle test, then the body. -/
def operation (i : Instr) (v : Invocation) (fields : List Byte → Response) (s : State) : State :=
  if s.lifecycle ≠ .ready then respondError .stateError s
  else runEngine i v (endOperation fields) s

end Sys2Proof.Machine
end

