-- ==== Sys2Proof/Machine/Driver.lean ====
section
/-! DEFINITION. The Device Driver's eight operations (spec/42_driver_operations.md R161 to R168). -/

namespace Sys2Proof.Machine

/-- WRITE_ENABLE: WREN if `enable`, WRDI if not (R161). -/
def execWriteEnable (enable : Bool) (s : State) : Host.Outcome State Fault Refusal :=
  .next (operation (.writeEnable enable)
    (if enable then ⟨descWren, 0, [], 0⟩ else ⟨descWrdi, 0, [], 0⟩) plainResult s.accept)

/-- WRITE_BYTE: `Transact(WRITE, addr, [value], 0)` (R162). -/
def execWriteByte (addr : Nat) (value : Byte) (s : State) : Host.Outcome State Fault Refusal :=
  .next (operation (.writeByte addr value) ⟨descWrite, addr, [value], 0⟩ plainResult s.accept)

/-- WRITE_BYTES: `Transact(WRITE, addr, wbytes, 0)` (R163). -/
def execWriteBytes (addr : Nat) (wbytes : List Byte) (s : State) : Host.Outcome State Fault Refusal :=
  .next (operation (.writeBytes addr wbytes) ⟨descWrite, addr, wbytes, 0⟩ plainResult s.accept)

/-- READ_BYTE: `Transact(READ, addr, [], 1)` (R164). -/
def execReadByte (addr : Nat) (s : State) : Host.Outcome State Fault Refusal :=
  .next (operation (.readByte addr) ⟨descRead, addr, [], 1⟩ bytesResult s.accept)

/-- READ_BYTES: `Transact(READ, addr, [], count)` (R165). -/
def execReadBytes (addr count : Nat) (s : State) : Host.Outcome State Fault Refusal :=
  .next (operation (.readBytes addr count) ⟨descRead, addr, [], count⟩ bytesResult s.accept)

/-- GET_DEVICE_ID: `Transact(RDID, -, [], 4)`, decoded and not validated (R166). -/
def execGetDeviceId (s : State) : Host.Outcome State Fault Refusal :=
  .next (operation .getDeviceId ⟨descRdid, 0, [], Config.idLen⟩ identityResult s.accept)

/-- GET_STATUS: `Transact(RDSR, -, [], 1)` (R167). -/
def execGetStatus (s : State) : Host.Outcome State Fault Refusal :=
  .next (operation .getStatus ⟨descRdsr, 0, [], 1⟩ bytesResult s.accept)

/-- SET_STATUS: `Transact(WRSR, -, [value], 1)`, the echo discarded (R168). -/
def execSetStatus (value : Byte) (s : State) : Host.Outcome State Fault Refusal :=
  .next (operation (.setStatus value) ⟨descWrsr, 0, [value], 1⟩ plainResult s.accept)

end Sys2Proof.Machine
end

