-- ==== Sys2Proof/Machine/Init.lean ====
section
/-! DEFINITION. The initialization state machine (spec/43_initialization.md R180 to R191). -/

namespace Sys2Proof.Machine

/-- A failing INIT: `S.lifecycle <- Failed`, and the error (R182 to R186, R189). -/
def initFail (e : Status) (s : State) : State := respondError e (s.setLifecycle .failed)

/-- Steps 5 and 6, after the identity read of step 4 (R185 to R188). -/
def initValidate (r : EngineResult) (s : State) : State :=
  if r.status ≠ .ok then initFail .transportError s
  else if !identityAccepted r.rbytes then initFail .identityMismatchError s
  else respond { status := .ok } ((s.setLifecycle .identityChecked).setLifecycle .ready)

/-- Steps 1 and 2 (R182, R183): the error they end in, if any. -/
def initRefusal (aw : BitVec 3) (tp cp : Bool) : Option Status :=
  if !tp || !cp then some .configurationError
  else if !legalWidth aw then some .configurationError
  else none

/-- INIT, complete (R188). -/
def initCommand (aw : BitVec 3) (tp cp : Bool) (s : State) : State :=
  if s.lifecycle ≠ .uninitialized then respondError .stateError s
  else
    match initRefusal aw tp cp with
    | some e => initFail e s
    | none =>
      match doCall (.cs false) (s.setWidth aw.toNat) with
      | (.never, s) =>
        hang { instr := .init aw tp cp, phase := .idleLevel, rbytes := [], failed := false, waiting := true } s
      | (.fail, s) => initFail .transportError s
      | (.ok _, s) => runEngine (.init aw tp cp) ⟨descRdid, 0, [], Config.idLen⟩ initValidate s

/-- INIT (R188). -/
def execInit (aw : BitVec 3) (tp cp : Bool) (s : State) : Host.Outcome State Fault Refusal :=
  .next (initCommand aw tp cp s.accept)

end Sys2Proof.Machine
end

