-- ==== Sys2Proof/Machine/Wire.lean ====
section
/-! DEFINITION. The seven wire opcodes (spec/41_transaction_engine.md R140 to R146), each one run of the
engine at the engine's own port (notes/assumptions/2.md). -/

namespace Sys2Proof.Machine

/-- WREN: `Transact(WREN, -, [], 0)` (R140). -/
def execWren (s : State) : Host.Outcome State Fault Refusal :=
  .next (runEngine .wren ⟨descWren, 0, [], 0⟩ endEngine s.accept)

/-- WRDI: `Transact(WRDI, -, [], 0)` (R141). -/
def execWrdi (s : State) : Host.Outcome State Fault Refusal :=
  .next (runEngine .wrdi ⟨descWrdi, 0, [], 0⟩ endEngine s.accept)

/-- RDSR: `Transact(RDSR, -, [], 1)` (R142). -/
def execRdsr (s : State) : Host.Outcome State Fault Refusal :=
  .next (runEngine .rdsr ⟨descRdsr, 0, [], 1⟩ endEngine s.accept)

/-- WRSR: `Transact(WRSR, -, [v], 1)` (R143). -/
def execWrsr (v : Byte) (s : State) : Host.Outcome State Fault Refusal :=
  .next (runEngine (.wrsr v) ⟨descWrsr, 0, [v], 1⟩ endEngine s.accept)

/-- READ: `Transact(READ, addr, [], N)` (R144). -/
def execRead (addr n : Nat) (s : State) : Host.Outcome State Fault Refusal :=
  .next (runEngine (.read addr n) ⟨descRead, addr, [], n⟩ endEngine s.accept)

/-- WRITE: `Transact(WRITE, addr, data, 0)` (R145). -/
def execWrite (addr : Nat) (data : List Byte) (s : State) : Host.Outcome State Fault Refusal :=
  .next (runEngine (.write addr data) ⟨descWrite, addr, data, 0⟩ endEngine s.accept)

/-- RDID: `Transact(RDID, -, [], 4)` (R146). -/
def execRdid (s : State) : Host.Outcome State Fault Refusal :=
  .next (runEngine .rdid ⟨descRdid, 0, [], Config.idLen⟩ endEngine s.accept)

end Sys2Proof.Machine
end

