-- ==== Sys2Proof/Machine/CallByCall.lean ====
section
/-! DEFINITION. The block stepped one transport call at a time (spec/41_transaction_engine.md R136), with
the transient state of spec/10_state.md R29. -/

namespace Sys2Proof.Machine

/-- The phase after the address bytes: `WR(0)`, else `RD(0)`, else `DESEL` (R136). -/
def afterAddress (v : Invocation) : Phase :=
  if 0 < v.wbytes.length then .wr 0 else if 0 < v.nread then .rd 0 else .desel

/-- "Next phase when `ok`" of R136; `idleLevel` goes on to the frame (spec/43_initialization.md R188). -/
def nextPhase (v : Invocation) (aw : Nat) : Phase → Phase
  | .idleLevel => .sel
  | .sel => .opc
  | .opc => if v.d.addressed then .adr 0 else afterAddress v
  | .adr j => if j + 1 < aw then .adr (j + 1) else afterAddress v
  | .wr k => if k + 1 < v.wbytes.length then .wr (k + 1) else if 0 < v.nread then .rd 0 else .desel
  | .rd k => if k + 1 < v.nread then .rd (k + 1) else .desel
  | .desel => .desel

/-- "Call made" of R136. -/
def phaseCall (v : Invocation) (aw : Nat) : Phase → Call
  | .idleLevel => .cs false
  | .sel => .cs true
  | .opc => .tx v.d.op
  | .adr j => .tx ((encodeAddr v.addr aw).getD j 0)
  | .wr k => .tx (v.wbytes.getD k 0)
  | .rd _ => .rx
  | .desel => .cs false

/-- How a command ends once its frame has been released. -/
def ending : Instr → EngineResult → State → State
  | .wren => endEngine
  | .wrdi => endEngine
  | .rdsr => endEngine
  | .wrsr _ => endEngine
  | .read _ _ => endEngine
  | .write _ _ => endEngine
  | .rdid => endEngine
  | .init _ _ _ => initValidate
  | .writeEnable _ => endOperation plainResult
  | .writeByte _ _ => endOperation plainResult
  | .writeBytes _ _ => endOperation plainResult
  | .readByte _ => endOperation bytesResult
  | .readBytes _ _ => endOperation bytesResult
  | .getDeviceId => endOperation identityResult
  | .getStatus => endOperation bytesResult
  | .setStatus _ => endOperation plainResult

/-- The command is latched and stands at phase `p`, nothing done yet. -/
def latch (i : Instr) (p : Phase) (s : State) : State :=
  s.setProgress (some { instr := i, phase := p, rbytes := [], failed := false, waiting := false })

/-- A host operation passes its gating test or is answered `StateError` (R136, spec/42_driver_operations.md
R160). -/
def beginOperation (i : Instr) (s : State) : State :=
  if s.lifecycle ≠ .ready then respondError .stateError s else latch i .sel s

/-- INIT passes steps 1 and 2 or ends there (spec/43_initialization.md R188). -/
def beginInit (aw : BitVec 3) (tp cp : Bool) (s : State) : State :=
  if s.lifecycle ≠ .uninitialized then respondError .stateError s
  else
    match initRefusal aw tp cp with
    | some e => initFail e s
    | none => latch (.init aw tp cp) .idleLevel (s.setWidth aw.toNat)

/-- A request is accepted in IDLE, to be run call by call. -/
def beginInstr (i : Instr) (s : State) : State :=
  match i with
  | .wren => latch i .sel s.accept
  | .wrdi => latch i .sel s.accept
  | .rdsr => latch i .sel s.accept
  | .wrsr _ => latch i .sel s.accept
  | .read _ _ => latch i .sel s.accept
  | .write _ _ => latch i .sel s.accept
  | .rdid => latch i .sel s.accept
  | .init aw tp cp => beginInit aw tp cp s.accept
  | .writeEnable _ => beginOperation i s.accept
  | .writeByte _ _ => beginOperation i s.accept
  | .writeBytes _ _ => beginOperation i s.accept
  | .readByte _ => beginOperation i s.accept
  | .readBytes _ _ => beginOperation i s.accept
  | .getDeviceId => beginOperation i s.accept
  | .getStatus => beginOperation i s.accept
  | .setStatus _ => beginOperation i s.accept

/-- The phase's call was answered `ok`. -/
def afterOk (p : Progress) (qs : List Byte) (s : State) : State :=
  match p.phase with
  | .desel => ending p.instr (engineReturn p.failed p.rbytes) (s.setProgress none)
  | .idleLevel => s.setProgress (some { p with phase := nextPhase (invocation p.instr) s.aw p.phase })
  | .sel => s.setProgress (some { p with phase := nextPhase (invocation p.instr) s.aw p.phase })
  | .opc => s.setProgress (some { p with phase := nextPhase (invocation p.instr) s.aw p.phase })
  | .adr _ => s.setProgress (some { p with phase := nextPhase (invocation p.instr) s.aw p.phase })
  | .wr _ => s.setProgress (some { p with phase := nextPhase (invocation p.instr) s.aw p.phase })
  | .rd _ =>
    s.setProgress (some { p with phase := nextPhase (invocation p.instr) s.aw p.phase, rbytes := p.rbytes ++ qs })

/-- The phase's call was answered `fail`: the next phase is DESEL with `failed` set (R136); at DESEL the
command ends; at step 3 of INIT it ends with no frame begun (spec/43_initialization.md R184). -/
def afterFail (p : Progress) (s : State) : State :=
  match p.phase with
  | .desel => ending p.instr (engineReturn true p.rbytes) (s.setProgress none)
  | .idleLevel => initFail .transportError (s.setProgress none)
  | .sel => s.setProgress (some { p with phase := .desel, failed := true })
  | .opc => s.setProgress (some { p with phase := .desel, failed := true })
  | .adr _ => s.setProgress (some { p with phase := .desel, failed := true })
  | .wr _ => s.setProgress (some { p with phase := .desel, failed := true })
  | .rd _ => s.setProgress (some { p with phase := .desel, failed := true })

/-- One transport call of a command under way (R136). -/
def tick (p : Progress) (s : State) : State :=
  match doCall (phaseCall (invocation p.instr) s.aw p.phase) s with
  | (.ok qs, s) => afterOk p qs s
  | (.fail, s) => afterFail p s
  | (.never, s) => hang p s

/-- At most `n` transport calls of the command under way: it stops early when the command has ended or
waits for an answer that never comes. -/
def drive : Nat → State → State
  | 0, s => s
  | n + 1, s =>
    match s.progress with
    | none => s
    | some p => if p.waiting then s else drive n (tick p s)

/-- The number of calls of an engine invocation when none fails (spec/70_reset_and_hazards.md R251). -/
def frameCalls (v : Invocation) (aw : Nat) : Nat :=
  2 + 1 + (if v.d.addressed then aw else 0) + v.wbytes.length + v.nread

end Sys2Proof.Machine
end

