-- ==== Sys2Proof/Machine/Dispatch.lean ====
section
/-! DEFINITION. One arm per instruction. -/

namespace Sys2Proof.Machine

def exec (i : Instr) (s : State) : Host.Outcome State Fault Refusal :=
  match i with
  | .wren => Sys2Proof.Machine.execWren s
  | .wrdi => Sys2Proof.Machine.execWrdi s
  | .rdsr => Sys2Proof.Machine.execRdsr s
  | .wrsr v => Sys2Proof.Machine.execWrsr v s
  | .read addr n => Sys2Proof.Machine.execRead addr n s
  | .write addr data => Sys2Proof.Machine.execWrite addr data s
  | .rdid => Sys2Proof.Machine.execRdid s
  | .init aw tp cp => Sys2Proof.Machine.execInit aw tp cp s
  | .writeEnable enable => Sys2Proof.Machine.execWriteEnable enable s
  | .writeByte addr value => Sys2Proof.Machine.execWriteByte addr value s
  | .writeBytes addr wbytes => Sys2Proof.Machine.execWriteBytes addr wbytes s
  | .readByte addr => Sys2Proof.Machine.execReadByte addr s
  | .readBytes addr count => Sys2Proof.Machine.execReadBytes addr count s
  | .getDeviceId => Sys2Proof.Machine.execGetDeviceId s
  | .getStatus => Sys2Proof.Machine.execGetStatus s
  | .setStatus value => Sys2Proof.Machine.execSetStatus value s

end Sys2Proof.Machine
end

