-- ==== Sys2Proof/Machine/Reset.lean ====
section
/-! DEFINITION. The hardware reset of the block (spec/70_reset_and_hazards.md R230 to R232). -/

namespace Sys2Proof.Machine

/-- What the line going inactive at reset does to the chip: a frame still open there is cut (R230,
spec/20_memory.md R71); otherwise nothing reaches the chip (R232). -/
def cutFrame (s : State) : State :=
  match s.chip.frame with
  | none => s
  | some _ => chipUnspecified s

/-- Reset: every piece of the block's state at its reset value (spec/10_state.md R33). The trace, the chip's
array, latch, status register and identity, and the inputs are not the block's. -/
def hardwareReset (s : State) : State :=
  { cutFrame s with lifecycle := .uninitialized, aw := Config.defaultWidth, cs := false, progress := none,
                    engineResult := none, response := none }

end Sys2Proof.Machine
end

