-- ==== Sys2Proof/Machine/Port.lean ====
section
/-! DEFINITION. The host's side of a step: what the block does with a host event when it is idle and when a
command is in progress (spec/70_reset_and_hazards.md R230, R231, R242). -/

namespace Sys2Proof.Machine

/-- A request that names no instruction: codes 0x9 to 0xF are answered `IllegalCommand` before any other
test (spec/60_exceptions.md R205, R208); a frame that is none of the seven has no meaning (R98). -/
def rejectRequest (e : DecodeError) (s : State) : Host.Outcome State Fault Refusal :=
  match e with
  | .reservedCommand _ => .next (respondError .illegalCommand s.accept)
  | .emptyFrame => .refused (.notAFrame e)
  | .unknownOpcode _ => .refused (.notAFrame e)
  | .wrongTransmitLength _ => .refused (.notAFrame e)
  | .wrongReceiveLength _ => .refused (.notAFrame e)

/-- A request presented to the idle block runs to its response. -/
def runRequest (r : Request) (s : State) : Host.Outcome State Fault Refusal :=
  match decode s.aw r with
  | .ok i => exec i s
  | .error e => rejectRequest e s

/-- A request presented to the idle block is accepted, to run one call per step. -/
def beginRequest (r : Request) (s : State) : Host.Outcome State Fault Refusal :=
  match decode s.aw r with
  | .ok i => .next (beginInstr i s)
  | .error e => rejectRequest e s

/-- A step of the idle block: with no host event it waits (R231). -/
def idleStep (s : State) : Host.Outcome State Fault Refusal :=
  match s.inputs with
  | [] => .next s
  | .present r :: rest => runRequest r (s.setInputs rest)
  | .begin r :: rest => beginRequest r (s.setInputs rest)
  | .wait :: rest => .next (s.setInputs rest)
  | .reset :: rest => .next (hardwareReset (s.setInputs rest))
  | .chipPowerOn :: rest => .next (chipPoweredOn (s.setInputs rest))

/-- The block's own move while a command is in progress: its next transport call, or none while a call is
unanswered. -/
def advance (p : Progress) (s : State) : State := if p.waiting then s else tick p s

/-- A step while a command is in progress. A second request has no meaning (R242). -/
def busyStep (p : Progress) (s : State) : Host.Outcome State Fault Refusal :=
  match s.inputs with
  | [] => if p.waiting then .fault .transportNeverAnswers else .next (tick p s)
  | .present _ :: _ => .refused .busy
  | .begin _ :: _ => .refused .busy
  | .wait :: rest => .next (advance p (s.setInputs rest))
  | .reset :: rest => .next (hardwareReset (s.setInputs rest))
  | .chipPowerOn :: rest => .next (chipPoweredOn (s.setInputs rest))

end Sys2Proof.Machine
end

