-- ==== Sys2Proof/Machine/Step.lean ====
section
/-! DEFINITION. One step of the machine, and where a test places the next instruction. -/

namespace Sys2Proof.Machine

/-- One step: the idle block takes the next host event; a block with a command in progress makes its next
transport call. -/
def step (s : State) : Host.Outcome State Fault Refusal :=
  match s.progress with
  | none => idleStep s
  | some p => busyStep p s

/-- The state in which the host presents, as its next event, the request that a word of the opcode table
stands for (notes/assumptions/21.md). -/
def State.withFetchWord (s : State) (nbits w : Nat) : State :=
  (s.setProgress none).setInputs (.present (requestOfTableWord s.aw nbits w) :: s.inputs)

end Sys2Proof.Machine
end

