-- ==== Sys2Proof/Machine/Flags.lean ====
section
/-! DEFINITION. The block has no condition codes (spec/10_state.md R26). Here stand its one boolean, the
status output (spec/60_exceptions.md R217) and the numeric codes of its names (spec/30_encoding.md R103,
R104). -/

namespace Sys2Proof.Machine

/-- `initialized = (S.lifecycle = Ready)` (spec/10_state.md R26). -/
def initialized (s : State) : Bool := decide (s.lifecycle = .ready)

/-- The two bits of `S.lifecycle` on the status output (R104). -/
def lifecycleCode : Lifecycle → BitVec 2
  | .uninitialized => 0
  | .identityChecked => 1
  | .ready => 2
  | .failed => 3

/-- The three bits of a response's status (R103). -/
def statusCode : Status → BitVec 3
  | .ok => 0
  | .configurationError => 1
  | .identityMismatchError => 2
  | .transportError => 3
  | .stateError => 4
  | .illegalCommand => 5

/-- The status output: the lifecycle code and the chip-select level (R104, spec/60_exceptions.md R217). -/
def statusOutput (s : State) : BitVec 2 × Bool := (lifecycleCode s.lifecycle, s.cs)

end Sys2Proof.Machine
end

