-- ==== Sys2Proof/Safety.lean ====
section
/-! DEFINITION. The terms in which claims about the machine are made: the invariant of every run, what a
frame looks like on the trace, and what the transport's coming answers are assumed to be. -/

namespace Sys2Proof.Machine

/-- The byte index of a phase lies inside the frame (spec/41_transaction_engine.md R136). -/
def phaseInRange (v : Invocation) (aw : Nat) : Phase → Prop
  | .idleLevel => True
  | .sel => True
  | .opc => True
  | .adr j => v.d.addressed = true ∧ j < aw
  | .wr k => k < v.wbytes.length
  | .rd k => k < v.nread
  | .desel => True

/-- `S.cs` while a command is in progress (R135): the level last requested. -/
def lineLevel (p : Progress) : Bool :=
  match p.phase with
  | .idleLevel => false
  | .sel => p.waiting
  | .opc => true
  | .adr _ => true
  | .wr _ => true
  | .rd _ => true
  | .desel => !p.waiting

/-- How many bytes have been received when no call has failed. -/
def receivedSoFar (v : Invocation) : Phase → Nat
  | .idleLevel => 0
  | .sel => 0
  | .opc => 0
  | .adr _ => 0
  | .wr _ => 0
  | .rd k => k
  | .desel => v.nread

/-- A host command 0x1 to 0x8 (spec/30_encoding.md R100). -/
def isOperation : Instr → Bool
  | .writeEnable _ => true
  | .writeByte _ _ => true
  | .writeBytes _ _ => true
  | .readByte _ => true
  | .readBytes _ _ => true
  | .getDeviceId => true
  | .getStatus => true
  | .setStatus _ => true
  | .init _ _ _ => false
  | .wren => false
  | .wrdi => false
  | .rdsr => false
  | .wrsr _ => false
  | .read _ _ => false
  | .write _ _ => false
  | .rdid => false

/-- INIT, host command 0x0. -/
def isInit : Instr → Bool
  | .init _ _ _ => true
  | .writeEnable _ => false
  | .writeByte _ _ => false
  | .writeBytes _ _ => false
  | .readByte _ => false
  | .readBytes _ _ => false
  | .getDeviceId => false
  | .getStatus => false
  | .setStatus _ => false
  | .wren => false
  | .wrdi => false
  | .rdsr => false
  | .wrsr _ => false
  | .read _ _ => false
  | .write _ _ => false
  | .rdid => false

/-- A command in progress has passed its gating test (R136; spec/43_initialization.md R181 to R183). -/
def gatePassed (i : Instr) (s : State) : Prop :=
  (isOperation i = true → s.lifecycle = .ready) ∧
  (∀ aw tp cp, i = .init aw tp cp →
    s.lifecycle = .uninitialized ∧ initRefusal aw tp cp = none ∧ s.aw = aw.toNat)

/-- The transient state fits the command, the line and the lifecycle. -/
def Progress.Consistent (p : Progress) (s : State) : Prop :=
  phaseInRange (invocation p.instr) s.aw p.phase ∧
  (p.phase = .idleLevel → isInit p.instr = true) ∧
  s.cs = lineLevel p ∧
  gatePassed p.instr s ∧
  (p.failed = true → p.phase = .desel) ∧
  (p.failed = false → p.rbytes.length = receivedSoFar (invocation p.instr) p.phase) ∧
  s.response = none ∧ s.engineResult = none

/-- The invariant of every run: the width is legal (spec/10_state.md R22), no step ends in
`IdentityChecked` (R21), the array is in canonical form, chip-select is inactive between commands
(spec/41_transaction_engine.md R135), and a command in progress is consistent. -/
def State.Inv (s : State) : Prop :=
  1 ≤ s.aw ∧ s.aw ≤ 4 ∧ s.lifecycle ≠ .identityChecked ∧ s.chip.mem.wf = true ∧
  (s.progress = none → s.cs = false) ∧
  (∀ p, s.progress = some p → p.Consistent s)

/-- The first `n` answers are in the list and all are `ok`. -/
def okCalls : Nat → List Answer → Bool
  | 0, _ => true
  | n + 1, .ok _ :: rest => okCalls n rest
  | _ + 1, .fail _ :: _ => false
  | _ + 1, .never _ :: _ => false
  | _ + 1, [] => false

/-- The first `n` answers are in the list, all are `ok`, and the bytes received are the chip's
(spec/20_memory.md R75). -/
def chipCalls : Nat → List Answer → Bool
  | 0, _ => true
  | n + 1, .ok none :: rest => chipCalls n rest
  | _ + 1, .ok (some _) :: _ => false
  | _ + 1, .fail _ :: _ => false
  | _ + 1, .never _ :: _ => false
  | _ + 1, [] => false

/-- A frame of `n` calls, the last of them the release, meets a failure: call number `i`, counted from 0,
is the first that answers `fail`, and if it is not the release itself, the release that follows is
answered. -/
def failsAt : Nat → Nat → List Answer → Bool
  | n + 1, 0, .fail _ :: rest =>
    match n, rest with
    | 0, _ => true
    | _ + 1, .ok _ :: _ => true
    | _ + 1, .fail _ :: _ => true
    | _ + 1, .never _ :: _ => false
    | _ + 1, [] => false
  | n + 1, i + 1, .ok _ :: rest => failsAt n i rest
  | _, _, _ => false

/-- The calls of a frame in order (spec/41_transaction_engine.md R130, R131). -/
def frameCallList (v : Invocation) (aw : Nat) : List Call :=
  [.cs true, .tx v.d.op] ++ (if v.d.addressed then (encodeAddr v.addr aw).map .tx else [])
    ++ v.wbytes.map .tx ++ List.replicate v.nread .rx ++ [.cs false]

/-- The events of a frame in which no call fails (R134): the bytes transmitted, then the bytes received. -/
def frameEvents (tx rx : List Byte) : List Ev :=
  [.cs true] ++ tx.map .tx ++ rx.map .rx ++ [.cs false]

/-- The bytes an invocation transmits: opcode, address, data (spec/30_encoding.md R91). -/
def transmitted (v : Invocation) (aw : Nat) : List Byte :=
  v.d.op :: ((if v.d.addressed then encodeAddr v.addr aw else []) ++ v.wbytes)

/-- A chip-select event, answered either way. -/
def isCsEvent : Ev → Bool
  | .cs _ => true
  | .fail (.cs _) => true
  | .fail (.tx _) => false
  | .fail .rx => false
  | .tx _ => false
  | .rx _ => false

/-- A call that answered `fail`. -/
def isFailEvent : Ev → Bool
  | .fail _ => true
  | .cs _ => false
  | .tx _ => false
  | .rx _ => false

/-- The byte received by an event, if it is a receive. -/
def receivedByte : Ev → Option Byte
  | .rx b => some b
  | .cs _ => none
  | .tx _ => none
  | .fail _ => none

/-- The chip is between frames and expects the width the block sends (spec/20_memory.md R61, R74). -/
def ChipReady (s : State) : Prop := s.chip.frame = none ∧ s.chip.addrBytes = s.aw

/-- What a finished request leaves of the block: lifecycle and width unchanged, chip-select inactive
(spec/42_driver_operations.md R160), and nothing of the transient state or the coming host events
changed. -/
def BlockKept (s t : State) : Prop :=
  t.lifecycle = s.lifecycle ∧ t.aw = s.aw ∧ t.cs = false ∧ t.progress = s.progress ∧ t.inputs = s.inputs

/-- The bytes the environment gives on its own, from answer `m` on, are the bytes `qs`. -/
def OwnBytes (m : Nat) (answers : List Answer) (qs : List Byte) : Prop :=
  ∀ k b, k < qs.length → answers[m + k]? = some (.ok (some b)) → qs[k]? = some b

/-- From `s`, `i` runs one frame that transmits `tx` and receives `nrx` bytes, all calls answered `ok`, and
reaches a state that `post` describes given the bytes received. -/
def RunsFrame (i : Instr) (s : State) (tx : List Byte) (nrx : Nat) (post : List Byte → State → Prop) : Prop :=
  ∃ t qs, exec i s = .next t ∧ qs.length = nrx ∧ OwnBytes (1 + tx.length) s.answers qs ∧
    t.trace = s.trace ++ frameEvents tx qs ∧ t.answers = s.answers.drop (2 + tx.length + nrx) ∧
    BlockKept s t ∧ post qs t

/-- From `s`, the host command `i` ends in `TransportError` with no result: chip-select inactive, lifecycle
and width as they were (spec/60_exceptions.md R203). -/
def EndsInTransportError (i : Instr) (s : State) : Prop :=
  ∃ t, exec i s = .next t ∧ t.response = some { status := .transportError } ∧ t.engineResult = none ∧
    BlockKept s t

/-- From `s`, the engine run `i` ends in `(TransportError, [])` (spec/41_transaction_engine.md R133). -/
def EngineFails (i : Instr) (s : State) : Prop :=
  ∃ t, exec i s = .next t ∧ t.engineResult = some ⟨.transportError, []⟩ ∧ t.response = none ∧ BlockKept s t

/-- The state in which a host command has been answered by an error and nothing else has happened
(spec/60_exceptions.md R204, R205). -/
def answeredOnly (e : Status) (s : State) : State :=
  { s with engineResult := none, response := some { status := e } }

/-- The byte that a burst of data `d` from address `a` leaves in cell `x`: the last one sent there, if any
(spec/20_memory.md R67, R70). -/
def burstStores : Nat → List Byte → Nat → Option Byte
  | _, [], _ => none
  | a, b :: bs, x => (burstStores (a + 1) bs x).or (if addrMap a = some x then some b else none)

/-- The array byte `x` after a burst of `d` from `a`: the byte stored there when the latch was set, otherwise
the byte held before (spec/20_memory.md R67). -/
def afterBurst (c : Chip) (a : Nat) (d : List Byte) (x : Nat) : Byte :=
  if c.wel then (burstStores a d x).getD (c.mem.read x) else c.mem.read x

/-- What a complete WRITE frame leaves in the chip: every array byte as `afterBurst` says for the address
that reaches the wire, the latch clear, nothing else changed (spec/20_memory.md R67, R69). -/
def ChipWrote (s t : State) (addr : Nat) (d : List Byte) : Prop :=
  ChipReady s → s.chip.mem.wf = true →
    t.chip = { s.chip with mem := t.chip.mem, wel := false } ∧
    ∀ x, t.chip.mem.read x = afterBurst s.chip (addr % 2 ^ (8 * s.aw)) d x

/-- What a complete READ frame of `calls` calls returns when the bytes are the chip's, and that it leaves the
chip as it was (spec/20_memory.md R66). -/
def ChipWasRead (s t : State) (calls addr : Nat) (qs : List Byte) : Prop :=
  ChipReady s → chipCalls calls s.answers = true →
    t.chip = s.chip ∧
    ∀ k cell, k < qs.length → addrMap (addr % 2 ^ (8 * s.aw) + k) = some cell →
      qs[k]? = some (s.chip.mem.read cell)

end Sys2Proof.Machine
end

