-- ==== Sys2Proof/Certificates/Slice0/Obligations.lean ====
section
/-! DEFINITION. The statements for the provers, from the numbered rules of spec/, file by file. A docstring
names the rule; where a clause rests on a decision the spec marks as its own (D<n>) or on the model's log
(notes/assumptions/<n>.md), the docstring says so. -/

open Sys2Proof Sys2Proof.Machine

/-! ## Reset, the invariant, the lifecycle -/

/-- R33, R230, which the spec marks as its own decision D17: the reset values, right after power-up and after
the reset input in any state. -/
def Obligations.ResetGivesTheResetValues : Prop :=
  ∀ s, (s = State.reset ∨ ∃ s₀, s = hardwareReset s₀) →
    s.lifecycle = .uninitialized ∧ initialized s = false ∧ s.aw = 2 ∧ s.cs = false ∧ s.progress = none ∧
      s.response = none ∧ s.engineResult = none

/-- R230, R232 (derived there; D17, D21): a reset sends nothing and leaves no event; the chip changes only if
a frame was open there, and keeps its identity and its address length even then (R71). -/
def Obligations.ResetLeavesTheChipUnlessItCutsAFrame : Prop :=
  ∀ s, (hardwareReset s).trace = s.trace ∧ (hardwareReset s).answers = s.answers ∧
    (hardwareReset s).inputs = s.inputs ∧ (s.chip.frame = none → (hardwareReset s).chip = s.chip) ∧
    (hardwareReset s).chip.frame = none ∧ (hardwareReset s).chip.id = s.chip.id ∧
    (hardwareReset s).chip.addrBytes = s.chip.addrBytes

/-- R26, R103, R104 (the numbers are the spec's own, D4, D12): the numeric codes, and the status output. -/
def Obligations.StatusOutputShowsTheLifecycle : Prop :=
  (∀ s, (initialized s = true ↔ (statusOutput s).1 = 2) ∧ (statusOutput s).2 = s.cs) ∧
  lifecycleCode .uninitialized = 0 ∧ lifecycleCode .identityChecked = 1 ∧ lifecycleCode .ready = 2 ∧
  lifecycleCode .failed = 3 ∧ statusCode .ok = 0 ∧ statusCode .configurationError = 1 ∧
  statusCode .identityMismatchError = 2 ∧ statusCode .transportError = 3 ∧ statusCode .stateError = 4 ∧
  statusCode .illegalCommand = 5

/-- The invariant of Safety.lean holds right after reset. -/
def Obligations.ResetStateMeetsTheInvariant : Prop := State.reset.Inv

/-- Every step keeps the invariant: width in {1, 2, 3, 4} (R22), never `IdentityChecked` between steps
(R21, D12), the array canonical (notes/assumptions/10.md), chip-select inactive between commands (R135), the
transient state of a command in progress consistent (R29, R136). -/
def Obligations.StepKeepsTheInvariant : Prop :=
  ∀ s t, s.Inv → step s = .next t → t.Inv

/-- R190 (derived there), over every step of every state that meets the invariant: a step keeps the
lifecycle, or is the reset input, or is a step of INIT from `Uninitialized` to `Ready` or `Failed`. -/
def Obligations.StepFollowsTheLifecycleTable : Prop :=
  ∀ s t, s.Inv → step s = .next t →
    t.lifecycle = s.lifecycle ∨
    (s.inputs.head? = some .reset ∧ t.lifecycle = .uninitialized) ∨
    (s.lifecycle = .uninitialized ∧ (t.lifecycle = .ready ∨ t.lifecycle = .failed) ∧
      ((∃ p, s.progress = some p ∧ isInit p.instr = true) ∨
        ∃ r i, (s.inputs.head? = some (.present r) ∨ s.inputs.head? = some (.begin r)) ∧
          decode s.aw r = .ok i ∧ isInit i = true))

/-- R191, R213, R208 (D10, D11, D12): in `Failed` every host command, run whole or begun, is answered by an
error with no wire activity, no chip activity and no state change but the response. -/
def Obligations.FailedAnswersOnlyErrors : Prop :=
  ∀ s c rest, s.progress = none → s.lifecycle = .failed →
    (s.inputs = .present (.command c) :: rest ∨ s.inputs = .begin (.command c) :: rest) →
    step s = .next (answeredOnly (if 9 ≤ c.cmd.toNat then .illegalCommand else .stateError)
      { s with inputs := rest })

/-! ## The Address Encoder -/

/-- R120, R121: exactly `w` bytes, element `j` is `(addr >> (8*(w-1-j))) & 0xFF`, together the big-endian
representation of `addr mod 2^(8*w)`, so congruent addresses give the same bytes; and R120's worked
example. -/
def Obligations.AddressEncoderIsBigEndianTruncation : Prop :=
  (∀ addr w, 1 ≤ w → w ≤ 4 →
    (encodeAddr addr w).length = w ∧
    (∀ j, j < w → (encodeAddr addr w)[j]? = some (BitVec.ofNat 8 ((addr >>> (8 * (w - 1 - j))) &&& 0xFF))) ∧
    addrValue (encodeAddr addr w) = addr % 2 ^ (8 * w) ∧
    (∀ addr', addr % 2 ^ (8 * w) = addr' % 2 ^ (8 * w) → encodeAddr addr w = encodeAddr addr' w)) ∧
  encodeAddr 0x1234 2 = [0x12, 0x34]

/-- R121 and R126 seen on the wire: two WRITE_BYTES whose addresses agree modulo `2^(8*aw)` make the same
trace, the same response and the same change of the chip, whatever the transport answers. -/
def Obligations.CongruentAddressesWriteAlike : Prop :=
  ∀ s t u a b d, a % 2 ^ (8 * s.aw) = b % 2 ^ (8 * s.aw) →
    exec (.writeBytes a d) s = .next t → exec (.writeBytes b d) s = .next u →
    t.trace = u.trace ∧ t.response = u.response ∧ t.chip = u.chip ∧ t.lifecycle = u.lifecycle

/-! ## Encoding -/

/-- Decoding the encoding of a well-formed instruction gives it back, with every operand (R91, R94, R100). -/
def Obligations.DecodeOfEncodeIsTheInstruction : Prop :=
  ∀ w i, i.wf w = true → decode w (encode w i) = .ok i

/-- What the decoder accepts is well formed. -/
def Obligations.DecodedInstructionIsWellFormed : Prop :=
  ∀ w r i, decode w r = .ok i → i.wf w = true

/-- R91, R96: a frame the decoder accepts is the frame its instruction encodes to, byte for byte. -/
def Obligations.AcceptedFrameIsTheEncodedFrame : Prop :=
  ∀ w tx nrx i, decode w (.frame tx nrx) = .ok i → encode w i = .frame tx nrx

/-- R92, R100: words written out from the tables of the spec. -/
def Obligations.DecodeReadsTheTablesWords : Prop :=
  decode 2 (.frame [0b00000110] 0) = .ok .wren ∧
  decode 2 (.frame [0b00000100] 0) = .ok .wrdi ∧
  decode 2 (.frame [0b00000001, 0x80] 1) = .ok (.wrsr 0x80) ∧
  decode 2 (.frame [0b00000011, 0x1F, 0xFE] 2) = .ok (.read 0x1FFE 2) ∧
  decode 3 (.frame [0b00000010, 0x00, 0x12, 0x34, 0xAB] 0) = .ok (.write 0x1234 [0xAB]) ∧
  decode 2 (.frame [0b10011111] 4) = .ok .rdid ∧
  decode 2 (.command { cmd := 0b0000, aw := 2, tp := true, cp := true }) = .ok (.init 2 true true) ∧
  decode 2 (.command { cmd := 0b0010, addr := 0x10, value := 0xAB }) = .ok (.writeByte 0x10 0xAB) ∧
  decode 2 (.command { cmd := 0b1000, value := 0x80 }) = .ok (.setStatus 0x80)

/-- R98 (derived there): in every run of an instruction, on every answer of the transport, a byte transmitted
right after chip-select becomes active is one of the seven opcodes. -/
def Obligations.OnlyTheSevenOpcodesAreEmitted : Prop :=
  ∀ i s t, exec i s = .next t → ∃ evs, t.trace = s.trace ++ evs ∧
    ∀ k b, evs[k]? = some (.cs true) → evs[k + 1]? = some (.tx b) →
      b ∈ ([0x06, 0x04, 0x05, 0x01, 0x03, 0x02, 0x9F] : List Byte)

/-! ## The Transaction Engine -/

/-- R134 (derived there; R131 rests on D14, D15): when every call of the frame is answered `ok`, Transact
appends exactly the frame's events and returns the bytes received; a byte the environment gives on its own
is returned as given. -/
def Obligations.TransactTraceWhenNoCallFails : Prop :=
  ∀ v s, okCalls (frameCalls v s.aw) s.answers = true →
    ∃ qs, qs.length = v.nread ∧ (transact v s).stuck = none ∧
      engineReturn (transact v s).failed (transact v s).rbytes = ⟨.ok, qs⟩ ∧
      (transact v s).st.trace = s.trace ++ frameEvents (transmitted v s.aw) qs ∧
      OwnBytes (1 + (transmitted v s.aw).length) s.answers qs

/-- R133, R134 (D14): when call `i` of the frame is the first that fails, the trace is the first `i` events,
the failure, and, unless it was the release itself, exactly one release, answered either way; the result is
`TransportError` with no data, and chip-select is inactive. -/
def Obligations.TransactTraceWhenACallFails : Prop :=
  ∀ v s i, failsAt (frameCalls v s.aw) i s.answers = true →
    ∃ qs c, qs.length = v.nread ∧ (frameCallList v s.aw)[i]? = some c ∧ (transact v s).stuck = none ∧
      engineReturn (transact v s).failed (transact v s).rbytes = ⟨.transportError, []⟩ ∧
      (transact v s).st.cs = false ∧
      ((i + 1 = frameCalls v s.aw ∧
          (transact v s).st.trace = s.trace ++ (frameEvents (transmitted v s.aw) qs).take i ++ [.fail c]) ∨
        (i + 1 < frameCalls v s.aw ∧ ∃ e, (e = .cs false ∨ e = .fail (.cs false)) ∧
          (transact v s).st.trace =
            s.trace ++ (frameEvents (transmitted v s.aw) qs).take i ++ [.fail c, e]))

/-- R134, R135 (derived there): on every path that ends, whatever the answers, the first event is the
selection, the last is the release, no chip-select event lies between them, and `S.cs` is inactive. -/
def Obligations.EveryFrameIsSelectedAndReleasedOnce : Prop :=
  ∀ v s, (transact v s).stuck = none →
    (transact v s).st.cs = false ∧
    ∃ first mid last, (transact v s).st.trace = s.trace ++ (first :: mid ++ [last]) ∧
      (first = .cs true ∨ first = .fail (.cs true)) ∧ (last = .cs false ∨ last = .fail (.cs false)) ∧
      ∀ e ∈ mid, isCsEvent e = false

/-- R136 (derived there), R29: the run of a command one transport call at a time ends, on every answer of
the transport, in the very state in which the command run in one step ends. -/
def Obligations.CallByCallRunEqualsTheCommand : Prop :=
  ∀ i s t n, 1 ≤ s.aw → s.progress = none → frameCalls (invocation i) s.aw + 1 ≤ n →
    exec i s = .next t → drive n (beginInstr i s) = t

/-- R251 (derived there): a command makes at most its fixed number of transport calls, one more for INIT,
and exactly that number when it is an operation in `Ready` and no call fails; a refused operation makes
none. -/
def Obligations.CommandMakesAFixedNumberOfCalls : Prop :=
  ∀ i s t, exec i s = .next t → ∃ evs, t.trace = s.trace ++ evs ∧
    evs.length ≤ frameCalls (invocation i) s.aw + (if isInit i then 1 else 0) ∧
    (isOperation i = true → s.lifecycle ≠ .ready → evs = []) ∧
    (isOperation i = true → s.lifecycle = .ready → okCalls (frameCalls (invocation i) s.aw) s.answers = true →
      evs.length = frameCalls (invocation i) s.aw)

/-! ## The seven wire opcodes: what each does, and that it completes -/

/-- R140, R141. The engine's own port, with no lifecycle test, is notes/assumptions/2.md, and its result register
`engineResult` is notes/assumptions/14.md: both the model's choice. -/
def Obligations.WrenAndWrdiRunTheirFrames : Prop :=
  ∀ s,
    (okCalls 3 s.answers = true →
      RunsFrame .wren s [0x06] 0 (fun _ t => t.engineResult = some ⟨.ok, []⟩ ∧ t.response = none ∧
        (s.chip.frame = none → t.chip = { s.chip with wel := true })) ∧
      RunsFrame .wrdi s [0x04] 0 (fun _ t => t.engineResult = some ⟨.ok, []⟩ ∧ t.response = none ∧
        (s.chip.frame = none → t.chip = { s.chip with wel := false }))) ∧
    (∀ i, failsAt 3 i s.answers = true → EngineFails .wren s ∧ EngineFails .wrdi s)

/-- R142: the byte read is returned uninterpreted; the chip is unchanged when the byte is its own. The
engine's own port, with no lifecycle test, is notes/assumptions/2.md, and its result register
`engineResult` is notes/assumptions/14.md: both the model's choice. -/
def Obligations.RdsrRunsItsFrame : Prop :=
  ∀ s,
    (okCalls 4 s.answers = true →
      RunsFrame .rdsr s [0x05] 1 (fun qs t => t.engineResult = some ⟨.ok, qs⟩ ∧ t.response = none ∧
        (s.chip.frame = none → chipCalls 4 s.answers = true → t.chip = s.chip))) ∧
    (∀ i, failsAt 4 i s.answers = true → EngineFails .rdsr s)

/-- R143: one byte out, one byte in and returned uncompared; the chip stores the byte if its latch is set,
and clears the latch (D20, D22). The engine's own port, with no lifecycle test, is notes/assumptions/2.md, and its result register
`engineResult` is notes/assumptions/14.md: both the model's choice. -/
def Obligations.WrsrRunsItsFrame : Prop :=
  ∀ v s,
    (okCalls 5 s.answers = true →
      RunsFrame (.wrsr v) s [0x01, v] 1 (fun qs t => t.engineResult = some ⟨.ok, qs⟩ ∧ t.response = none ∧
        (s.chip.frame = none →
          t.chip = { s.chip with sr := if s.chip.wel then v else s.chip.sr, wel := false }))) ∧
    (∀ i, failsAt 5 i s.answers = true → EngineFails (.wrsr v) s)

/-- R144: opcode, `aw` address bytes, `n` bytes back in ascending order, `n = 0` included; the chip is
unchanged. The engine's own port, with no lifecycle test, is notes/assumptions/2.md, and its result register
`engineResult` is notes/assumptions/14.md: both the model's choice. -/
def Obligations.ReadRunsItsFrame : Prop :=
  ∀ addr n s,
    (okCalls (3 + s.aw + n) s.answers = true →
      RunsFrame (.read addr n) s (0x03 :: encodeAddr addr s.aw) n (fun qs t =>
        t.engineResult = some ⟨.ok, qs⟩ ∧ t.response = none ∧ ChipWasRead s t (3 + s.aw + n) addr qs)) ∧
    (∀ i, failsAt (3 + s.aw + n) i s.answers = true → EngineFails (.read addr n) s)

/-- R145: opcode, `aw` address bytes, the data; the chip stores the bytes from the address upward if its latch
is set, otherwise ignores them, and clears the latch (D20). The engine's own port, with no lifecycle test, is notes/assumptions/2.md, and its result register
`engineResult` is notes/assumptions/14.md: both the model's choice. -/
def Obligations.WriteRunsItsFrame : Prop :=
  ∀ addr data s,
    (okCalls (3 + s.aw + data.length) s.answers = true →
      RunsFrame (.write addr data) s (0x02 :: (encodeAddr addr s.aw ++ data)) 0 (fun _ t =>
        t.engineResult = some ⟨.ok, []⟩ ∧ t.response = none ∧ ChipWrote s t addr data)) ∧
    (∀ i, failsAt (3 + s.aw + data.length) i s.answers = true → EngineFails (.write addr data) s)

/-- R146: four bytes, no address phase whatever the width, returned uninterpreted; the chip is unchanged.
The engine's own port, with no lifecycle test, is notes/assumptions/2.md, and its result register
`engineResult` is notes/assumptions/14.md: both the model's choice. -/
def Obligations.RdidRunsItsFrame : Prop :=
  ∀ s,
    (okCalls 7 s.answers = true →
      RunsFrame .rdid s [0x9F] 4 (fun qs t => t.engineResult = some ⟨.ok, qs⟩ ∧ t.response = none ∧
        (s.chip.frame = none → chipCalls 7 s.answers = true → t.chip = s.chip))) ∧
    (∀ i, failsAt 7 i s.answers = true → EngineFails .rdid s)

/-! ## The eight operations: gate, result, failure

The gate's `StateError` (R160, R204) is the spec's own decision D10. -/

/-- R161, R160 (D10). -/
def Obligations.WriteEnableSendsWrenOrWrdi : Prop :=
  ∀ enable s,
    (s.lifecycle ≠ .ready → exec (.writeEnable enable) s = .next (answeredOnly .stateError s)) ∧
    (s.lifecycle = .ready → okCalls 3 s.answers = true →
      RunsFrame (.writeEnable enable) s [if enable then 0x06 else 0x04] 0 (fun _ t =>
        t.response = some { status := .ok } ∧ t.engineResult = none ∧
        (s.chip.frame = none → t.chip = { s.chip with wel := enable }))) ∧
    (s.lifecycle = .ready → ∀ i, failsAt 3 i s.answers = true → EndsInTransportError (.writeEnable enable) s)

/-- R162, R160 (D10): OK says the frame was sent, not that the byte was stored. -/
def Obligations.WriteByteSendsOneByte : Prop :=
  ∀ addr value s,
    (s.lifecycle ≠ .ready → exec (.writeByte addr value) s = .next (answeredOnly .stateError s)) ∧
    (s.lifecycle = .ready → okCalls (4 + s.aw) s.answers = true →
      RunsFrame (.writeByte addr value) s (0x02 :: (encodeAddr addr s.aw ++ [value])) 0 (fun _ t =>
        t.response = some { status := .ok } ∧ t.engineResult = none ∧ ChipWrote s t addr [value])) ∧
    (s.lifecycle = .ready → ∀ i, failsAt (4 + s.aw) i s.answers = true →
      EndsInTransportError (.writeByte addr value) s)

/-- R163, R160 (D10): the empty list included. -/
def Obligations.WriteBytesSendsTheBurst : Prop :=
  ∀ addr wbytes s,
    (s.lifecycle ≠ .ready → exec (.writeBytes addr wbytes) s = .next (answeredOnly .stateError s)) ∧
    (s.lifecycle = .ready → okCalls (3 + s.aw + wbytes.length) s.answers = true →
      RunsFrame (.writeBytes addr wbytes) s (0x02 :: (encodeAddr addr s.aw ++ wbytes)) 0 (fun _ t =>
        t.response = some { status := .ok } ∧ t.engineResult = none ∧ ChipWrote s t addr wbytes)) ∧
    (s.lifecycle = .ready → ∀ i, failsAt (3 + s.aw + wbytes.length) i s.answers = true →
      EndsInTransportError (.writeBytes addr wbytes) s)

/-- R164, R160 (D10). -/
def Obligations.ReadByteReturnsOneByte : Prop :=
  ∀ addr s,
    (s.lifecycle ≠ .ready → exec (.readByte addr) s = .next (answeredOnly .stateError s)) ∧
    (s.lifecycle = .ready → okCalls (4 + s.aw) s.answers = true →
      RunsFrame (.readByte addr) s (0x03 :: encodeAddr addr s.aw) 1 (fun qs t =>
        t.response = some { status := .ok, rbytes := some qs } ∧ t.engineResult = none ∧
        ChipWasRead s t (4 + s.aw) addr qs)) ∧
    (s.lifecycle = .ready → ∀ i, failsAt (4 + s.aw) i s.answers = true →
      EndsInTransportError (.readByte addr) s)

/-- R165, R160 (D10): `count = 0` included. -/
def Obligations.ReadBytesReturnsCountBytes : Prop :=
  ∀ addr count s,
    (s.lifecycle ≠ .ready → exec (.readBytes addr count) s = .next (answeredOnly .stateError s)) ∧
    (s.lifecycle = .ready → okCalls (3 + s.aw + count) s.answers = true →
      RunsFrame (.readBytes addr count) s (0x03 :: encodeAddr addr s.aw) count (fun qs t =>
        t.response = some { status := .ok, rbytes := some qs } ∧ t.engineResult = none ∧
        ChipWasRead s t (3 + s.aw + count) addr qs)) ∧
    (s.lifecycle = .ready → ∀ i, failsAt (3 + s.aw + count) i s.answers = true →
      EndsInTransportError (.readBytes addr count) s)

/-- R166 (D9), R160 (D10): byte 0, and bytes 2 and 3 joined with byte 2 high; byte 1 is discarded and nothing
is validated. -/
def Obligations.GetDeviceIdReturnsTheIdentity : Prop :=
  ∀ s,
    (s.lifecycle ≠ .ready → exec .getDeviceId s = .next (answeredOnly .stateError s)) ∧
    (s.lifecycle = .ready → okCalls 7 s.answers = true →
      RunsFrame .getDeviceId s [0x9F] 4 (fun qs t =>
        (∃ q0 q1 q2 q3, qs = [q0, q1, q2, q3] ∧
          t.response = some { status := .ok, mfr := some q0, prod := some (q2 ++ q3 : BitVec 16) }) ∧
        t.engineResult = none ∧
        (s.chip.frame = none → chipCalls 7 s.answers = true → t.chip = s.chip ∧ qs = s.chip.id.toList))) ∧
    (s.lifecycle = .ready → ∀ i, failsAt 7 i s.answers = true → EndsInTransportError .getDeviceId s)

/-- R167, R160 (D10); what the chip answers is the OPEN parameter `SrView` (R64, D22). -/
def Obligations.GetStatusReturnsTheStatusByte : Prop :=
  ∀ s,
    (s.lifecycle ≠ .ready → exec .getStatus s = .next (answeredOnly .stateError s)) ∧
    (s.lifecycle = .ready → okCalls 4 s.answers = true →
      RunsFrame .getStatus s [0x05] 1 (fun qs t =>
        t.response = some { status := .ok, rbytes := some qs } ∧ t.engineResult = none ∧
        (s.chip.frame = none → chipCalls 4 s.answers = true →
          t.chip = s.chip ∧ qs = [Config.srView s.chip.sr s.chip.wel]))) ∧
    (s.lifecycle = .ready → ∀ i, failsAt 4 i s.answers = true → EndsInTransportError .getStatus s)

/-- R168 (D16), R160 (D10), R65 (D22): the echo is received and not returned, whatever it is. -/
def Obligations.SetStatusDiscardsTheEcho : Prop :=
  ∀ value s,
    (s.lifecycle ≠ .ready → exec (.setStatus value) s = .next (answeredOnly .stateError s)) ∧
    (s.lifecycle = .ready → okCalls 5 s.answers = true →
      RunsFrame (.setStatus value) s [0x01, value] 1 (fun _ t =>
        t.response = some { status := .ok } ∧ t.engineResult = none ∧
        (s.chip.frame = none →
          t.chip = { s.chip with sr := if s.chip.wel then value else s.chip.sr, wel := false }))) ∧
    (s.lifecycle = .ready → ∀ i, failsAt 5 i s.answers = true → EndsInTransportError (.setStatus value) s)

/-- R107 (derived there): WRITE_BYTE and READ_BYTE have the trace, the response and the effect of their burst
forms of length one, on every answer of the transport. -/
def Obligations.ByteFormsAreBurstsOfOne : Prop :=
  ∀ s t u a v,
    (exec (.writeByte a v) s = .next t → exec (.writeBytes a [v]) s = .next u →
      t.trace = u.trace ∧ t.response = u.response ∧ t.chip = u.chip) ∧
    (exec (.readByte a) s = .next t → exec (.readBytes a 1) s = .next u →
      t.trace = u.trace ∧ t.response = u.response ∧ t.chip = u.chip)

/-! ## INIT -/

/-- R188 with R181, R184 to R187 (D8, D9, D10, D12): INIT outside `Uninitialized` is refused; from
`Uninitialized` with both handles and a legal width, all calls answered `ok`, it releases chip-select, reads
four bytes, writes the width, and ends in `Ready` if both identifiers are accepted. -/
def Obligations.InitEndsInReadyOnAnAcceptedIdentity : Prop :=
  ∀ (aw : BitVec 3) tp cp s,
    (s.lifecycle ≠ .uninitialized → exec (.init aw tp cp) s = .next (answeredOnly .stateError s)) ∧
    (s.lifecycle = .uninitialized → tp = true → cp = true → 1 ≤ aw.toNat → aw.toNat ≤ 4 →
      okCalls 8 s.answers = true →
      ∃ t q0 q1 q2 q3, exec (.init aw tp cp) s = .next t ∧
        OwnBytes 3 s.answers [q0, q1, q2, q3] ∧
        t.trace = s.trace ++ [.cs false] ++ frameEvents [0x9F] [q0, q1, q2, q3] ∧
        t.aw = aw.toNat ∧ t.cs = false ∧ t.progress = s.progress ∧ t.inputs = s.inputs ∧
        t.engineResult = none ∧
        (q0 ∈ Config.mfrIds → (q2 ++ q3 : BitVec 16) ∈ Config.prodIds →
          t.lifecycle = .ready ∧ t.response = some { status := .ok }) ∧
        (s.chip.frame = none → chipCalls 8 s.answers = true →
          t.chip = s.chip ∧ [q0, q1, q2, q3] = s.chip.id.toList))

/-- R201: a missing handle or a width outside {1, 2, 3, 4}, with no transport call made; the width is not
written. -/
def Obligations.InitRaisesConfigurationError : Prop :=
  ∀ (aw : BitVec 3) tp cp s, s.lifecycle = .uninitialized →
    (tp = false ∨ cp = false ∨ aw.toNat = 0 ∨ 5 ≤ aw.toNat) →
    exec (.init aw tp cp) s = .next (answeredOnly .configurationError { s with lifecycle := .failed })

/-- R202: a complete RDID frame whose bytes fail the membership test; chip-select is released before;
GET_DEVICE_ID never raises it. The membership test is R186 with the spec's own D8, the join of bytes 2 and 3 is
D9, and the sets are parameters (notes/assumptions/24.md). -/
def Obligations.InitRaisesIdentityMismatchError : Prop :=
  (∀ (aw : BitVec 3) tp cp s, s.lifecycle = .uninitialized → tp = true → cp = true → 1 ≤ aw.toNat →
    aw.toNat ≤ 4 → okCalls 8 s.answers = true →
    ∃ t q0 q1 q2 q3, exec (.init aw tp cp) s = .next t ∧
      OwnBytes 3 s.answers [q0, q1, q2, q3] ∧
      t.trace = s.trace ++ [.cs false] ++ frameEvents [0x9F] [q0, q1, q2, q3] ∧ t.cs = false ∧
      (¬(q0 ∈ Config.mfrIds ∧ (q2 ++ q3 : BitVec 16) ∈ Config.prodIds) →
        t.lifecycle = .failed ∧ t.response = some { status := .identityMismatchError })) ∧
  (∀ s t r, exec .getDeviceId s = .next t → t.response = some r → r.status ≠ .identityMismatchError)

/-- R184, R185, R189 (D13): a transport failure at step 3 or in the identity frame ends INIT in `Failed` with
`TransportError`; at step 3 nothing more is called. -/
def Obligations.InitTransportFailureIsFinal : Prop :=
  ∀ (aw : BitVec 3) s, s.lifecycle = .uninitialized → 1 ≤ aw.toNat → aw.toNat ≤ 4 →
    (∀ arrived rest, s.answers = .fail arrived :: rest →
      ∃ t, exec (.init aw true true) s = .next t ∧ t.lifecycle = .failed ∧ t.cs = false ∧
        t.aw = aw.toNat ∧ t.response = some { status := .transportError } ∧
        t.trace = s.trace ++ [.fail (.cs false)]) ∧
    (∀ own rest i, s.answers = .ok own :: rest → failsAt 7 i rest = true →
      ∃ t, exec (.init aw true true) s = .next t ∧ t.lifecycle = .failed ∧ t.cs = false ∧
        t.aw = aw.toNat ∧ t.response = some { status := .transportError })

/-! ## All commands: what is reported, what is kept -/

/-- R206: the response of a command that ends has status OK if and only if it passed its tests, every
transport call answered `ok` and, for INIT, every check passed; a response with an error carries no data. The `Ready` test of an operation is the
spec's own D10 (R160, R204), INIT's tests are D6, D7 and D10, and the identity test is R186 with D8, D9 and the
parameters of notes/assumptions/24.md. -/
def Obligations.OkMeansEveryCallAnsweredOk : Prop :=
  ∀ i s t, exec i s = .next t → s.progress = none → t.progress = none →
    (isOperation i = true ∨ isInit i = true) →
    ∃ r evs, t.response = some r ∧ t.trace = s.trace ++ evs ∧
      (r.status ≠ .ok → r.rbytes = none ∧ r.mfr = none ∧ r.prod = none) ∧
      (isOperation i = true → (r.status = .ok ↔ s.lifecycle = .ready ∧ ∀ e ∈ evs, isFailEvent e = false)) ∧
      (∀ aw tp cp, i = .init aw tp cp → (r.status = .ok ↔
        s.lifecycle = .uninitialized ∧ tp = true ∧ cp = true ∧ 1 ≤ aw.toNat ∧ aw.toNat ≤ 4 ∧
          (∀ e ∈ evs, isFailEvent e = false) ∧ identityAccepted (evs.filterMap receivedByte) = true))

/-- R25, R251, U19 (the engine's own result register is notes/assumptions/14.md): a command either ends, with
exactly one result, or stays in progress waiting for an answer, with none. -/
def Obligations.EveryCommandEndsOrWaits : Prop :=
  ∀ i s t, s.progress = none → exec i s = .next t →
    (∃ p, t.progress = some p ∧ p.instr = i ∧ p.waiting = true ∧ t.response = none ∧ t.engineResult = none) ∨
    (t.progress = none ∧ (isOperation i = true ∨ isInit i = true) ∧ (∃ r, t.response = some r) ∧
      t.engineResult = none) ∨
    (t.progress = none ∧ isOperation i = false ∧ isInit i = false ∧ t.response = none ∧
      ∃ r, t.engineResult = some r)

/-- R160, R209: no instruction but INIT changes the lifecycle or the width, on any answer; one that ends
leaves chip-select inactive, or as it was when it was refused; no instruction changes the coming host events
or the chip's constants. -/
def Obligations.OnlyInitChangesLifecycleOrWidth : Prop :=
  ∀ i s t, exec i s = .next t →
    t.inputs = s.inputs ∧ t.chip.id = s.chip.id ∧ t.chip.addrBytes = s.chip.addrBytes ∧
    (isInit i = false → t.lifecycle = s.lifecycle ∧ t.aw = s.aw ∧
      (t.progress = none → t.cs = false ∨ (isOperation i = true ∧ s.lifecycle ≠ .ready ∧ t.cs = s.cs)))

/-- R22, R209: INIT writes the width only from an accepted operand, and only from `Uninitialized`. -/
def Obligations.InitWritesOnlyALegalWidth : Prop :=
  ∀ (aw : BitVec 3) tp cp s t, exec (.init aw tp cp) s = .next t →
    (t.aw = s.aw ∨ (t.aw = aw.toNat ∧ 1 ≤ aw.toNat ∧ aw.toNat ≤ 4 ∧ s.lifecycle = .uninitialized)) ∧
    (s.lifecycle = .uninitialized → tp = true → cp = true → 1 ≤ aw.toNat → aw.toNat ≤ 4 → t.aw = aw.toNat)

/-! ## The reference chip -/

/-- R62, R63: what the closing edge of a WREN or WRDI frame does. -/
def Obligations.WrenAndWrdiFramesMoveTheLatch : Prop :=
  ∀ s,
    (s.chip.frame = some { tx := [0x06] } →
      (chipDeselected s).chip = { s.chip with wel := true, frame := none }) ∧
    (s.chip.frame = some { tx := [0x04] } →
      (chipDeselected s).chip = { s.chip with wel := false, frame := none })

/-- R66: in a READ frame whose address bytes are `A`, the `k`-th byte received is the array byte at
`AddrMap(a + k)`, and the frame changes nothing. -/
def Obligations.ReadFrameAnswersFromTheArray : Prop :=
  ∀ s A k, A.length = s.chip.addrBytes → s.chip.addrBytes = s.aw →
    s.chip.frame = some { tx := 0x03 :: A, nrx := k } →
    (∀ cell, addrMap (addrValue A + k) = some cell →
      chipSends none s = (s.chip.mem.read cell,
        { s with chip := { s.chip with frame := some { tx := 0x03 :: A, nrx := k + 1 } } })) ∧
    chipDeselected s = { s with chip := { s.chip with frame := none } }

/-- R67: at the closing edge of a WRITE frame the data goes to the array from the address upward if the latch
is set, a later byte for the same cell winning; otherwise the array is unchanged; then the latch is clear. -/
def Obligations.WriteFrameStoresTheBurst : Prop :=
  ∀ s A d, A.length = s.chip.addrBytes → s.chip.addrBytes = s.aw → s.chip.mem.wf = true →
    s.chip.frame = some { tx := 0x02 :: (A ++ d) } →
    (chipDeselected s).chip =
      { s.chip with mem := (chipDeselected s).chip.mem, wel := false, frame := none } ∧
    ∀ x, (chipDeselected s).chip.mem.read x = afterBurst s.chip (addrValue A) d x

/-- R68: in a RDID frame the bytes received are the identity in order, and the frame changes nothing. -/
def Obligations.RdidFrameAnswersTheIdentity : Prop :=
  ∀ s k, s.chip.frame = some { tx := [0x9F], nrx := k } →
    (∀ b, s.chip.id.toList[k]? = some b →
      chipSends none s = (b, { s with chip := { s.chip with frame := some { tx := [0x9F], nrx := k + 1 } } })) ∧
    (k = 4 → chipDeselected s = { s with chip := { s.chip with frame := none } })

/-- R64, R65, R69 (D20, D22): RDSR answers `SrView` and changes nothing; WRSR stores its byte if the latch is
set and clears the latch, whatever the echo. -/
def Obligations.StatusFramesReadAndWriteTheRegister : Prop :=
  ∀ s v,
    (s.chip.frame = some { tx := [0x05] } →
      chipSends none s = (Config.srView s.chip.sr s.chip.wel,
        { s with chip := { s.chip with frame := some { tx := [0x05], nrx := 1 } } })) ∧
    (s.chip.frame = some { tx := [0x05], nrx := 1 } →
      chipDeselected s = { s with chip := { s.chip with frame := none } }) ∧
    (s.chip.frame = some { tx := [0x01, v] } → ∀ b, (chipSends (some b) s).1 = b ∧
      (chipSends (some b) s).2.chip = { s.chip with frame := some { tx := [0x01, v], nrx := 1 } }) ∧
    (s.chip.frame = some { tx := [0x01, v], nrx := 1 } →
      (chipDeselected s).chip =
        { s.chip with sr := if s.chip.wel then v else s.chip.sr, wel := false, frame := none })

/-- R71, R60: no step changes the identity or the address length of the chip. -/
def Obligations.StepKeepsTheChipsConstants : Prop :=
  ∀ s t, step s = .next t → t.chip.id = s.chip.id ∧ t.chip.addrBytes = s.chip.addrBytes

/-- R72 (derived there; that a failed call may or may not reach the wire is R10, notes/assumptions/5.md):
when the selection fails without reaching the wire, the release that follows changes nothing in the chip. -/
def Obligations.FailedSelectionLeavesTheChip : Prop :=
  ∀ i s t own rest, s.lifecycle = .ready → s.chip.frame = none → isOperation i = true →
    s.answers = .fail false :: .ok own :: rest → exec i s = .next t →
    t.chip = s.chip ∧ t.trace = s.trace ++ [.fail (.cs true), .cs false] ∧
      t.response = some { status := .transportError }

/-- R73, R232 (D20): power-on of the chip keeps the array and the identity, sets the latch to `WEL_RESET`, and
leaves the block as it was. -/
def Obligations.ChipPowerOnKeepsTheArray : Prop :=
  ∀ s, s.chip.frame = none →
    chipPoweredOn s = { s with draws := s.draws + 1, chip := { s.chip with
      wel := Config.welReset, sr := (chipPoweredOn s).chip.sr } }

/-- The canonical form (notes/assumptions/10.md): two canonical arrays that read alike are the same data. -/
def Obligations.CanonicalArraysThatReadAlikeAreEqual : Prop :=
  ∀ m m' : Memory, m.wf = true → m'.wf = true → (∀ x, m.read x = m'.read x) → m = m'

/-! ## Whole commands against the reference chip -/

/-- R171 (derived there): the three round trips, every address touched inside the array. -/
def Obligations.RoundTripsReturnWhatWasWritten : Prop :=
  ∀ s a d v, s.lifecycle = .ready → ChipReady s → s.chip.mem.wf = true →
    (a + d.length ≤ Config.memSize → chipCalls (3 + 2 * (3 + s.aw + d.length)) s.answers = true →
      ∃ t u w, exec (.writeEnable true) s = .next t ∧ exec (.writeBytes a d) t = .next u ∧
        exec (.readBytes a d.length) u = .next w ∧
        w.response = some { status := .ok, rbytes := some d }) ∧
    (a < Config.memSize → chipCalls (3 + 2 * (4 + s.aw)) s.answers = true →
      (∃ t u w, exec (.writeEnable true) s = .next t ∧ exec (.writeByte a v) t = .next u ∧
        exec (.readByte a) u = .next w ∧ w.response = some { status := .ok, rbytes := some [v] }) ∧
      (∃ t u w, exec (.writeEnable false) s = .next t ∧ exec (.writeByte a v) t = .next u ∧
        exec (.readByte a) u = .next w ∧
        w.response = some { status := .ok, rbytes := some [s.chip.mem.read (a % 2 ^ (8 * s.aw))] }))

/-- R240, R69 (D20): one WRITE_ENABLE serves one write: a read in between keeps the latch, the first write
uses it up, and the second write is answered OK and changes no byte. -/
def Obligations.OneWriteEnableServesOneWrite : Prop :=
  ∀ s a n b d c e, s.lifecycle = .ready → ChipReady s → s.chip.mem.wf = true →
    chipCalls (3 + (3 + s.aw + n) + (3 + s.aw + d.length) + (3 + s.aw + e.length)) s.answers = true →
    ∃ t₁ t₂ t₃ t₄, exec (.writeEnable true) s = .next t₁ ∧ exec (.readBytes a n) t₁ = .next t₂ ∧
      exec (.writeBytes b d) t₂ = .next t₃ ∧ exec (.writeBytes c e) t₃ = .next t₄ ∧
      t₂.chip.wel = true ∧ t₃.chip.wel = false ∧ t₄.response = some { status := .ok } ∧
      (∀ x, t₃.chip.mem.read x = (burstStores (b % 2 ^ (8 * s.aw)) d x).getD (s.chip.mem.read x)) ∧
      (∀ x, t₄.chip.mem.read x = t₃.chip.mem.read x)

/-- R57 (derived there): two equal reads with no write between them return equal bytes. -/
def Obligations.EqualReadsReturnEqualBytes : Prop :=
  ∀ s t u a n, s.lifecycle = .ready → ChipReady s →
    (∀ k, k < n → ∃ cell, addrMap (a % 2 ^ (8 * s.aw) + k) = some cell) →
    chipCalls (2 * (3 + s.aw + n)) s.answers = true →
    exec (.readBytes a n) s = .next t → exec (.readBytes a n) t = .next u → t.response = u.response

/-! ## Steps -/

/-- A step of the idle block runs the decoded request: presented, as one instruction; begun, as the start of
its call-by-call run (R11, R28, R136). -/
def Obligations.StepRunsTheDecodedRequest : Prop :=
  ∀ s r i rest, s.progress = none → decode s.aw r = .ok i →
    (s.inputs = .present r :: rest → step s = exec i { s with inputs := rest }) ∧
    (s.inputs = .begin r :: rest → step s = .next (beginInstr i { s with inputs := rest }))

/-- R205, R102, R208 (D11): a host code 0x9 to 0xF is answered `IllegalCommand` in every lifecycle state, with
no transport call and no other change. -/
def Obligations.ReservedCodesAreIllegal : Prop :=
  ∀ s c rest, s.progress = none → 9 ≤ c.cmd.toNat →
    (s.inputs = .present (.command c) :: rest ∨ s.inputs = .begin (.command c) :: rest) →
    step s = .next (answeredOnly .illegalCommand { s with inputs := rest })

/-- R242 (D23), R136, R251, R230, R231: a block with a command in progress makes its next call, refuses a
second request, stops when it waits for ever and the host does nothing, and can always be reset; an idle
block with no host event waits. -/
def Obligations.BusyBlockStepsByItsOwnCalls : Prop :=
  (∀ s p, s.progress = some p →
    (s.inputs = [] → p.waiting = false → step s = .next (tick p s)) ∧
    (s.inputs = [] → p.waiting = true → step s = .fault .transportNeverAnswers) ∧
    (∀ r rest, (s.inputs = .present r :: rest ∨ s.inputs = .begin r :: rest) → step s = .refused .busy)) ∧
  (∀ s rest, s.inputs = .reset :: rest → step s = .next (hardwareReset { s with inputs := rest })) ∧
  (∀ s, s.progress = none → s.inputs = [] → step s = .next s)

/-- R251 (derived there), R214, U19: an operation one of whose calls is never answered stays in progress with
no response, and no further step exists until the host acts. -/
def Obligations.UnansweredCallHangsTheCommand : Prop :=
  ∀ i s k arrived, s.progress = none → s.lifecycle = .ready → isOperation i = true →
    k < frameCalls (invocation i) s.aw → okCalls k s.answers = true →
    s.answers[k]? = some (.never arrived) →
    ∃ t p, exec i s = .next t ∧ t.progress = some p ∧ p.instr = i ∧ p.waiting = true ∧ t.response = none ∧
      step { t with inputs := [] } = .fault .transportNeverAnswers

/-- R76, R10: a step only appends to the trace. -/
def Obligations.StepOnlyAppendsToTheTrace : Prop :=
  ∀ s t, step s = .next t → ∃ evs, t.trace = s.trace ++ evs

/-- R75, R10 (notes/assumptions/7.md): a byte of the environment's own that equals the chip's is the chip's
byte: the same byte is received and the same state is reached. -/
def Obligations.OwnByteEqualToTheChipsIsTheChipsByte : Prop :=
  ∀ s b, chipDrives s = some b → chipSends (some b) s = chipSends none s
end

