-- ==== Sys2Proof/Laws/Memory.lean ====
section
/-! SUPPORT. The array's operations: a read sees the last write, and the canonical form is kept. -/

namespace Sys2Proof.Machine

theorem Memory.read_write (m : Memory) (lo x y : Nat) (v : Byte) (h : Memory.wfFrom lo m = true) :
    Memory.read (Memory.write m x v) y = if x = y then v else Memory.read m y := by
  induction m generalizing lo with
  | nil => by_cases hv : v = Config.blankByte <;> by_cases hxy : x = y <;> simp_all [Memory.write, Memory.read]
  | cons c m ih =>
    obtain ⟨a, b⟩ := c
    simp only [Memory.wfFrom, Bool.and_eq_true, decide_eq_true_eq] at h
    obtain ⟨⟨⟨-, -⟩, -⟩, hm⟩ := h
    have below : ∀ lo z, Memory.wfFrom lo m = true → z < lo → Memory.read m z = Config.blankByte := by
      clear ih hm
      induction m with
      | nil => intros; rfl
      | cons d m ihm =>
        intro lo z hw hz
        simp only [Memory.wfFrom, Bool.and_eq_true, decide_eq_true_eq] at hw
        have : d.1 ≠ z := by omega
        simp only [Memory.read, this, if_false]
        exact ihm (d.1 + 1) z hw.2 (by omega)
    unfold Memory.write
    by_cases hlt : x < a
    · by_cases hv : v = Config.blankByte
      · by_cases hxy : x = y
        · subst hxy
          have : a ≠ x := by omega
          simp [hlt, hv, Memory.read, this, below (a + 1) x hm (by omega)]
        · simp [hlt, hv, hxy]
      · by_cases hxy : x = y
        · subst hxy
          simp [hlt, hv, Memory.read]
        · simp [hlt, hv, hxy, Memory.read]
    · by_cases hxa : x = a
      · subst hxa
        by_cases hv : v = Config.blankByte
        · by_cases hxy : x = y
          · subst hxy
            simp [hv, below (x + 1) x hm (by omega)]
          · simp [hv, hxy, Memory.read]
        · by_cases hxy : x = y <;> simp [hv, hxy, Memory.read]
      · by_cases hay : a = y
        · subst hay
          simp [hlt, hxa, Memory.read]
        · simp [hlt, hxa, Memory.read, hay, ih (a + 1) hm]

theorem Memory.write_wfFrom (m : Memory) (lo x : Nat) (v : Byte) (h : Memory.wfFrom lo m = true)
    (hlo : lo ≤ x) (hx : x < Config.memSize) : Memory.wfFrom lo (Memory.write m x v) = true := by
  induction m generalizing lo with
  | nil => by_cases hv : v = Config.blankByte <;> simp_all [Memory.write, Memory.wfFrom]
  | cons c m ih =>
    obtain ⟨a, b⟩ := c
    simp only [Memory.wfFrom, Bool.and_eq_true, decide_eq_true_eq] at h
    obtain ⟨⟨⟨hla, ha⟩, hb⟩, hm⟩ := h
    have weaken : ∀ lo', lo' ≤ a + 1 → Memory.wfFrom lo' m = true := by
      intro lo' hle
      cases m with
      | nil => rfl
      | cons d m =>
        simp only [Memory.wfFrom, Bool.and_eq_true, decide_eq_true_eq] at hm ⊢
        exact ⟨⟨⟨by omega, hm.1.1.2⟩, hm.1.2⟩, hm.2⟩
    unfold Memory.write
    by_cases hlt : x < a
    · by_cases hv : v = Config.blankByte
      · simp [hlt, hv, Memory.wfFrom, hla, ha, hb, hm]
      · simp only [hlt, hv, if_true, if_false, Memory.wfFrom, Bool.and_eq_true, decide_eq_true_eq]
        exact ⟨⟨⟨hlo, hx⟩, hv⟩, ⟨⟨by omega, ha⟩, hb⟩, hm⟩
    · by_cases hxa : x = a
      · subst hxa
        by_cases hv : v = Config.blankByte
        · simp [hv, weaken lo (by omega)]
        · simp [hv, Memory.wfFrom, hla, ha, hm]
      · simp only [hlt, hxa, if_false, Memory.wfFrom, Bool.and_eq_true, decide_eq_true_eq]
        exact ⟨⟨⟨hla, ha⟩, hb⟩, ih (a + 1) hm (by omega)⟩

theorem Memory.write_wf (m : Memory) (x : Nat) (v : Byte) (h : m.wf = true) (hx : x < Config.memSize) :
    (Memory.write m x v).wf = true := Memory.write_wfFrom m 0 x v h (Nat.zero_le _) hx

theorem addrMap_lt {x cell : Nat} (h : addrMap x = some cell) : cell < Config.memSize := by
  unfold addrMap at h
  split at h
  · simp_all
  · simp only [Option.map_eq_some_iff] at h
    obtain ⟨c, -, rfl⟩ := h
    exact c.isLt

theorem addrMap_of_lt {x : Nat} (h : x < Config.memSize) : addrMap x = some x := by simp [addrMap, h]

theorem Memory.writeBurst_wf (d : List Byte) (m : Memory) (a : Nat) (h : m.wf = true) :
    (Memory.writeBurst m a d).wf = true := by
  induction d generalizing m a with
  | nil => exact h
  | cons b bs ih =>
    unfold Memory.writeBurst
    apply ih
    cases hc : addrMap a with
    | none => exact h
    | some cell => exact Memory.write_wf m cell b h (addrMap_lt hc)

theorem Memory.ofCells_wf (cells : List (Nat × Byte)) : (Memory.ofCells cells).wf = true := by
  have go : ∀ (cs : List (Nat × Byte)) (m : Memory), m.wf = true →
      (cs.foldl (fun m c => if c.1 < Config.memSize then Memory.write m c.1 c.2 else m) m).wf = true := by
    intro cs
    induction cs with
    | nil => exact fun _ h => h
    | cons c cs ih =>
      intro m h
      apply ih
      by_cases hc : c.1 < Config.memSize
      · simpa [hc] using Memory.write_wf m c.1 c.2 h hc
      · simpa [hc] using h
  exact go cells [] rfl

theorem reset_mem_wf : State.reset.chip.mem.wf = true := rfl

end Sys2Proof.Machine
end

