-- ==== Sys2Proof/Laws/State.lean ====
section
/-! SUPPORT. One lemma per field per update of the state, so that no proof unfolds a record update. -/

namespace Sys2Proof.Machine

@[simp] theorem State.setLifecycle_lifecycle (s : State) (l : Lifecycle) : (s.setLifecycle l).lifecycle = l := rfl
@[simp] theorem State.setLifecycle_aw (s : State) (l : Lifecycle) : (s.setLifecycle l).aw = s.aw := rfl
@[simp] theorem State.setLifecycle_cs (s : State) (l : Lifecycle) : (s.setLifecycle l).cs = s.cs := rfl
@[simp] theorem State.setLifecycle_progress (s : State) (l : Lifecycle) : (s.setLifecycle l).progress = s.progress := rfl
@[simp] theorem State.setLifecycle_engineResult (s : State) (l : Lifecycle) : (s.setLifecycle l).engineResult = s.engineResult := rfl
@[simp] theorem State.setLifecycle_response (s : State) (l : Lifecycle) : (s.setLifecycle l).response = s.response := rfl
@[simp] theorem State.setLifecycle_trace (s : State) (l : Lifecycle) : (s.setLifecycle l).trace = s.trace := rfl
@[simp] theorem State.setLifecycle_chip (s : State) (l : Lifecycle) : (s.setLifecycle l).chip = s.chip := rfl
@[simp] theorem State.setLifecycle_inputs (s : State) (l : Lifecycle) : (s.setLifecycle l).inputs = s.inputs := rfl
@[simp] theorem State.setLifecycle_answers (s : State) (l : Lifecycle) : (s.setLifecycle l).answers = s.answers := rfl
@[simp] theorem State.setLifecycle_draws (s : State) (l : Lifecycle) : (s.setLifecycle l).draws = s.draws := rfl

@[simp] theorem State.setWidth_lifecycle (s : State) (w : Nat) : (s.setWidth w).lifecycle = s.lifecycle := rfl
@[simp] theorem State.setWidth_aw (s : State) (w : Nat) : (s.setWidth w).aw = w := rfl
@[simp] theorem State.setWidth_cs (s : State) (w : Nat) : (s.setWidth w).cs = s.cs := rfl
@[simp] theorem State.setWidth_progress (s : State) (w : Nat) : (s.setWidth w).progress = s.progress := rfl
@[simp] theorem State.setWidth_engineResult (s : State) (w : Nat) : (s.setWidth w).engineResult = s.engineResult := rfl
@[simp] theorem State.setWidth_response (s : State) (w : Nat) : (s.setWidth w).response = s.response := rfl
@[simp] theorem State.setWidth_trace (s : State) (w : Nat) : (s.setWidth w).trace = s.trace := rfl
@[simp] theorem State.setWidth_chip (s : State) (w : Nat) : (s.setWidth w).chip = s.chip := rfl
@[simp] theorem State.setWidth_inputs (s : State) (w : Nat) : (s.setWidth w).inputs = s.inputs := rfl
@[simp] theorem State.setWidth_answers (s : State) (w : Nat) : (s.setWidth w).answers = s.answers := rfl
@[simp] theorem State.setWidth_draws (s : State) (w : Nat) : (s.setWidth w).draws = s.draws := rfl

@[simp] theorem State.setCs_lifecycle (s : State) (a : Bool) : (s.setCs a).lifecycle = s.lifecycle := rfl
@[simp] theorem State.setCs_aw (s : State) (a : Bool) : (s.setCs a).aw = s.aw := rfl
@[simp] theorem State.setCs_cs (s : State) (a : Bool) : (s.setCs a).cs = a := rfl
@[simp] theorem State.setCs_progress (s : State) (a : Bool) : (s.setCs a).progress = s.progress := rfl
@[simp] theorem State.setCs_engineResult (s : State) (a : Bool) : (s.setCs a).engineResult = s.engineResult := rfl
@[simp] theorem State.setCs_response (s : State) (a : Bool) : (s.setCs a).response = s.response := rfl
@[simp] theorem State.setCs_trace (s : State) (a : Bool) : (s.setCs a).trace = s.trace := rfl
@[simp] theorem State.setCs_chip (s : State) (a : Bool) : (s.setCs a).chip = s.chip := rfl
@[simp] theorem State.setCs_inputs (s : State) (a : Bool) : (s.setCs a).inputs = s.inputs := rfl
@[simp] theorem State.setCs_answers (s : State) (a : Bool) : (s.setCs a).answers = s.answers := rfl
@[simp] theorem State.setCs_draws (s : State) (a : Bool) : (s.setCs a).draws = s.draws := rfl

@[simp] theorem State.setProgress_lifecycle (s : State) (p : Option Progress) : (s.setProgress p).lifecycle = s.lifecycle := rfl
@[simp] theorem State.setProgress_aw (s : State) (p : Option Progress) : (s.setProgress p).aw = s.aw := rfl
@[simp] theorem State.setProgress_cs (s : State) (p : Option Progress) : (s.setProgress p).cs = s.cs := rfl
@[simp] theorem State.setProgress_progress (s : State) (p : Option Progress) : (s.setProgress p).progress = p := rfl
@[simp] theorem State.setProgress_engineResult (s : State) (p : Option Progress) : (s.setProgress p).engineResult = s.engineResult := rfl
@[simp] theorem State.setProgress_response (s : State) (p : Option Progress) : (s.setProgress p).response = s.response := rfl
@[simp] theorem State.setProgress_trace (s : State) (p : Option Progress) : (s.setProgress p).trace = s.trace := rfl
@[simp] theorem State.setProgress_chip (s : State) (p : Option Progress) : (s.setProgress p).chip = s.chip := rfl
@[simp] theorem State.setProgress_inputs (s : State) (p : Option Progress) : (s.setProgress p).inputs = s.inputs := rfl
@[simp] theorem State.setProgress_answers (s : State) (p : Option Progress) : (s.setProgress p).answers = s.answers := rfl
@[simp] theorem State.setProgress_draws (s : State) (p : Option Progress) : (s.setProgress p).draws = s.draws := rfl

@[simp] theorem State.setEngineResult_lifecycle (s : State) (r : Option EngineResult) : (s.setEngineResult r).lifecycle = s.lifecycle := rfl
@[simp] theorem State.setEngineResult_aw (s : State) (r : Option EngineResult) : (s.setEngineResult r).aw = s.aw := rfl
@[simp] theorem State.setEngineResult_cs (s : State) (r : Option EngineResult) : (s.setEngineResult r).cs = s.cs := rfl
@[simp] theorem State.setEngineResult_progress (s : State) (r : Option EngineResult) : (s.setEngineResult r).progress = s.progress := rfl
@[simp] theorem State.setEngineResult_engineResult (s : State) (r : Option EngineResult) : (s.setEngineResult r).engineResult = r := rfl
@[simp] theorem State.setEngineResult_response (s : State) (r : Option EngineResult) : (s.setEngineResult r).response = s.response := rfl
@[simp] theorem State.setEngineResult_trace (s : State) (r : Option EngineResult) : (s.setEngineResult r).trace = s.trace := rfl
@[simp] theorem State.setEngineResult_chip (s : State) (r : Option EngineResult) : (s.setEngineResult r).chip = s.chip := rfl
@[simp] theorem State.setEngineResult_inputs (s : State) (r : Option EngineResult) : (s.setEngineResult r).inputs = s.inputs := rfl
@[simp] theorem State.setEngineResult_answers (s : State) (r : Option EngineResult) : (s.setEngineResult r).answers = s.answers := rfl
@[simp] theorem State.setEngineResult_draws (s : State) (r : Option EngineResult) : (s.setEngineResult r).draws = s.draws := rfl

@[simp] theorem State.setResponse_lifecycle (s : State) (r : Option Response) : (s.setResponse r).lifecycle = s.lifecycle := rfl
@[simp] theorem State.setResponse_aw (s : State) (r : Option Response) : (s.setResponse r).aw = s.aw := rfl
@[simp] theorem State.setResponse_cs (s : State) (r : Option Response) : (s.setResponse r).cs = s.cs := rfl
@[simp] theorem State.setResponse_progress (s : State) (r : Option Response) : (s.setResponse r).progress = s.progress := rfl
@[simp] theorem State.setResponse_engineResult (s : State) (r : Option Response) : (s.setResponse r).engineResult = s.engineResult := rfl
@[simp] theorem State.setResponse_response (s : State) (r : Option Response) : (s.setResponse r).response = r := rfl
@[simp] theorem State.setResponse_trace (s : State) (r : Option Response) : (s.setResponse r).trace = s.trace := rfl
@[simp] theorem State.setResponse_chip (s : State) (r : Option Response) : (s.setResponse r).chip = s.chip := rfl
@[simp] theorem State.setResponse_inputs (s : State) (r : Option Response) : (s.setResponse r).inputs = s.inputs := rfl
@[simp] theorem State.setResponse_answers (s : State) (r : Option Response) : (s.setResponse r).answers = s.answers := rfl
@[simp] theorem State.setResponse_draws (s : State) (r : Option Response) : (s.setResponse r).draws = s.draws := rfl

@[simp] theorem State.setChip_lifecycle (s : State) (c : Chip) : (s.setChip c).lifecycle = s.lifecycle := rfl
@[simp] theorem State.setChip_aw (s : State) (c : Chip) : (s.setChip c).aw = s.aw := rfl
@[simp] theorem State.setChip_cs (s : State) (c : Chip) : (s.setChip c).cs = s.cs := rfl
@[simp] theorem State.setChip_progress (s : State) (c : Chip) : (s.setChip c).progress = s.progress := rfl
@[simp] theorem State.setChip_engineResult (s : State) (c : Chip) : (s.setChip c).engineResult = s.engineResult := rfl
@[simp] theorem State.setChip_response (s : State) (c : Chip) : (s.setChip c).response = s.response := rfl
@[simp] theorem State.setChip_trace (s : State) (c : Chip) : (s.setChip c).trace = s.trace := rfl
@[simp] theorem State.setChip_chip (s : State) (c : Chip) : (s.setChip c).chip = c := rfl
@[simp] theorem State.setChip_inputs (s : State) (c : Chip) : (s.setChip c).inputs = s.inputs := rfl
@[simp] theorem State.setChip_answers (s : State) (c : Chip) : (s.setChip c).answers = s.answers := rfl
@[simp] theorem State.setChip_draws (s : State) (c : Chip) : (s.setChip c).draws = s.draws := rfl

@[simp] theorem State.setInputs_lifecycle (s : State) (es : List HostEvent) : (s.setInputs es).lifecycle = s.lifecycle := rfl
@[simp] theorem State.setInputs_aw (s : State) (es : List HostEvent) : (s.setInputs es).aw = s.aw := rfl
@[simp] theorem State.setInputs_cs (s : State) (es : List HostEvent) : (s.setInputs es).cs = s.cs := rfl
@[simp] theorem State.setInputs_progress (s : State) (es : List HostEvent) : (s.setInputs es).progress = s.progress := rfl
@[simp] theorem State.setInputs_engineResult (s : State) (es : List HostEvent) : (s.setInputs es).engineResult = s.engineResult := rfl
@[simp] theorem State.setInputs_response (s : State) (es : List HostEvent) : (s.setInputs es).response = s.response := rfl
@[simp] theorem State.setInputs_trace (s : State) (es : List HostEvent) : (s.setInputs es).trace = s.trace := rfl
@[simp] theorem State.setInputs_chip (s : State) (es : List HostEvent) : (s.setInputs es).chip = s.chip := rfl
@[simp] theorem State.setInputs_inputs (s : State) (es : List HostEvent) : (s.setInputs es).inputs = es := rfl
@[simp] theorem State.setInputs_answers (s : State) (es : List HostEvent) : (s.setInputs es).answers = s.answers := rfl
@[simp] theorem State.setInputs_draws (s : State) (es : List HostEvent) : (s.setInputs es).draws = s.draws := rfl

@[simp] theorem State.setAnswers_lifecycle (s : State) (as : List Answer) : (s.setAnswers as).lifecycle = s.lifecycle := rfl
@[simp] theorem State.setAnswers_aw (s : State) (as : List Answer) : (s.setAnswers as).aw = s.aw := rfl
@[simp] theorem State.setAnswers_cs (s : State) (as : List Answer) : (s.setAnswers as).cs = s.cs := rfl
@[simp] theorem State.setAnswers_progress (s : State) (as : List Answer) : (s.setAnswers as).progress = s.progress := rfl
@[simp] theorem State.setAnswers_engineResult (s : State) (as : List Answer) : (s.setAnswers as).engineResult = s.engineResult := rfl
@[simp] theorem State.setAnswers_response (s : State) (as : List Answer) : (s.setAnswers as).response = s.response := rfl
@[simp] theorem State.setAnswers_trace (s : State) (as : List Answer) : (s.setAnswers as).trace = s.trace := rfl
@[simp] theorem State.setAnswers_chip (s : State) (as : List Answer) : (s.setAnswers as).chip = s.chip := rfl
@[simp] theorem State.setAnswers_inputs (s : State) (as : List Answer) : (s.setAnswers as).inputs = s.inputs := rfl
@[simp] theorem State.setAnswers_answers (s : State) (as : List Answer) : (s.setAnswers as).answers = as := rfl
@[simp] theorem State.setAnswers_draws (s : State) (as : List Answer) : (s.setAnswers as).draws = s.draws := rfl

@[simp] theorem State.log_lifecycle (s : State) (e : Ev) : (s.log e).lifecycle = s.lifecycle := rfl
@[simp] theorem State.log_aw (s : State) (e : Ev) : (s.log e).aw = s.aw := rfl
@[simp] theorem State.log_cs (s : State) (e : Ev) : (s.log e).cs = s.cs := rfl
@[simp] theorem State.log_progress (s : State) (e : Ev) : (s.log e).progress = s.progress := rfl
@[simp] theorem State.log_engineResult (s : State) (e : Ev) : (s.log e).engineResult = s.engineResult := rfl
@[simp] theorem State.log_response (s : State) (e : Ev) : (s.log e).response = s.response := rfl
@[simp] theorem State.log_trace (s : State) (e : Ev) : (s.log e).trace = s.trace ++ [e] := rfl
@[simp] theorem State.log_chip (s : State) (e : Ev) : (s.log e).chip = s.chip := rfl
@[simp] theorem State.log_inputs (s : State) (e : Ev) : (s.log e).inputs = s.inputs := rfl
@[simp] theorem State.log_answers (s : State) (e : Ev) : (s.log e).answers = s.answers := rfl
@[simp] theorem State.log_draws (s : State) (e : Ev) : (s.log e).draws = s.draws := rfl

@[simp] theorem State.drew_lifecycle (s : State) : s.drew.lifecycle = s.lifecycle := rfl
@[simp] theorem State.drew_aw (s : State) : s.drew.aw = s.aw := rfl
@[simp] theorem State.drew_cs (s : State) : s.drew.cs = s.cs := rfl
@[simp] theorem State.drew_progress (s : State) : s.drew.progress = s.progress := rfl
@[simp] theorem State.drew_engineResult (s : State) : s.drew.engineResult = s.engineResult := rfl
@[simp] theorem State.drew_response (s : State) : s.drew.response = s.response := rfl
@[simp] theorem State.drew_trace (s : State) : s.drew.trace = s.trace := rfl
@[simp] theorem State.drew_chip (s : State) : s.drew.chip = s.chip := rfl
@[simp] theorem State.drew_inputs (s : State) : s.drew.inputs = s.inputs := rfl
@[simp] theorem State.drew_answers (s : State) : s.drew.answers = s.answers := rfl
@[simp] theorem State.drew_draws (s : State) : s.drew.draws = s.draws + 1 := rfl

@[simp] theorem State.accept_lifecycle (s : State) : s.accept.lifecycle = s.lifecycle := rfl
@[simp] theorem State.accept_aw (s : State) : s.accept.aw = s.aw := rfl
@[simp] theorem State.accept_cs (s : State) : s.accept.cs = s.cs := rfl
@[simp] theorem State.accept_progress (s : State) : s.accept.progress = s.progress := rfl
@[simp] theorem State.accept_engineResult (s : State) : s.accept.engineResult = none := rfl
@[simp] theorem State.accept_response (s : State) : s.accept.response = none := rfl
@[simp] theorem State.accept_trace (s : State) : s.accept.trace = s.trace := rfl
@[simp] theorem State.accept_chip (s : State) : s.accept.chip = s.chip := rfl
@[simp] theorem State.accept_inputs (s : State) : s.accept.inputs = s.inputs := rfl
@[simp] theorem State.accept_answers (s : State) : s.accept.answers = s.answers := rfl
@[simp] theorem State.accept_draws (s : State) : s.accept.draws = s.draws := rfl

@[simp] theorem respond_lifecycle (r : Response) (s : State) : (respond r s).lifecycle = s.lifecycle := rfl
@[simp] theorem respond_aw (r : Response) (s : State) : (respond r s).aw = s.aw := rfl
@[simp] theorem respond_cs (r : Response) (s : State) : (respond r s).cs = s.cs := rfl
@[simp] theorem respond_progress (r : Response) (s : State) : (respond r s).progress = s.progress := rfl
@[simp] theorem respond_engineResult (r : Response) (s : State) : (respond r s).engineResult = s.engineResult := rfl
@[simp] theorem respond_response (r : Response) (s : State) : (respond r s).response = some r := rfl
@[simp] theorem respond_trace (r : Response) (s : State) : (respond r s).trace = s.trace := rfl
@[simp] theorem respond_chip (r : Response) (s : State) : (respond r s).chip = s.chip := rfl
@[simp] theorem respond_inputs (r : Response) (s : State) : (respond r s).inputs = s.inputs := rfl
@[simp] theorem respond_answers (r : Response) (s : State) : (respond r s).answers = s.answers := rfl
@[simp] theorem respond_draws (r : Response) (s : State) : (respond r s).draws = s.draws := rfl

@[simp] theorem respondError_lifecycle (e : Status) (s : State) : (respondError e s).lifecycle = s.lifecycle := rfl
@[simp] theorem respondError_aw (e : Status) (s : State) : (respondError e s).aw = s.aw := rfl
@[simp] theorem respondError_cs (e : Status) (s : State) : (respondError e s).cs = s.cs := rfl
@[simp] theorem respondError_progress (e : Status) (s : State) : (respondError e s).progress = s.progress := rfl
@[simp] theorem respondError_engineResult (e : Status) (s : State) : (respondError e s).engineResult = s.engineResult := rfl
@[simp] theorem respondError_response (e : Status) (s : State) : (respondError e s).response = some { status := e } := rfl
@[simp] theorem respondError_trace (e : Status) (s : State) : (respondError e s).trace = s.trace := rfl
@[simp] theorem respondError_chip (e : Status) (s : State) : (respondError e s).chip = s.chip := rfl
@[simp] theorem respondError_inputs (e : Status) (s : State) : (respondError e s).inputs = s.inputs := rfl
@[simp] theorem respondError_answers (e : Status) (s : State) : (respondError e s).answers = s.answers := rfl
@[simp] theorem respondError_draws (e : Status) (s : State) : (respondError e s).draws = s.draws := rfl

@[simp] theorem hang_lifecycle (p : Progress) (s : State) : (hang p s).lifecycle = s.lifecycle := rfl
@[simp] theorem hang_aw (p : Progress) (s : State) : (hang p s).aw = s.aw := rfl
@[simp] theorem hang_cs (p : Progress) (s : State) : (hang p s).cs = s.cs := rfl
@[simp] theorem hang_progress (p : Progress) (s : State) : (hang p s).progress = some { p with waiting := true } := rfl
@[simp] theorem hang_engineResult (p : Progress) (s : State) : (hang p s).engineResult = s.engineResult := rfl
@[simp] theorem hang_response (p : Progress) (s : State) : (hang p s).response = s.response := rfl
@[simp] theorem hang_trace (p : Progress) (s : State) : (hang p s).trace = s.trace := rfl
@[simp] theorem hang_chip (p : Progress) (s : State) : (hang p s).chip = s.chip := rfl
@[simp] theorem hang_inputs (p : Progress) (s : State) : (hang p s).inputs = s.inputs := rfl
@[simp] theorem hang_answers (p : Progress) (s : State) : (hang p s).answers = s.answers := rfl
@[simp] theorem hang_draws (p : Progress) (s : State) : (hang p s).draws = s.draws := rfl

@[simp] theorem initFail_lifecycle (e : Status) (s : State) : (initFail e s).lifecycle = .failed := rfl
@[simp] theorem initFail_aw (e : Status) (s : State) : (initFail e s).aw = s.aw := rfl
@[simp] theorem initFail_cs (e : Status) (s : State) : (initFail e s).cs = s.cs := rfl
@[simp] theorem initFail_progress (e : Status) (s : State) : (initFail e s).progress = s.progress := rfl
@[simp] theorem initFail_engineResult (e : Status) (s : State) : (initFail e s).engineResult = s.engineResult := rfl
@[simp] theorem initFail_response (e : Status) (s : State) : (initFail e s).response = some { status := e } := rfl
@[simp] theorem initFail_trace (e : Status) (s : State) : (initFail e s).trace = s.trace := rfl
@[simp] theorem initFail_chip (e : Status) (s : State) : (initFail e s).chip = s.chip := rfl
@[simp] theorem initFail_inputs (e : Status) (s : State) : (initFail e s).inputs = s.inputs := rfl
@[simp] theorem initFail_answers (e : Status) (s : State) : (initFail e s).answers = s.answers := rfl
@[simp] theorem initFail_draws (e : Status) (s : State) : (initFail e s).draws = s.draws := rfl

@[simp] theorem endEngine_lifecycle (r : EngineResult) (s : State) : (endEngine r s).lifecycle = s.lifecycle := rfl
@[simp] theorem endEngine_aw (r : EngineResult) (s : State) : (endEngine r s).aw = s.aw := rfl
@[simp] theorem endEngine_cs (r : EngineResult) (s : State) : (endEngine r s).cs = s.cs := rfl
@[simp] theorem endEngine_progress (r : EngineResult) (s : State) : (endEngine r s).progress = s.progress := rfl
@[simp] theorem endEngine_engineResult (r : EngineResult) (s : State) : (endEngine r s).engineResult = some r := rfl
@[simp] theorem endEngine_response (r : EngineResult) (s : State) : (endEngine r s).response = s.response := rfl
@[simp] theorem endEngine_trace (r : EngineResult) (s : State) : (endEngine r s).trace = s.trace := rfl
@[simp] theorem endEngine_chip (r : EngineResult) (s : State) : (endEngine r s).chip = s.chip := rfl
@[simp] theorem endEngine_inputs (r : EngineResult) (s : State) : (endEngine r s).inputs = s.inputs := rfl
@[simp] theorem endEngine_answers (r : EngineResult) (s : State) : (endEngine r s).answers = s.answers := rfl
@[simp] theorem endEngine_draws (r : EngineResult) (s : State) : (endEngine r s).draws = s.draws := rfl

end Sys2Proof.Machine
end

