-- ==== Sys2Proof/Laws/Chip.lean ====
section
/-! SUPPORT. What the chip's operations can do: they touch the chip and the counter of draws alone, keep the
chip's constants, and keep the array canonical. -/

namespace Sys2Proof.Machine

/-- `t` is `s` but for the chip and the counter of draws; constants and canonical form are kept. -/
structure ChipOnly (s t : State) : Prop where
  same : t = { s with chip := t.chip, draws := t.draws }
  id : t.chip.id = s.chip.id
  addrBytes : t.chip.addrBytes = s.chip.addrBytes
  wf : s.chip.mem.wf = true → t.chip.mem.wf = true

namespace ChipOnly

theorem refl (s : State) : ChipOnly s s := ⟨rfl, rfl, rfl, fun w => w⟩

theorem trans {s t u : State} (h : ChipOnly s t) (k : ChipOnly t u) : ChipOnly s u :=
  ⟨by rw [k.same, h.same], k.id.trans h.id, k.addrBytes.trans h.addrBytes, fun w => k.wf (h.wf w)⟩

variable {s t : State} (h : ChipOnly s t)
include h

theorem lifecycle : t.lifecycle = s.lifecycle := by rw [h.same]
theorem aw : t.aw = s.aw := by rw [h.same]
theorem cs : t.cs = s.cs := by rw [h.same]
theorem progress : t.progress = s.progress := by rw [h.same]
theorem engineResult : t.engineResult = s.engineResult := by rw [h.same]
theorem response : t.response = s.response := by rw [h.same]
theorem trace : t.trace = s.trace := by rw [h.same]
theorem inputs : t.inputs = s.inputs := by rw [h.same]
theorem answers : t.answers = s.answers := by rw [h.same]

end ChipOnly

theorem spoilFrame_chipOnly (s : State) : ChipOnly s (spoilFrame s) := ⟨rfl, rfl, rfl, id⟩

theorem chipUnspecified_chipOnly (s : State) : ChipOnly s (chipUnspecified s) :=
  ⟨rfl, rfl, rfl, fun _ => Memory.ofCells_wf _⟩

theorem chipSelected_chipOnly (s : State) : ChipOnly s (chipSelected s) := by
  unfold chipSelected
  split
  · exact ⟨rfl, rfl, rfl, id⟩
  · exact spoilFrame_chipOnly s

theorem chipEffect_keeps (c : Chip) (i : Instr) :
    (chipEffect c i).id = c.id ∧ (chipEffect c i).addrBytes = c.addrBytes ∧ (chipEffect c i).frame = c.frame ∧
      (c.mem.wf = true → (chipEffect c i).mem.wf = true) := by
  cases i with
  | write a d =>
    refine ⟨rfl, rfl, rfl, fun h => ?_⟩
    show (if c.wel then Memory.writeBurst c.mem a d else c.mem).wf = true
    split
    · exact Memory.writeBurst_wf d c.mem a h
    · exact h
  | _ => exact ⟨rfl, rfl, rfl, id⟩

theorem chipDeselected_chipOnly (s : State) : ChipOnly s (chipDeselected s) := by
  unfold chipDeselected
  split
  · exact ChipOnly.refl s
  · split
    · next i _ =>
      have k := chipEffect_keeps { s.chip with frame := none } i
      exact ⟨rfl, k.1, k.2.1, k.2.2.2⟩
    · exact chipUnspecified_chipOnly s

theorem chipEdge_chipOnly (a : Bool) (s : State) : ChipOnly s (chipEdge a s) := by
  cases a
  · exact chipDeselected_chipOnly s
  · exact chipSelected_chipOnly s

theorem chipGets_chipOnly (b : Byte) (s : State) : ChipOnly s (chipGets b s) := ⟨rfl, rfl, rfl, id⟩

theorem countReceived_chipOnly (s : State) : ChipOnly s (countReceived s) := ⟨rfl, rfl, rfl, id⟩

theorem drew_chipOnly (s : State) : ChipOnly s s.drew := ⟨rfl, rfl, rfl, id⟩

theorem chipSends_chipOnly (own : Option Byte) (s : State) : ChipOnly s (chipSends own s).2 := by
  unfold chipSends
  split
  · exact countReceived_chipOnly s
  · exact (countReceived_chipOnly s).trans (drew_chipOnly _)
  · exact countReceived_chipOnly s
  · split
    · exact countReceived_chipOnly s
    · exact (countReceived_chipOnly s).trans (spoilFrame_chipOnly _)

/-- A byte of the environment's own is the byte received (spec/00_scope.md R10). -/
theorem chipSends_own (b : Byte) (s : State) : (chipSends (some b) s).1 = b := by
  unfold chipSends; split <;> simp_all

theorem cutFrame_chipOnly (s : State) : ChipOnly s (cutFrame s) := by
  unfold cutFrame
  split
  · exact ChipOnly.refl s
  · exact chipUnspecified_chipOnly s

theorem chipPoweredOn_chipOnly (s : State) : ChipOnly s (chipPoweredOn s) :=
  ⟨rfl, rfl, rfl, id⟩

theorem chipAfterFailure_chipOnly (c : Call) (arrived : Bool) (s : State) :
    ChipOnly s (chipAfterFailure c arrived s) := by
  cases c with
  | cs a =>
    cases a <;> cases arrived <;> simp only [chipAfterFailure, if_true, if_false, Bool.false_eq_true]
    · exact spoilFrame_chipOnly s
    · exact (spoilFrame_chipOnly s).trans (chipDeselected_chipOnly _)
    · exact spoilFrame_chipOnly s
    · exact (chipSelected_chipOnly s).trans (spoilFrame_chipOnly _)
  | tx b => exact spoilFrame_chipOnly s
  | rx => exact spoilFrame_chipOnly s

end Sys2Proof.Machine
end

