-- ==== Sys2Proof/Laws/Transport.lean ====
section
/-! SUPPORT. Everything a transport call can do, said once. -/

namespace Sys2Proof.Machine

/-- The events of a call, given its reply (spec/00_scope.md R10). -/
def callEvents (c : Call) : Reply → List Ev
  | .ok qs =>
    match c with
    | .cs a => [.cs a]
    | .tx b => [.tx b]
    | .rx => qs.map .rx
  | .fail => [.fail c]
  | .never => []

/-- How many bytes an `ok` reply carries. -/
def receives : Call → Nat
  | .cs _ => 0
  | .tx _ => 0
  | .rx => 1

/-- What a call does to the block and what it leaves alone. -/
structure CallSpec (c : Call) (s : State) (r : Reply) (t : State) : Prop where
  lifecycle : t.lifecycle = s.lifecycle
  aw : t.aw = s.aw
  cs : t.cs = (requestLevel c s).cs
  progress : t.progress = s.progress
  engineResult : t.engineResult = s.engineResult
  response : t.response = s.response
  inputs : t.inputs = s.inputs
  trace : t.trace = s.trace ++ callEvents c r
  answers : t.answers = s.answers.tail
  id : t.chip.id = s.chip.id
  addrBytes : t.chip.addrBytes = s.chip.addrBytes
  wf : s.chip.mem.wf = true → t.chip.mem.wf = true
  count : ∀ qs, r = .ok qs → qs.length = receives c

theorem callSpec_of_chipOnly {c : Call} {s s' u t : State} {r : Reply} (hs : s' = requestLevel c s)
    (hu : u = { s' with answers := s.answers.tail, draws := u.draws }) (k : ChipOnly u t)
    (count : ∀ qs, r = .ok qs → qs.length = receives c) (evs : List Ev) (hev : evs = callEvents c r)
    {t' : State} (ht : t' = { t with trace := t.trace ++ evs }) : CallSpec c s r t' := by
  subst hs hev
  have h : ∀ {α} (f : State → α), (∀ a d, f { requestLevel c s with answers := a, draws := d } = f (requestLevel c s)) →
      f u = f (requestLevel c s) := fun f hf => by rw [hu]; exact hf _ _
  have hr : requestLevel c s = { s with cs := (requestLevel c s).cs } := by cases c <;> rfl
  have g : ∀ {α} (f : State → α), (∀ b, f { s with cs := b } = f s) → f (requestLevel c s) = f s :=
    fun f hf => by rw [hr]; exact hf _
  have ha : u.answers = s.answers.tail := by rw [hu]
  subst ht
  exact {
    lifecycle := k.lifecycle.trans ((h State.lifecycle fun _ _ => rfl).trans (g State.lifecycle fun _ => rfl))
    aw := k.aw.trans ((h State.aw fun _ _ => rfl).trans (g State.aw fun _ => rfl))
    cs := k.cs.trans (h State.cs fun _ _ => rfl)
    progress := k.progress.trans ((h State.progress fun _ _ => rfl).trans (g State.progress fun _ => rfl))
    engineResult := k.engineResult.trans ((h State.engineResult fun _ _ => rfl).trans (g State.engineResult fun _ => rfl))
    response := k.response.trans ((h State.response fun _ _ => rfl).trans (g State.response fun _ => rfl))
    inputs := k.inputs.trans ((h State.inputs fun _ _ => rfl).trans (g State.inputs fun _ => rfl))
    trace := congrArg (· ++ _) (k.trace.trans ((h State.trace fun _ _ => rfl).trans (g State.trace fun _ => rfl)))
    answers := k.answers.trans ha
    id := k.id.trans ((h (·.chip.id) fun _ _ => rfl).trans (g (·.chip.id) fun _ => rfl))
    addrBytes := k.addrBytes.trans ((h (·.chip.addrBytes) fun _ _ => rfl).trans (g (·.chip.addrBytes) fun _ => rfl))
    wf := fun w => k.wf (by rw [h (·.chip.mem) fun _ _ => rfl, g (·.chip.mem) fun _ => rfl]; exact w)
    count := count }

/-- The state a call works on: the level requested, the answer taken. -/
theorem takeAnswer_same (s : State) :
    (takeAnswer s).2 = { s with answers := s.answers.tail, draws := (takeAnswer s).2.draws } := by
  unfold takeAnswer
  split
  · next h => simp [State.setAnswers, h]
  · next h => simp [State.drew, h]

theorem requestLevel_answers (c : Call) (s : State) : (requestLevel c s).answers = s.answers := by cases c <;> rfl

/-- The spec of `doCall`: cite it instead of unfolding the call. -/
theorem doCall_spec (c : Call) (s : State) : CallSpec c s (doCall c s).1 (doCall c s).2 := by
  have hu := takeAnswer_same (requestLevel c s)
  rw [requestLevel_answers] at hu
  unfold doCall
  generalize takeAnswer (requestLevel c s) = r at hu
  obtain ⟨a, u⟩ := r
  cases a with
  | ok own =>
    cases c with
    | cs active =>
      exact callSpec_of_chipOnly rfl hu (chipEdge_chipOnly active u) (fun _ h => by cases h; rfl) _ rfl rfl
    | tx b => exact callSpec_of_chipOnly rfl hu (chipGets_chipOnly b u) (fun _ h => by cases h; rfl) _ rfl rfl
    | rx => exact callSpec_of_chipOnly rfl hu (chipSends_chipOnly own u) (fun _ h => by cases h; rfl) _ rfl rfl
  | fail arrived =>
    exact callSpec_of_chipOnly rfl hu (chipAfterFailure_chipOnly c arrived u) (fun _ h => by cases h) _ rfl rfl
  | never arrived =>
    exact callSpec_of_chipOnly (evs := []) rfl hu (chipAfterFailure_chipOnly c arrived u) (fun _ h => by cases h)
      rfl (by simp)

/-- A call answered `ok` from the list. -/
theorem doCall_ok {c : Call} {s : State} {own : Option Byte} {rest : List Answer} (h : s.answers = .ok own :: rest) :
    doCall c s = callOk c own ((requestLevel c s).setAnswers rest) := by
  have : takeAnswer (requestLevel c s) = (.ok own, (requestLevel c s).setAnswers rest) := by
    unfold takeAnswer; rw [requestLevel_answers, h]
  simp [doCall, this]

/-- A call answered `fail` from the list. -/
theorem doCall_fail {c : Call} {s : State} {arrived : Bool} {rest : List Answer}
    (h : s.answers = .fail arrived :: rest) : (doCall c s).1 = .fail := by
  have : takeAnswer (requestLevel c s) = (.fail arrived, (requestLevel c s).setAnswers rest) := by
    unfold takeAnswer; rw [requestLevel_answers, h]
  simp [doCall, this]

/-- A call that is never answered, from the list. -/
theorem doCall_never {c : Call} {s : State} {arrived : Bool} {rest : List Answer}
    (h : s.answers = .never arrived :: rest) : (doCall c s).1 = .never := by
  have : takeAnswer (requestLevel c s) = (.never arrived, (requestLevel c s).setAnswers rest) := by
    unfold takeAnswer; rw [requestLevel_answers, h]
  simp [doCall, this]

end Sys2Proof.Machine
end

