-- ==== Sys2Proof/Laws/Engine.lean ====
section
/-! SUPPORT. Transact as a fold over the calls of its frame, and what a run of calls can do: said once for
every run, for a run with no failure, and for a run that meets one. -/

namespace Sys2Proof.Machine

/-- A frame's calls before the release, each with its phase. -/
def planBytes (phase : Nat → Phase) : Nat → List Byte → List (Phase × Call)
  | _, [] => []
  | k, b :: bs => (phase k, .tx b) :: planBytes phase (k + 1) bs

def planReads : Nat → Nat → List (Phase × Call)
  | _, 0 => []
  | k, n + 1 => (.rd k, .rx) :: planReads (k + 1) n

def framePlan (v : Invocation) (aw : Nat) : List (Phase × Call) :=
  [(.sel, .cs true), (.opc, .tx v.d.op)] ++
    (if v.d.addressed then planBytes .adr 0 (encodeAddr v.addr aw) else []) ++
    planBytes .wr 0 v.wbytes ++ planReads 0 v.nread

def runCalls (l : List (Phase × Call)) (a : EngineRun) : EngineRun :=
  l.foldl (fun a pc => guarded pc.1 pc.2 a) a

@[simp] theorem runCalls_nil (a : EngineRun) : runCalls [] a = a := rfl
@[simp] theorem runCalls_cons (pc : Phase × Call) (l : List (Phase × Call)) (a : EngineRun) :
    runCalls (pc :: l) a = runCalls l (guarded pc.1 pc.2 a) := rfl
theorem runCalls_append (l m : List (Phase × Call)) (a : EngineRun) :
    runCalls (l ++ m) a = runCalls m (runCalls l a) := List.foldl_append ..

theorem sendBytes_eq (phase : Nat → Phase) (bs : List Byte) (k : Nat) (a : EngineRun) :
    sendBytes phase k bs a = runCalls (planBytes phase k bs) a := by
  induction bs generalizing k a with
  | nil => rfl
  | cons b bs ih => exact ih _ _

theorem receiveBytes_eq (n k : Nat) (a : EngineRun) : receiveBytes k n a = runCalls (planReads k n) a := by
  induction n generalizing k a with
  | zero => rfl
  | succ n ih => exact ih _ _

/-- Transact is its plan, then the release. -/
theorem transact_eq (v : Invocation) (s : State) :
    transact v s = release (runCalls (framePlan v s.aw) { st := s }) := by
  unfold transact framePlan
  simp only [sendBytes_eq, receiveBytes_eq]
  cases v.d.addressed <;> simp [runCalls_append]

theorem planBytes_calls (phase : Nat → Phase) (bs : List Byte) (k : Nat) :
    (planBytes phase k bs).map Prod.snd = bs.map .tx := by
  induction bs generalizing k with
  | nil => rfl
  | cons b bs ih => simp [planBytes, ih]

theorem planReads_calls (n k : Nat) : (planReads k n).map Prod.snd = List.replicate n .rx := by
  induction n generalizing k with
  | zero => rfl
  | succ n ih => simp [planReads, ih, List.replicate_succ]

theorem framePlan_calls (v : Invocation) (aw : Nat) :
    (framePlan v aw).map Prod.snd ++ [.cs false] = frameCallList v aw := by
  unfold framePlan frameCallList
  cases v.d.addressed <;> simp [planBytes_calls, planReads_calls]

@[simp] theorem encodeAddr_length (addr w : Nat) : (encodeAddr addr w).length = w := by
  induction w with
  | zero => rfl
  | succ w ih => simp [encodeAddr, ih]

theorem framePlan_length (v : Invocation) (aw : Nat) : (framePlan v aw).length + 1 = frameCalls v aw := by
  have h := congrArg List.length (framePlan_calls v aw)
  unfold frameCallList at h
  unfold frameCalls
  cases hd : v.d.addressed <;> simp [hd] at h ⊢ <;> omega

/-- What every run of calls keeps, whatever the answers. -/
structure RunKeeps (s : State) (t : State) : Prop where
  lifecycle : t.lifecycle = s.lifecycle
  aw : t.aw = s.aw
  progress : t.progress = s.progress
  engineResult : t.engineResult = s.engineResult
  response : t.response = s.response
  inputs : t.inputs = s.inputs
  id : t.chip.id = s.chip.id
  addrBytes : t.chip.addrBytes = s.chip.addrBytes
  wf : s.chip.mem.wf = true → t.chip.mem.wf = true

theorem RunKeeps.refl (s : State) : RunKeeps s s := ⟨rfl, rfl, rfl, rfl, rfl, rfl, rfl, rfl, fun w => w⟩

theorem RunKeeps.trans {s t u : State} (h : RunKeeps s t) (k : RunKeeps t u) : RunKeeps s u :=
  ⟨k.1.trans h.1, k.2.trans h.2, k.3.trans h.3, k.4.trans h.4, k.5.trans h.5, k.6.trans h.6, k.7.trans h.7,
    k.8.trans h.8, fun w => k.9 (h.9 w)⟩

theorem CallSpec.keeps {c : Call} {s t : State} {r : Reply} (h : CallSpec c s r t) : RunKeeps s t :=
  ⟨h.lifecycle, h.aw, h.progress, h.engineResult, h.response, h.inputs, h.id, h.addrBytes, h.wf⟩

/-- The three ways a call can be answered, with everything it does: cite it instead of unfolding `attempt`. -/
theorem attempt_cases (p : Phase) (c : Call) (a : EngineRun) :
    ∃ r t, doCall c a.st = (r, t) ∧ CallSpec c a.st r t ∧
      ((∃ qs, r = .ok qs ∧ attempt p c a = { a with st := t, rbytes := a.rbytes ++ qs }) ∨
        (r = .fail ∧ attempt p c a = { a with st := t, failed := true }) ∨
        (r = .never ∧ attempt p c a = { a with st := t, stuck := some p })) := by
  refine ⟨(doCall c a.st).1, (doCall c a.st).2, rfl, doCall_spec c a.st, ?_⟩
  unfold attempt
  generalize doCall c a.st = rt
  obtain ⟨r, t⟩ := rt
  cases r with
  | ok qs => exact .inl ⟨qs, rfl, rfl⟩
  | fail => exact .inr (.inl ⟨rfl, rfl⟩)
  | never => exact .inr (.inr ⟨rfl, rfl⟩)

theorem attempt_keeps (p : Phase) (c : Call) (a : EngineRun) : RunKeeps a.st (attempt p c a).st := by
  obtain ⟨r, t, -, h, ⟨qs, -, e⟩ | ⟨-, e⟩ | ⟨-, e⟩⟩ := attempt_cases p c a <;> rw [e] <;> exact h.keeps

theorem guarded_keeps (p : Phase) (c : Call) (a : EngineRun) : RunKeeps a.st (guarded p c a).st := by
  unfold guarded
  split
  · exact RunKeeps.refl _
  · exact attempt_keeps p c a

theorem runCalls_keeps (l : List (Phase × Call)) (a : EngineRun) : RunKeeps a.st (runCalls l a).st := by
  induction l generalizing a with
  | nil => exact RunKeeps.refl _
  | cons pc l ih => exact (guarded_keeps pc.1 pc.2 a).trans (ih _)

theorem release_keeps (a : EngineRun) : RunKeeps a.st (release a).st := by
  unfold release
  split
  · exact RunKeeps.refl _
  · exact attempt_keeps ..

/-- Whatever the answers, Transact keeps the lifecycle, the width, and everything but chip-select, the
trace, the chip and the answers. -/
theorem transact_keeps (v : Invocation) (s : State) : RunKeeps s (transact v s).st := by
  rw [transact_eq]
  exact (runCalls_keeps _ { st := s }).trans (release_keeps _)

/-- Chip-select is inactive after every run that ends (spec/41_transaction_engine.md R135). -/
theorem transact_cs (v : Invocation) (s : State) (h : (transact v s).stuck = none) : (transact v s).st.cs = false := by
  rw [transact_eq] at h ⊢
  unfold release at h ⊢
  split at h
  · next hs => simp [h] at hs
  · next hs =>
    simp only [hs, if_false, Bool.false_eq_true]
    obtain ⟨r, t, -, k, ⟨qs, -, e⟩ | ⟨-, e⟩ | ⟨-, e⟩⟩ :=
      attempt_cases .desel (.cs false) (runCalls (framePlan v s.aw) { st := s }) <;> rw [e] <;> exact k.cs

/-- The events of calls that are all answered `ok`, the received bytes taken from `qs` in order. -/
def okEvents : List Call → List Byte → List Ev
  | [], _ => []
  | .cs a :: l, qs => .cs a :: okEvents l qs
  | .tx b :: l, qs => .tx b :: okEvents l qs
  | .rx :: l, q :: qs => .rx q :: okEvents l qs
  | .rx :: _, [] => []

/-- The number of bytes a list of calls receives. -/
def rxCount (l : List Call) : Nat := l.countP (· == .rx)

theorem okEvents_tx (bs : List Byte) (l : List Call) (qs : List Byte) :
    okEvents (bs.map .tx ++ l) qs = bs.map .tx ++ okEvents l qs := by
  induction bs with
  | nil => rfl
  | cons b bs ih => simp [okEvents, ih]

theorem okEvents_rx (qs : List Byte) (l : List Call) :
    okEvents (List.replicate qs.length .rx ++ l) qs = qs.map .rx ++ okEvents l [] := by
  induction qs with
  | nil => rfl
  | cons q qs ih => simp [okEvents, ih, List.replicate_succ]

theorem okEvents_frame (v : Invocation) (aw : Nat) (qs : List Byte) (h : qs.length = v.nread) :
    okEvents (frameCallList v aw) qs = frameEvents (transmitted v aw) qs := by
  unfold frameCallList frameEvents transmitted
  rw [← h]
  cases v.d.addressed <;>
    simp [okEvents, okEvents_tx, okEvents_rx, List.append_assoc]

theorem rxCount_frame (v : Invocation) (aw : Nat) : rxCount (frameCallList v aw) = v.nread := by
  unfold rxCount frameCallList
  have tx : ∀ bs : List Byte, (bs.map Call.tx).countP (· == .rx) = 0 := by
    intro bs
    simp [List.countP_eq_zero]
  cases v.d.addressed <;> simp [List.countP_append, List.countP_replicate, tx]

theorem okEvents_cons {c : Call} {l : List Call} {qs qs' : List Byte} (h : qs.length = receives c) :
    okEvents (c :: l) (qs ++ qs') = callEvents c (.ok qs) ++ okEvents l qs' := by
  cases c with
  | cs a => rw [List.length_eq_zero_iff.mp h]; rfl
  | tx b => rw [List.length_eq_zero_iff.mp h]; rfl
  | rx =>
    obtain ⟨q, rfl⟩ := List.length_eq_one_iff.mp h
    rfl

theorem rxCount_cons (c : Call) (l : List Call) : rxCount (c :: l) = receives c + rxCount l := by
  cases c <;> simp [rxCount, receives, Nat.add_comm]

/-- A guarded call whose answer stands in the list as `ok`. -/
theorem guarded_ok {p : Phase} {c : Call} {a : EngineRun} {own : Option Byte} {rest : List Answer}
    (hf : a.failed = false) (hs : a.stuck = none) (h : a.st.answers = .ok own :: rest) :
    ∃ qs t, doCall c a.st = (.ok qs, t) ∧ CallSpec c a.st (.ok qs) t ∧
      guarded p c a = { a with st := t, rbytes := a.rbytes ++ qs } ∧
      (c = .rx → ∀ b, own = some b → qs = [b]) := by
  obtain ⟨r, t, e, k, ⟨qs, rfl, g⟩ | ⟨rfl, -⟩ | ⟨rfl, -⟩⟩ := attempt_cases p c a
  · refine ⟨qs, t, e, k, by simpa [guarded, hf, hs] using g, ?_⟩
    rintro rfl b rfl
    rw [doCall_ok h] at e
    simp only [callOk, chipSends_own, Prod.mk.injEq, Reply.ok.injEq] at e
    exact e.1.symm
  · rw [doCall_ok h] at e
    cases c <;> simp [callOk] at e
  · rw [doCall_ok h] at e
    cases c <;> simp [callOk] at e

theorem okCalls_cons {n : Nat} {as : List Answer} (h : okCalls (n + 1) as = true) :
    ∃ own rest, as = .ok own :: rest ∧ okCalls n rest = true := by
  match as, h with
  | .ok own :: rest, h => exact ⟨own, rest, rfl, h⟩

/-- A run of calls all of whose answers are `ok`. -/
theorem runCalls_ok (l : List (Phase × Call)) (a : EngineRun) (hf : a.failed = false) (hs : a.stuck = none)
    (h : okCalls l.length a.st.answers = true) :
    ∃ qs, qs.length = rxCount (l.map Prod.snd) ∧ (runCalls l a).failed = false ∧ (runCalls l a).stuck = none ∧
      (runCalls l a).rbytes = a.rbytes ++ qs ∧
      (runCalls l a).st.trace = a.st.trace ++ okEvents (l.map Prod.snd) qs ∧
      (runCalls l a).st.answers = a.st.answers.drop l.length ∧
      (runCalls l a).st.cs = (l.map Prod.snd).foldl (fun b c => match c with | .cs x => x | _ => b) a.st.cs ∧
      (∀ m k, (l.map Prod.snd).drop m = List.replicate (l.length - m) .rx → m + k < l.length →
        rxCount ((l.map Prod.snd).take m) = 0 →
        ∀ b, a.st.answers[m + k]? = some (.ok (some b)) → qs[k]? = some b) := by
  induction l generalizing a with
  | nil => exact ⟨[], by simp [rxCount, hf, hs, okEvents]⟩
  | cons pc l ih =>
    obtain ⟨p, c⟩ := pc
    obtain ⟨own, rest, ha, hr⟩ := okCalls_cons h
    obtain ⟨qs, t, -, k, e, hb⟩ := guarded_ok (p := p) (c := c) hf hs ha
    have ht : t.answers = rest := by rw [k.answers, ha]; rfl
    obtain ⟨qs', h1, h2, h3, h4, h5, h6, h7, h8⟩ := ih { a with st := t, rbytes := a.rbytes ++ qs } hf hs
      (by simpa [ht] using hr)
    have hq := k.count qs rfl
    refine ⟨qs ++ qs', ?_, ?_⟩
    · simp [rxCount_cons, h1, hq]
    · simp only [runCalls_cons, e, h2, h3, h4, h5, h6, h7, List.map_cons, okEvents_cons hq]
      refine ⟨trivial, trivial, by simp, ?_, by simp [ht, ha], ?_, ?_⟩
      · simp [k.trace]
      · cases c <;> simp [k.cs, requestLevel]
      · intro m j hd hj ht0 b hb'
        cases m with
        | zero =>
          simp only [List.drop_zero, Nat.sub_zero, List.length_cons, List.replicate_succ,
            List.cons.injEq] at hd
          obtain ⟨rfl, hd⟩ := hd
          cases j with
          | zero =>
            simp only [ha, Nat.zero_add, List.getElem?_cons_zero, Option.some.injEq, Answer.ok.injEq] at hb'
            rw [hb rfl b hb']
            rfl
          | succ j =>
            obtain ⟨q, rfl⟩ := List.length_eq_one_iff.mp hq
            have := h8 0 j (by simpa using hd) (by simp at hj; omega) (by simp [rxCount]) b
              (by simpa [ht, ha] using hb')
            simpa using this
        | succ m =>
          simp only [List.take_succ_cons, rxCount_cons] at ht0
          have hz : qs = [] := List.length_eq_zero_iff.mp (by omega)
          subst hz
          refine h8 m j (by simpa using hd) (by simp at hj; omega) (by omega) b ?_
          have : m + 1 + j = (m + j) + 1 := by omega
          rw [ha, this] at hb'
          simpa [ht] using hb'

theorem guarded_stopped {p : Phase} {c : Call} {a : EngineRun} (h : (a.failed || a.stuck.isSome) = true) :
    guarded p c a = a := by simp [guarded, h]

theorem runCalls_stopped (l : List (Phase × Call)) {a : EngineRun} (h : (a.failed || a.stuck.isSome) = true) :
    runCalls l a = a := by
  induction l with
  | nil => rfl
  | cons pc l ih => rw [runCalls_cons, guarded_stopped h, ih]

/-- An event is one of call `c`. -/
def eventOf (c : Call) (e : Ev) : Prop :=
  e = .fail c ∨
    match c with
    | .cs a => e = .cs a
    | .tx b => e = .tx b
    | .rx => ∃ q, e = .rx q

/-- What a run of calls that starts unfailed has appended to the trace, whatever the answers: event `k` is one
of call `k`; if no call failed and none is unanswered there is one for every call; the run has failed exactly
if there is a failure among them; the bytes received are those of the events. -/
structure RunTrace (l : List (Phase × Call)) (a b : EngineRun) (evs : List Ev) : Prop where
  trace : b.st.trace = a.st.trace ++ evs
  length : evs.length ≤ l.length
  aligned : ∀ (k : Nat) (e : Ev), evs[k]? = some e → ∃ c, (l.map Prod.snd)[k]? = some c ∧ eventOf c e
  whole : b.failed = false → b.stuck = none → evs.length = l.length
  good : b.failed = false → ∀ e ∈ evs, isFailEvent e = false
  bad : b.failed = true → ∃ e ∈ evs, isFailEvent e = true
  rbytes : b.rbytes = a.rbytes ++ evs.filterMap receivedByte
  first : b.stuck = none → l ≠ [] → evs ≠ []

theorem callEvents_ok_facts {c : Call} {qs : List Byte} (h : qs.length = receives c) :
    ∃ e, callEvents c (.ok qs) = [e] ∧ eventOf c e ∧ isFailEvent e = false ∧ [e].filterMap receivedByte = qs := by
  cases c with
  | cs a => exact ⟨.cs a, rfl, .inr rfl, rfl, by rw [List.length_eq_zero_iff.mp h]; rfl⟩
  | tx b => exact ⟨.tx b, rfl, .inr rfl, rfl, by rw [List.length_eq_zero_iff.mp h]; rfl⟩
  | rx =>
    obtain ⟨q, rfl⟩ := List.length_eq_one_iff.mp h
    exact ⟨.rx q, rfl, .inr ⟨q, rfl⟩, rfl, rfl⟩

theorem runCalls_trace (l : List (Phase × Call)) (a : EngineRun) (hf : a.failed = false) (hs : a.stuck = none) :
    ∃ evs, RunTrace l a (runCalls l a) evs := by
  induction l generalizing a with
  | nil => exact ⟨[], by constructor <;> simp [hf]⟩
  | cons pc l ih =>
    obtain ⟨p, c⟩ := pc
    have g : guarded p c a = attempt p c a := by simp [guarded, hf, hs]
    obtain ⟨r, t, -, k, ⟨qs, rfl, e⟩ | ⟨rfl, e⟩ | ⟨rfl, e⟩⟩ := attempt_cases p c a
    · obtain ⟨evs, h⟩ := ih { a with st := t, rbytes := a.rbytes ++ qs } hf hs
      obtain ⟨ev, h1, h2, h3, h4⟩ := callEvents_ok_facts (k.count qs rfl)
      have hr : runCalls ((p, c) :: l) a = runCalls l { a with st := t, rbytes := a.rbytes ++ qs } := by
        rw [runCalls_cons, g, e]
      rw [hr]
      refine ⟨ev :: evs, ?_, ?_, ?_, ?_, ?_, ?_, ?_, ?_⟩
      · rw [h.trace]; simp [k.trace, h1]
      · simpa using h.length
      · intro j e' hj
        cases j with
        | zero =>
          simp only [List.getElem?_cons_zero, Option.some.injEq] at hj
          exact ⟨c, by simp, hj ▸ h2⟩
        | succ j => simpa using h.aligned j e' (by simpa using hj)
      · intro x y; simpa using h.whole x y
      · intro x e' he'
        cases he' with
        | head => exact h3
        | tail _ m => exact h.good x e' m
      · intro x
        obtain ⟨e', m, b⟩ := h.bad x
        exact ⟨e', .tail _ m, b⟩
      · rw [h.rbytes, ← h4]; simp only [List.filterMap_cons, List.filterMap_nil]
        cases receivedByte ev <;> simp
      · simp
    · have hr : runCalls ((p, c) :: l) a = { a with st := t, failed := true } := by
        rw [runCalls_cons, g, e, runCalls_stopped l (by simp)]
      rw [hr]
      refine ⟨[.fail c], ?_, ?_, ?_, ?_, ?_, ?_, ?_, ?_⟩
      · simp [k.trace, callEvents]
      · simp
      · intro j e' hj
        cases j with
        | zero =>
          simp only [List.getElem?_cons_zero, Option.some.injEq] at hj
          exact ⟨c, by simp, .inl hj.symm⟩
        | succ j => simp at hj
      · simp
      · simp
      · intro; exact ⟨_, List.mem_singleton.mpr rfl, rfl⟩
      · simp [receivedByte]
      · simp
    · have hr : runCalls ((p, c) :: l) a = { a with st := t, stuck := some p } := by
        rw [runCalls_cons, g, e, runCalls_stopped l (by simp)]
      rw [hr]
      refine ⟨[], ?_, ?_, ?_, ?_, ?_, ?_, ?_, ?_⟩ <;> simp [k.trace, callEvents, hf]

theorem release_stuck {a : EngineRun} {p : Phase} (h : a.stuck = some p) : release a = a := by
  simp [release, h]

/-- What the release adds, whatever its answer. -/
theorem release_cases {a : EngineRun} (h : a.stuck = none) :
    ((release a).st.trace = a.st.trace ++ [.cs false] ∧ (release a).failed = a.failed ∧ (release a).stuck = none ∧
        (release a).rbytes = a.rbytes) ∨
      ((release a).st.trace = a.st.trace ++ [.fail (.cs false)] ∧ (release a).failed = true ∧
        (release a).stuck = none ∧ (release a).rbytes = a.rbytes) ∨
      ((release a).st.trace = a.st.trace ∧ (release a).failed = a.failed ∧ (release a).stuck = some .desel ∧
        (release a).rbytes = a.rbytes) := by
  have e : release a = attempt .desel (.cs false) a := by simp [release, h]
  rw [e]
  obtain ⟨r, t, -, k, ⟨qs, rfl, e⟩ | ⟨rfl, e⟩ | ⟨rfl, e⟩⟩ := attempt_cases .desel (.cs false) a
  · have := List.length_eq_zero_iff.mp (k.count qs rfl)
    subst this
    exact .inl (by simp [e, k.trace, callEvents, h])
  · exact .inr (.inl (by simp [e, k.trace, callEvents, h]))
  · exact .inr (.inr (by simp [e, k.trace, callEvents]))

end Sys2Proof.Machine
end

