-- ==== Sys2Proof/Laws/Exec.lean ====
section
/-! SUPPORT. Every instruction's meaning in one of three shapes, so that a claim over all instructions does
not unfold sixteen of them. -/

namespace Sys2Proof.Machine

/-- A wire opcode is one run of the engine. -/
theorem exec_wire (i : Instr) (s : State) (ho : isOperation i = false) (hi : isInit i = false) :
    exec i s = .next (runEngine i (invocation i) (ending i) s.accept) := by
  cases i <;> first | (simp [isInit] at hi; done) | (simp [isOperation] at ho; done) | rfl

/-- An operation in `Ready` is one run of the engine (spec/42_driver_operations.md R160). -/
theorem exec_operation (i : Instr) (s : State) (ho : isOperation i = true) (hl : s.lifecycle = .ready) :
    exec i s = .next (runEngine i (invocation i) (ending i) s.accept) := by
  cases i <;> simp [isOperation] at ho <;>
    simp [exec, execWriteEnable, execWriteByte, execWriteBytes, execReadByte, execReadBytes, execGetDeviceId,
      execGetStatus, execSetStatus, operation, hl, invocation, ending]

/-- An operation outside `Ready` is answered `StateError` and nothing else (R160). -/
theorem exec_operation_refused (i : Instr) (s : State) (ho : isOperation i = true) (hl : s.lifecycle ≠ .ready) :
    exec i s = .next (answeredOnly .stateError s) := by
  cases i <;> simp [isOperation] at ho <;>
    simp [exec, execWriteEnable, execWriteByte, execWriteBytes, execReadByte, execReadBytes, execGetDeviceId,
      execGetStatus, execSetStatus, operation, hl] <;> rfl

/-- The two ways an engine run ends. -/
theorem runEngine_cases (i : Instr) (v : Invocation) (k : EngineResult → State → State) (s : State) :
    (∃ p, (transact v s).stuck = some p ∧ runEngine i v k s =
      hang { instr := i, phase := p, rbytes := (transact v s).rbytes, failed := (transact v s).failed,
             waiting := true } (transact v s).st) ∨
    ((transact v s).stuck = none ∧
      runEngine i v k s = k (engineReturn (transact v s).failed (transact v s).rbytes) (transact v s).st) := by
  unfold runEngine
  cases h : (transact v s).stuck with
  | some p => exact .inl ⟨p, rfl, by simp [h]⟩
  | none => exact .inr ⟨rfl, by simp [h]⟩

/-- Every instruction is an operation, a wire opcode or INIT. -/
theorem instr_kinds (i : Instr) : (isOperation i = true ∧ isInit i = false) ∨
    (isOperation i = false ∧ isInit i = false) ∨ (isOperation i = false ∧ ∃ aw tp cp, i = .init aw tp cp) := by
  cases i <;> simp [isOperation, isInit]

/-- How an operation ends: with the result fields of its own, status OK. -/
theorem ending_operation (i : Instr) (h : isOperation i = true) :
    ∃ f, ending i = endOperation f ∧ ∀ rb, (f rb).status = .ok := by
  cases i <;> simp [isOperation] at h
  case getDeviceId => exact ⟨identityResult, rfl, fun _ => rfl⟩
  all_goals first | exact ⟨plainResult, rfl, fun _ => rfl⟩ | exact ⟨bytesResult, rfl, fun _ => rfl⟩

theorem ending_wire (i : Instr) (h : isOperation i = false) (h' : isInit i = false) : ending i = endEngine := by
  cases i <;> first | (simp [isInit] at h'; done) | (simp [isOperation] at h; done) | rfl

/-- An operation's ending writes the response alone. -/
theorem endOperation_keeps (f : List Byte → Response) (r : EngineResult) (s : State) :
    (endOperation f r s) = { s with response := (endOperation f r s).response } ∧
      ∃ x, (endOperation f r s).response = some x := by
  unfold endOperation; split <;> exact ⟨rfl, _, rfl⟩

/-- INIT's validation writes the response and the lifecycle alone. -/
theorem initValidate_keeps (r : EngineResult) (s : State) :
    (initValidate r s) = { s with
        response := (initValidate r s).response, lifecycle := (initValidate r s).lifecycle } ∧
       (∃ x, (initValidate r s).response = some x) ∧
      ((initValidate r s).lifecycle = .failed ∨ (initValidate r s).lifecycle = .ready) := by
  unfold initValidate; split
  · exact ⟨rfl, ⟨_, rfl⟩, .inl rfl⟩
  · split
    · exact ⟨rfl, ⟨_, rfl⟩, .inl rfl⟩
    · exact ⟨rfl, ⟨_, rfl⟩, .inr rfl⟩

/-- No ending makes a transport call. -/
theorem ending_facts (i : Instr) (r : EngineResult) (s : State) : (ending i r s).trace = s.trace ∧
    (ending i r s).chip = s.chip ∧ (ending i r s).inputs = s.inputs ∧ (ending i r s).aw = s.aw ∧
    (ending i r s).cs = s.cs ∧ (ending i r s).progress = s.progress := by
  rcases instr_kinds i with ⟨ho, hi⟩ | ⟨ho, hi⟩ | ⟨ho, aw, tp, cp, rfl⟩
  · obtain ⟨f, hf, -⟩ := ending_operation i ho
    rw [hf, (endOperation_keeps f r s).1]; simp
  · rw [ending_wire i ho hi]; simp
  · show (initValidate r s).trace = _ ∧ _
    rw [show ending (.init aw tp cp) = initValidate from rfl, (initValidate_keeps r s).1]; simp

theorem initRefusal_none {aw : BitVec 3} {tp cp : Bool} : initRefusal aw tp cp = none ↔ tp = true ∧
    cp = true ∧ 1 ≤ aw.toNat ∧ aw.toNat ≤ 4 := by
  unfold initRefusal legalWidth
  revert aw tp cp
  decide

/-- The ways INIT can go (spec/43_initialization.md R188). -/
theorem init_cases (aw : BitVec 3) (tp cp : Bool) (s : State) :
    (s.lifecycle ≠ .uninitialized ∧ initCommand aw tp cp s = respondError .stateError s) ∨
    (s.lifecycle = .uninitialized ∧ initRefusal aw tp cp = some .configurationError ∧
        initCommand aw tp cp s = initFail .configurationError s) ∨
    (s.lifecycle = .uninitialized ∧ initRefusal aw tp cp = none ∧
      ∃ r t, CallSpec (.cs false) (s.setWidth aw.toNat) r t ∧ doCall (.cs false)
          (s.setWidth aw.toNat) = (r, t) ∧
       ((r = .never ∧ initCommand aw tp cp s = hang
          { instr := .init aw tp cp, phase := .idleLevel, rbytes := [], failed := false, waiting := true } t) ∨
        (r = .fail ∧ initCommand aw tp cp s = initFail .transportError t) ∨
        (∃ qs, r = .ok qs ∧ initCommand aw tp cp s = runEngine (.init aw tp cp) ⟨descRdid, 0, [],
            Config.idLen⟩ initValidate t))) := by
  unfold initCommand
  by_cases hl : s.lifecycle = .uninitialized
  · right
    simp only [hl, ne_eq, not_true_eq_false, if_false]
    have : initRefusal aw tp cp = none ∨ initRefusal aw tp cp = some .configurationError := by
      unfold initRefusal; split <;> [exact .inr rfl; (split <;> [exact .inr rfl; exact .inl rfl])]
    rcases this with h | h
    · right
      refine ⟨trivial, h, (doCall (.cs false) (s.setWidth aw.toNat)).1, (doCall (.cs false)
          (s.setWidth aw.toNat)).2, doCall_spec _ _, rfl, ?_⟩
      simp only [h]
      rcases doCall (.cs false) (s.setWidth aw.toNat) with ⟨r, t⟩
      cases r with
      | ok qs => exact .inr (.inr ⟨qs, rfl, rfl⟩)
      | fail => exact .inr (.inl ⟨rfl, rfl⟩)
      | never => exact .inl ⟨rfl, rfl⟩
    · left; simp [h]
  · exact .inl ⟨hl, by simp [hl]⟩

end Sys2Proof.Machine
end

