-- ==== Sys2Proof/Laws/CallByCall.lean ====
section
/-! SUPPORT. The latched command is out of the transport's sight: a call does the same whatever command is in
progress. -/

namespace Sys2Proof.Machine

theorem chipDeselected_setProgress (s : State) (p) :
    chipDeselected (s.setProgress p) = (chipDeselected s).setProgress p := by
  unfold chipDeselected
  show (match s.chip.frame with | none => _ | some f => match frameMeaning s f with | some i => _ | none => _) = _
  cases h : s.chip.frame with
  | none => rfl
  | some f => simp only; cases frameMeaning s f <;> rfl

theorem chipSelected_setProgress (s : State) (p) :
    chipSelected (s.setProgress p) = (chipSelected s).setProgress p := by
  unfold chipSelected
  show (match s.chip.frame with | none => _ | some f => _) = _
  cases h : s.chip.frame <;> rfl

theorem chipSends_setProgress (o) (s : State) (p) : chipSends o (s.setProgress p) = ((chipSends o s).1,
    (chipSends o s).2.setProgress p) := by
  unfold chipSends
  have : chipDrives (s.setProgress p) = chipDrives s := rfl
  rw [this]
  rcases o with _ | b <;> rcases chipDrives s with _ | c <;> try rfl
  by_cases h : b = c <;> simp only [h, if_true, if_false] <;> rfl

theorem spoilFrame_setProgress (s : State) (p) :
    spoilFrame (s.setProgress p) = (spoilFrame s).setProgress p := rfl

theorem chipAfterFailure_setProgress (c : Call) (b) (s : State) (p) :
    chipAfterFailure c b (s.setProgress p) = (chipAfterFailure c b s).setProgress p := by
  cases c with
  | cs a => cases a <;> cases b <;> simp [chipAfterFailure, chipSelected_setProgress,
      spoilFrame_setProgress, chipDeselected_setProgress]
  | tx x => rfl
  | rx => rfl

/-- A call does the same whatever command is latched. -/
theorem doCall_setProgress (c : Call) (s : State) (p) : doCall c (s.setProgress p) = ((doCall c s).1,
    (doCall c s).2.setProgress p) := by
  have h1 : requestLevel c (s.setProgress p) = (requestLevel c s).setProgress p := by cases c <;> rfl
  have h2 : takeAnswer ((requestLevel c s).setProgress p) = ((takeAnswer (requestLevel c s)).1,
      (takeAnswer (requestLevel c s)).2.setProgress p) := by
    unfold takeAnswer
    show (match (requestLevel c s).answers with | a :: rest => _ | [] => _) = _
    cases (requestLevel c s).answers <;> rfl
  unfold doCall
  rw [h1, h2]
  generalize takeAnswer (requestLevel c s) = r
  obtain ⟨a, u⟩ := r
  cases a with
  | ok own =>
    cases c with
    | cs act => 
      simp only [callOk, chipEdge]
      cases act
      · simp [chipDeselected_setProgress]; rfl
      · simp [chipSelected_setProgress]; rfl
    | tx b => rfl
    | rx => simp only [callOk, chipSends_setProgress]; rfl
  | fail arr => simp only [chipAfterFailure_setProgress]; rfl
  | never arr => simp only [chipAfterFailure_setProgress]

theorem setProgress_none {s : State} (h : s.progress = none) : s.setProgress none = s := by
  cases s; simp only at h; subst h; rfl

end Sys2Proof.Machine
end

