-- ==== Sys2Proof/Laws/Encoder.lean ====
section
/-! SUPPORT. The Address Encoder and its reading back (spec/40_address_encoder.md R120, R121), and the join of a
product identifier (spec/30_encoding.md R95). -/

namespace Sys2Proof.Machine

/-- The value of the address bytes is the address modulo `256^w`. -/
theorem addrValue_encodeAddr (w addr : Nat) : addrValue (encodeAddr addr w) = addr % 256 ^ w := by
  have gen : ∀ w acc, (encodeAddr addr w).foldl (fun acc b => acc * 256 + b.toNat) acc = acc * 256 ^ w + addr % 256 ^ w := by
    intro w
    induction w with
    | zero => intro acc; simp [encodeAddr, Nat.mod_one]
    | succ w ih =>
      intro acc
      simp only [encodeAddr, List.foldl_cons, ih, BitVec.toNat_ofNat]
      have : addr >>> (8 * w) = addr / 256 ^ w := by
        rw [Nat.shiftRight_eq_div_pow, Nat.pow_mul]
      have m := Nat.mod_mul (x := addr) (a := 256 ^ w) (b := 256)
      rw [this, show (256:Nat) ^ (w+1) = 256 ^ w * 256 from Nat.pow_succ .., m]
      norm_num
      ring
  simpa [addrValue] using gen w 0

/-- Only the address modulo `256^w` reaches the wire. -/
theorem encodeAddr_congr (w a b : Nat) (h : a % 256 ^ w = b % 256 ^ w) : encodeAddr a w = encodeAddr b w := by
  induction w with
  | zero => rfl
  | succ w ih =>
    simp only [encodeAddr]
    have h1 : a % 256 ^ w = b % 256 ^ w := by
      have := congrArg (· % 256 ^ w) h
      simpa [Nat.pow_succ, Nat.mod_mul_right_mod] using this
    have h2 : a / 256 ^ w % 256 = b / 256 ^ w % 256 := by
      rw [Nat.pow_succ, Nat.mod_mul, Nat.mod_mul, h1] at h
      have : 0 < 256 ^ w := by positivity
      have := Nat.add_left_cancel h
      exact Nat.eq_of_mul_eq_mul_left (by positivity) this
    rw [ih h1]
    congr 1
    apply BitVec.eq_of_toNat_eq
    simp only [BitVec.toNat_ofNat, Nat.shiftRight_eq_div_pow, Nat.pow_mul]
    exact h2

/-- Reading address bytes and encoding them again gives them back. -/
theorem encodeAddr_addrValue (l : List Byte) : encodeAddr (addrValue l) l.length = l := by
  have val : ∀ (l : List Byte) acc,
      l.foldl (fun acc b => acc * 256 + b.toNat) acc = acc * 256 ^ l.length + addrValue l := by
    intro l
    induction l with
    | nil => intro acc; simp [addrValue]
    | cons b l ih =>
      intro acc
      simp only [List.foldl_cons, addrValue, List.length_cons]
      rw [ih, ih]
      simp only [addrValue]
      ring
  have lt : ∀ l : List Byte, addrValue l < 256 ^ l.length := by
    intro l
    induction l with
    | nil => simp [addrValue]
    | cons b l ih =>
      have : addrValue (b :: l) = b.toNat * 256 ^ l.length + addrValue l := by
        simp only [addrValue, List.foldl_cons]; rw [val]; simp [addrValue]
      rw [this, List.length_cons, Nat.pow_succ]
      have hb := b.isLt
      nlinarith
  induction l with
  | nil => rfl
  | cons b l ih =>
    have e : addrValue (b :: l) = b.toNat * 256 ^ l.length + addrValue l := by
      simp only [addrValue, List.foldl_cons]; rw [val]; simp [addrValue]
    simp only [List.length_cons, encodeAddr]
    congr 1
    · apply BitVec.eq_of_toNat_eq
      rw [BitVec.toNat_ofNat, Nat.shiftRight_eq_div_pow, Nat.pow_mul, e, Nat.add_comm,
          Nat.add_mul_div_right _ _ (by positivity), Nat.div_eq_of_lt (lt l)]
      have hb := b.isLt
      omega
    · rw [e]
      refine Eq.trans (encodeAddr_congr l.length _ (addrValue l) ?_) ih
      simp

theorem addrValue_lt (l : List Byte) : addrValue l < 256 ^ l.length := by
  have := addrValue_encodeAddr l.length (addrValue l)
  rw [encodeAddr_addrValue] at this
  rw [this]
  exact Nat.mod_lt _ (by positivity)

/-- Byte 2 is the high byte. -/
theorem joinProduct_eq : ∀ a b : Byte, joinProduct a b = (a ++ b : BitVec 16) := by
  intro a b
  unfold joinProduct
  apply BitVec.eq_of_toNat_eq
  simp only [BitVec.toNat_append, BitVec.toNat_or, BitVec.toNat_shiftLeft, BitVec.toNat_setWidth]
  have h1 := a.isLt; have h2 := b.isLt
  rw [Nat.mod_eq_of_lt (show b.toNat < 2^16 by omega), Nat.mod_eq_of_lt (show a.toNat < 2^16 by omega),
      Nat.mod_eq_of_lt]
  rw [Nat.shiftLeft_eq]; omega

end Sys2Proof.Machine
end

