-- ==== Sys2Proof/Laws/Frame.lean ====
section
/-! SUPPORT. What the reference chip sees of a frame in which every call is answered `ok`
(spec/20_memory.md R61 to R70): the bytes sent, the bytes it answers, the closing edge. -/

namespace Sys2Proof.Machine

theorem okCalls_add {m n : Nat} {as : List Answer} (h : okCalls (m + n) as = true) :
    okCalls m as = true ∧ okCalls n (as.drop m) = true := by
  induction m generalizing as with
  | zero => simpa [okCalls] using h
  | succ m ih =>
    rw [show m + 1 + n = (m + n) + 1 by omega] at h
    obtain ⟨own, rest, rfl, hr⟩ := okCalls_cons h
    simpa [okCalls] using ih hr

theorem okCalls_of_chipCalls {n : Nat} {as : List Answer} (h : chipCalls n as = true) :
    okCalls n as = true := by
  induction n generalizing as with
  | zero => rfl
  | succ n ih =>
    match as, h with
    | .ok none :: rest, h => exact ih h

theorem chipCalls_add {m n : Nat} {as : List Answer} (h : chipCalls (m + n) as = true) :
    chipCalls m as = true ∧ chipCalls n (as.drop m) = true := by
  induction m generalizing as with
  | zero => simpa [chipCalls] using h
  | succ m ih =>
    rw [show m + 1 + n = (m + n) + 1 by omega] at h
    match as, h with
    | .ok none :: rest, h => simpa [chipCalls] using ih h

/-- The state with the given frame open at the chip. -/
def withFrame (s : State) (f : ChipFrame) : State := { s with chip := { s.chip with frame := some f } }

/-- A part of a frame in which no call failed: after `n` calls it ends in `b`, with frame `f` open at the chip
and the bytes `qs` received. -/
structure FrameRun (a b : EngineRun) (f : ChipFrame) (qs : List Byte) (n : Nat) : Prop where
  failed : b.failed = false
  stuck : b.stuck = none
  rbytes : b.rbytes = a.rbytes ++ qs
  chip : b.st.chip = { a.st.chip with frame := some f }
  answers : b.st.answers = a.st.answers.drop n
  aw : b.st.aw = a.st.aw

theorem guarded_answered {p : Phase} {c : Call} {a : EngineRun} {own : Option Byte} {rest : List Answer}
    (hf : a.failed = false) (hs : a.stuck = none) (h : a.st.answers = .ok own :: rest) :
    guarded p c a = match callOk c own ((requestLevel c a.st).setAnswers rest) with
      | (.ok qs, t) => { a with st := t, rbytes := a.rbytes ++ qs }
      | (.fail, t) => { a with st := t, failed := true }
      | (.never, t) => { a with st := t, stuck := some p } := by
  cases c <;> simp [guarded, hf, hs, attempt, doCall_ok h, callOk]

/-- Bytes sent are added to the open frame. -/
theorem chip_sees_bytes (ph : Nat → Phase) (bs : List Byte) (k : Nat) (a : EngineRun) (p : List Byte)
    (hf : a.failed = false) (hs : a.stuck = none) (h : okCalls bs.length a.st.answers = true)
    (hc : a.st.chip.frame = some { tx := p }) :
    FrameRun a (runCalls (planBytes ph k bs) a) { tx := p ++ bs } [] bs.length := by
  induction bs generalizing k a p with
  | nil => exact ⟨hf, hs, by simp [planBytes], by simp [planBytes, ← hc], by simp [planBytes], rfl⟩
  | cons b bs ih =>
    obtain ⟨own, rest, ha, hr⟩ := okCalls_cons h
    have g := guarded_answered (p := ph k) (c := .tx b) hf hs ha
    simp only [callOk] at g
    have := ih (k+1) (guarded (ph k) (.tx b) a) (p ++ [b]) (by rw [g]; exact hf) (by rw [g]; exact hs)
        (by rw [g]; exact hr) (by rw [g]; simp [chipGets, requestLevel, hc])
    simp only [planBytes, runCalls_cons]
    obtain ⟨h1, h2, h3, h4, h5, h6⟩ := this
    refine ⟨h1, h2, ?_, ?_, ?_, ?_⟩
    · rw [h3, g]; simp
    · rw [h4, g]; simp [chipGets, requestLevel]
    · rw [h5, g, ha]; simp [chipGets]
    · rw [h6, g]; simp [chipGets, requestLevel]

/-- What the chip gives depends on the chip and the width alone. -/
theorem chipDrives_congr (s t : State) (h : s.chip = t.chip) (h' : s.aw = t.aw) :
    chipDrives s = chipDrives t := by
  unfold chipDrives; rw [h, h']

/-- Bytes received are counted in the open frame, and are the chip's where the environment gives none of its own. -/
theorem chip_answers_bytes (n : Nat) (k : Nat) (a : EngineRun) (p : List Byte)
    (hf : a.failed = false) (hs : a.stuck = none) (h : okCalls n a.st.answers = true)
    (hc : a.st.chip.frame = some { tx := p, nrx := k })
    (hd : chipCalls n a.st.answers = true ∨ ∀ j, j < n →
        chipDrives (withFrame a.st { tx := p, nrx := k + j }) = none) :
    ∃ qs, qs.length = n ∧ FrameRun a (runCalls (planReads k n) a) { tx := p, nrx := k + n } qs n ∧
      (chipCalls n a.st.answers = true → ∀ j b, j < n →
          chipDrives (withFrame a.st { tx := p, nrx := k + j }) = some b → qs[j]? = some b) := by
  induction n generalizing k a with
  | zero => exact ⟨[], rfl, ⟨hf, hs, by simp [planReads], by simp [planReads, ← hc], by simp [planReads],
      rfl⟩, by simp⟩
  | succ n ih =>
    obtain ⟨own, rest, ha, hr⟩ := okCalls_cons h
    have g := guarded_answered (p := .rd k) (c := .rx) hf hs ha
    have e0 : ((requestLevel .rx a.st).setAnswers rest).chip = a.st.chip := rfl
    have hdr : chipDrives ((requestLevel .rx a.st).setAnswers rest) = chipDrives (withFrame a.st { tx := p, nrx := k }) :=
      chipDrives_congr _ _ (by rw [e0]; simp [withFrame, ← hc]) rfl
    have key : ∃ q st, guarded (.rd k) .rx a = { a with st := st, rbytes := a.rbytes ++ [q] } ∧
        st.chip = { a.st.chip with frame := some { tx := p, nrx := k + 1 } } ∧ st.answers = rest ∧
        st.aw = a.st.aw ∧ (own = none → ∀ b, chipDrives (withFrame a.st { tx := p, nrx := k }) = some b →
        q = b) := by
      simp only [callOk] at g
      have fr : ∀ u : State, u.chip = a.st.chip →
          (countReceived u).chip = { a.st.chip with frame := some { tx := p, nrx := k + 1 } } := by
        intro u hu; simp [countReceived, hu, hc]
      cases hdv : chipDrives (withFrame a.st { tx := p, nrx := k }) with
      | none =>
        rw [hdv] at hdr
        cases own with
        | none =>
          rw [show chipSends none ((requestLevel .rx a.st).setAnswers rest) = _ from by unfold chipSends; rw [hdr]] at g
          exact ⟨_, _, g, by simpa using fr _ e0, rfl, rfl, by simp⟩
        | some b =>
          rw [show chipSends (some b) ((requestLevel .rx a.st).setAnswers rest) = _ from by unfold chipSends; rw [hdr]] at g
          exact ⟨_, _, g, by simpa using fr _ e0, rfl, rfl, by simp⟩
      | some b =>
        rw [hdv] at hdr
        cases own with
        | none =>
          rw [show chipSends none ((requestLevel .rx a.st).setAnswers rest) = _ from by unfold chipSends; rw [hdr]] at g
          exact ⟨_, _, g, by simpa using fr _ e0, rfl, rfl, by simp⟩
        | some b' =>
          exfalso
          rcases hd with hd | hd
          · rw [ha] at hd; simp [chipCalls] at hd
          · have := hd 0 (by omega); simp at this; rw [this] at hdv; cases hdv
    obtain ⟨q, st, hg, hch, han, haw, hq⟩ := key
    have wf : ∀ f, chipDrives (withFrame st f) = chipDrives (withFrame a.st f) :=
        fun f => chipDrives_congr _ _ (by simp [withFrame, hch]) (by simp [withFrame, haw])
    obtain ⟨qs, l1, l2, l3⟩ := ih (k+1) (guarded (.rd k) .rx a) (by rw [hg]; exact hf)
        (by rw [hg]; exact hs) (by rw [hg]; simpa [han] using hr) (by rw [hg]; simp [hch]) (by
      rw [hg]
      rcases hd with hd | hd
      · left; rw [ha] at hd; cases own <;> simp [chipCalls] at hd; simpa [han] using hd
      · right; intro j hj; rw [wf, show k + 1 + j = k + (j+1) by omega]; exact hd _ (by omega))
    obtain ⟨h1, h2, h3, h4, h5, h6⟩ := l2
    refine ⟨q :: qs, by simp [l1], ⟨h1, h2, ?_, ?_, ?_, ?_⟩, ?_⟩
    · simp only [planReads, runCalls_cons]; rw [h3, hg]; simp
    · simp only [planReads, runCalls_cons]; rw [h4, hg]; simp [hch]; omega
    · simp only [planReads, runCalls_cons]; rw [h5, hg, ha]; simp [han]
    · simp only [planReads, runCalls_cons]; rw [h6, hg]; simp [haw]
    · intro hcc j b hj hb
      rw [ha] at hcc
      cases own with
      | some x => simp [chipCalls] at hcc
      | none =>
        cases j with
        | zero => simp at hb ⊢; exact hq rfl b hb
        | succ j =>
          simp only [List.getElem?_cons_succ]
          refine l3 (by rw [hg]; simpa [han, chipCalls] using hcc) j b (by omega) ?_
          rw [hg, wf, show k + 1 + j = k + (j+1) by omega]; exact hb

/-- A whole frame with no failure, seen from a chip between frames: the release is the closing edge of exactly
the frame's bytes, and the bytes received are those the chip drives. -/
theorem chip_sees_frame (v : Invocation) (s : State) (h : okCalls (frameCalls v s.aw) s.answers = true)
    (hc : s.chip.frame = none)
    (hd : chipCalls (frameCalls v s.aw) s.answers = true ∨ ∀ j, j < v.nread →
        chipDrives (withFrame s { tx := transmitted v s.aw, nrx := j }) = none) :
    ∃ qs st, qs.length = v.nread ∧ (transact v s).rbytes = qs ∧
      st.chip = { s.chip with frame := some { tx := transmitted v s.aw, nrx := v.nread } } ∧ st.aw = s.aw ∧
      (transact v s).st.chip = (chipDeselected st).chip ∧
      (chipCalls (frameCalls v s.aw) s.answers = true → ∀ j b, j < v.nread →
          chipDrives (withFrame s { tx := transmitted v s.aw, nrx := j }) = some b → qs[j]? = some b) := by
  set A : List Byte := if v.d.addressed then encodeAddr v.addr s.aw else [] with hA
  have hT : transmitted v s.aw = v.d.op :: (A ++ v.wbytes) := by rw [hA]; rfl
  have hn : frameCalls v s.aw = 1 + (1 + (A.length + (v.wbytes.length + (v.nread + 1)))) := by
    unfold frameCalls; rw [hA]; cases v.d.addressed <;> simp <;> omega
  have hplan : framePlan v s.aw = (.sel, .cs true) :: planBytes (fun _ => .opc) 0 [v.d.op] ++
      planBytes .adr 0 A ++ planBytes .wr 0 v.wbytes ++ planReads 0 v.nread := by
    unfold framePlan; rw [hA]; cases v.d.addressed <;> simp [planBytes]
  rw [hn] at h
  have hd' := hd
  rw [hn] at hd'
  obtain ⟨o1, h⟩ := okCalls_add h
  obtain ⟨own, rest, ha, -⟩ := okCalls_cons (n := 0) o1
  obtain ⟨o2, h⟩ := okCalls_add h
  obtain ⟨o3, h⟩ := okCalls_add h
  obtain ⟨o4, h⟩ := okCalls_add h
  obtain ⟨o5, h⟩ := okCalls_add h
  obtain ⟨own', rest', ha', -⟩ := okCalls_cons (n := 0) h
  rw [transact_eq, hplan]
  simp only [List.cons_append, runCalls_cons, runCalls_append]
  set a0 : EngineRun := { st := s }
  have g := guarded_answered (p := .sel) (c := .cs true) (a := a0) rfl rfl ha
  simp only [callOk, chipEdge, if_true] at g
  set a1 := guarded .sel (.cs true) a0
  have c1 : a1.st.chip = { s.chip with frame := some { tx := [] } } := by
    rw [g]; simp [chipSelected, requestLevel, hc, a0]
  have s1 : a1.st.answers = s.answers.drop 1 := by rw [g, ha]; simp [chipSelected, requestLevel, hc, a0]
  have w1 : a1.st.aw = s.aw := by rw [g]; simp [chipSelected, requestLevel, hc, a0]
  have z1 := chip_sees_bytes (fun _ => .opc) [v.d.op] 0 a1 [] (by rw [g]) (by rw [g])
      (by rw [s1]; exact o2) (by rw [c1])
  set a2 := runCalls (planBytes (fun _ => Phase.opc) 0 [v.d.op]) a1
  have z2 := chip_sees_bytes .adr A 0 a2 [v.d.op] z1.failed z1.stuck (by rw [z1.answers, s1]; exact o3)
      (by rw [z1.chip]; rfl)
  set a3 := runCalls (planBytes Phase.adr 0 A) a2
  have z3 := chip_sees_bytes .wr v.wbytes 0 a3 ([v.d.op] ++ A) z2.failed z2.stuck
    (by rw [z2.answers, z1.answers, s1]; exact o4) (by rw [z2.chip])
  set a4 := runCalls (planBytes Phase.wr 0 v.wbytes) a3
  have c4 : a4.st.chip = { s.chip with frame := some { tx := transmitted v s.aw, nrx := 0 } } := by
    rw [z3.chip, z2.chip, z1.chip, c1, hT]; simp
  have w4 : a4.st.aw = s.aw := by rw [z3.aw, z2.aw, z1.aw, w1]
  have n4 : a4.st.answers = (((s.answers.drop 1).drop 1).drop A.length).drop v.wbytes.length :=
      by rw [z3.answers, z2.answers, z1.answers, s1]; rfl
  have wf : ∀ f, chipDrives (withFrame a4.st f) = chipDrives (withFrame s f) :=
      fun f => chipDrives_congr _ _ (by simp [withFrame, c4]) (by simp [withFrame, w4])
  have cc : chipCalls (1 + (1 + (A.length + (v.wbytes.length + (v.nread + 1))))) s.answers = true →
      chipCalls v.nread a4.st.answers = true := by
    intro x
    have x := (chipCalls_add x).2
    have x := (chipCalls_add x).2
    have x := (chipCalls_add x).2
    have x := (chipCalls_add x).2
    rw [n4]; exact (chipCalls_add x).1
  obtain ⟨qs, q1, z5, q3⟩ := chip_answers_bytes v.nread 0 a4 (transmitted v s.aw) z3.failed z3.stuck (by rw [n4]; exact o5) (by rw [c4]) (by
    rcases hd' with x | x
    · exact .inl (cc x)
    · right; intro j hj; rw [wf]; simpa using x j hj)
  set a5 := runCalls (planReads 0 v.nread) a4
  have hrel : release a5 = guarded .desel (.cs false) a5 := by simp [release, guarded, z5.failed, z5.stuck]
  have g5 := guarded_answered (p := .desel) (c := .cs false) (a :=
      a5) z5.failed z5.stuck (by rw [z5.answers, n4]; exact ha')
  rw [hrel, g5]
  simp only [callOk, chipEdge]
  refine ⟨qs, (requestLevel (.cs false) a5.st).setAnswers rest', q1, ?_, ?_, ?_, ?_, ?_⟩
  · have : a1.rbytes = [] := by rw [g]; rfl
    simp [z5.rbytes, z3.rbytes, z2.rbytes, z1.rbytes, this]
  · simp [requestLevel, z5.chip, c4]
  · simp [requestLevel, z5.aw, w4]
  · simp
  · rw [hn]
    intro x j b hj hb
    refine q3 (cc x) j b hj ?_
    rw [wf]; simpa using hb

/-- The closing edge of a well-formed frame. -/
theorem chipDeselected_chip {st : State} {c : Chip} {f : ChipFrame} {i : Instr} (h :
    st.chip = { c with frame := some f })
    (hm : frameMeaning st f = some i) : (chipDeselected st).chip = chipEffect { c with frame := none } i := by
  unfold chipDeselected
  simp [h, hm]

/-- The chip reads the address that reached the wire. -/
theorem frameMeaning_read (addr w n : Nat) (st : State) (h : st.chip.addrBytes = w) (h' : st.aw = w) :
    frameMeaning st { tx := 0x03 :: encodeAddr addr w, nrx := n } = some (.read (addr % 2 ^ (8 * w)) n) := by
  unfold frameMeaning decodeFrame
  rw [h, h']
  have : List.find? (fun d => d.op == (0x03 : Byte)) descriptors = some descRead := by decide
  simp only [this]
  have e := addrValue_encodeAddr w addr
  simp [descRead, DataLength.admits, instrOfFrame, descWren, descWrdi, descRdsr, descWrsr, addressBearing]
  rw [show encodeAddr addr w = (encodeAddr addr w).take w by rw [List.take_of_length_le]; simp] at e
  rw [e, show (256 : Nat) = 2 ^ 8 by rfl, ← Nat.pow_mul]

theorem frameMeaning_write (addr w : Nat) (d : List Byte) (st : State) (h : st.chip.addrBytes = w) (h' :
    st.aw = w) :
    frameMeaning st { tx := 0x02 :: (encodeAddr addr w ++ d), nrx := 0 } = some (.write (addr % 2 ^ (8 * w)) d) := by
  unfold frameMeaning decodeFrame
  rw [h, h']
  have : List.find? (fun d => d.op == (0x02 : Byte)) descriptors = some descWrite := by decide
  simp only [this]
  have e := addrValue_encodeAddr w addr
  have : (256 : Nat)^w = 2 ^ (8*w) := by rw [show (256 : Nat) = 2 ^ 8 by rfl, ← Nat.pow_mul]
  simp [descWrite, descRead, DataLength.admits, instrOfFrame, descWren, descWrdi, descRdsr, descWrsr,
      addressBearing, e, this]

/-- Every byte of the array after a burst. -/
theorem Memory.read_writeBurst (d : List Byte) (m : Memory) (a : Nat) (h : m.wf = true) (x : Nat) :
    (Memory.writeBurst m a d).read x = (burstStores a d x).getD (m.read x) := by
  induction d generalizing m a with
  | nil => rfl
  | cons b bs ih =>
    unfold Memory.writeBurst burstStores
    cases hc : addrMap a with
    | none => simp [ih m (a+1) h]
    | some cell =>
      simp only [ih _ (a+1) (Memory.write_wf m cell b h (addrMap_lt hc)), Memory.read_write m 0 cell x b h]
      cases burstStores (a + 1) bs x <;> by_cases hx : cell = x <;> simp [hx]

end Sys2Proof.Machine
end

