-- ==== Sys2Proof/Laws/PerInstr.lean ====
section
/-! SUPPORT. Families of statements made of every instruction. -/

namespace Sys2Proof.Laws.EncodedShape

open Sys2Proof.Machine

/-- An instruction's encoding agrees with the operands its frame is run with: a frame starts with the opcode,
has the bytes of the opcode, the address phase and the data, and receives as many bytes as the engine reads
(spec/30_encoding.md R91, R96); a host command has a code that is not reserved (R100, R102). -/
def Statement (i : Instr) : Prop :=
  ∀ w, match encode w i with
    | .frame tx nrx =>
      tx.head? = some (invocation i).d.op ∧ nrx = (invocation i).nread ∧
        tx.length = 1 + (if (invocation i).d.addressed then w else 0) + (invocation i).wbytes.length
    | .command c => c.cmd.toNat ≤ 8

theorem wren : Statement .wren := fun _ => ⟨rfl, rfl, rfl⟩
theorem wrdi : Statement .wrdi := fun _ => ⟨rfl, rfl, rfl⟩
theorem rdsr : Statement .rdsr := fun _ => ⟨rfl, rfl, rfl⟩
theorem wrsr (v : Byte) : Statement (.wrsr v) := fun _ => ⟨rfl, rfl, rfl⟩
theorem read (addr n : Nat) : Statement (.read addr n) := fun w =>
  ⟨rfl, rfl, by simp [invocation, descRead, Nat.add_comm]⟩
theorem write (addr : Nat) (data : List Byte) : Statement (.write addr data) := fun w =>
  ⟨rfl, rfl, by simp [invocation, descWrite]; omega⟩
theorem rdid : Statement .rdid := fun _ => ⟨rfl, rfl, rfl⟩
theorem init (aw : BitVec 3) (tp cp : Bool) : Statement (.init aw tp cp) := fun _ => (by decide : (0 : Nat) ≤ 8)
theorem writeEnable (enable : Bool) : Statement (.writeEnable enable) := fun _ => (by decide : (1 : Nat) ≤ 8)
theorem writeByte (addr : Nat) (value : Byte) : Statement (.writeByte addr value) := fun _ =>
  (by decide : (2 : Nat) ≤ 8)
theorem writeBytes (addr : Nat) (wbytes : List Byte) : Statement (.writeBytes addr wbytes) := fun _ =>
  (by decide : (3 : Nat) ≤ 8)
theorem readByte (addr : Nat) : Statement (.readByte addr) := fun _ => (by decide : (4 : Nat) ≤ 8)
theorem readBytes (addr count : Nat) : Statement (.readBytes addr count) := fun _ => (by decide : (5 : Nat) ≤ 8)
theorem getDeviceId : Statement .getDeviceId := fun _ => (by decide : (6 : Nat) ≤ 8)
theorem getStatus : Statement .getStatus := fun _ => (by decide : (7 : Nat) ≤ 8)
theorem setStatus (value : Byte) : Statement (.setStatus value) := fun _ => (by decide : (8 : Nat) ≤ 8)

end Sys2Proof.Laws.EncodedShape
end

