-- ==== Sys2Proof/Tests/Slice0.lean ====
section
/-! SUPPORT. Tests: ill-formed terms, words written out from spec/30_encoding.md, the vectors of
spec/95_test_vectors.md (named in each test), and for every obligation with hypotheses a witness that meets
them. -/

namespace Sys2Proof.Tests.Slice0

open Sys2Proof Sys2Proof.Machine

/-! ## The states of the tests -/

/-- A chip of the source's kind: `id` as in spec/95_test_vectors.md P1, bytes AB CD at 0x10 (M8). -/
def testChip : Chip :=
  { mem := [(0x10, 0xAB), (0x11, 0xCD)], wel := true, sr := 0, id := #v[0x04, 0x00, 0x03, 0x02],
    addrBytes := 2, frame := none }

/-- `Ready`, width 2, the answers given. -/
def ready (answers : List Answer) : State :=
  { lifecycle := .ready, aw := 2, cs := false, progress := none, engineResult := none, response := none,
    trace := [], chip := testChip, inputs := [], answers := answers, draws := 0 }

/-- The same after reset. -/
def fresh (answers : List Answer) : State := { ready answers with lifecycle := .uninitialized }

/-- `n` calls answered `ok`, the bytes being the chip's. -/
def oks (n : Nat) : List Answer := List.replicate n (.ok none)

/-- Receives answered with the given bytes, then the release. -/
def sends (bs : List Byte) : List Answer := bs.map (fun b => .ok (some b)) ++ [.ok none]

/-- What `f` shows of the next state. -/
def after {α : Type} (f : State → α) : Host.Outcome State Fault Refusal → Option α
  | .next t => some (f t)
  | .fault _ => none
  | .refused _ => none

/-- The next state, or `s` if there is none. -/
def nextOf (s : State) : Host.Outcome State Fault Refusal → State
  | .next t => t
  | .fault _ => s
  | .refused _ => s

def seen (t : State) : List Ev × Option Response := (t.trace, t.response)

/-! ## Ill-formed terms -/

theorem test_wf_read : Instr.wf 2 (.read 0x10000 1) = false ∧ Instr.wf 2 (.read 0xFFFF 1) = true := by decide
theorem test_wf_write : Instr.wf 2 (.write 0x10000 []) = false ∧ Instr.wf 2 (.write 0xFFFF []) = true := by decide
theorem test_wf_writeByte : Instr.wf 2 (.writeByte 0x100000000 0) = false ∧
    Instr.wf 2 (.writeByte 0xFFFFFFFF 0) = true := by decide
theorem test_wf_writeBytes : Instr.wf 2 (.writeBytes 0x100000000 []) = false ∧
    Instr.wf 2 (.writeBytes 0xFFFFFFFF []) = true := by decide
theorem test_wf_readByte : Instr.wf 2 (.readByte 0x100000000) = false ∧
    Instr.wf 2 (.readByte 0xFFFFFFFF) = true := by decide
theorem test_wf_readBytes : Instr.wf 2 (.readBytes 0x100000000 0) = false ∧
    Instr.wf 2 (.readBytes 0xFFFFFFFF 0) = true := by decide

/-! ## Words written out from R92 and R100 -/

theorem test_decode_wren : decode 2 (.frame [0b00000110] 0) = .ok .wren := rfl
theorem test_decode_wrdi : decode 2 (.frame [0b00000100] 0) = .ok .wrdi := rfl
theorem test_decode_rdsr : decode 2 (.frame [0b00000101] 1) = .ok .rdsr := rfl
theorem test_decode_wrsr : decode 2 (.frame [0b00000001, 0b10000000] 1) = .ok (.wrsr 0x80) := rfl
theorem test_decode_read : decode 2 (.frame [0b00000011, 0b00011111, 0b11111110] 2) = .ok (.read 0x1FFE 2) := rfl
theorem test_decode_write :
    decode 1 (.frame [0b00000010, 0b00010000, 0b10101011, 0b11001101] 0) = .ok (.write 0x10 [0xAB, 0xCD]) := rfl
theorem test_decode_rdid : decode 2 (.frame [0b10011111] 4) = .ok .rdid := rfl
theorem test_decode_init :
    decode 2 (.command { cmd := 0b0000, aw := 0b011, tp := true }) = .ok (.init 3 true false) := rfl
theorem test_decode_writeEnable :
    decode 2 (.command { cmd := 0b0001, enable := true }) = .ok (.writeEnable true) := rfl
theorem test_decode_writeByte :
    decode 2 (.command { cmd := 0b0010, addr := 0x10, value := 0xAB }) = .ok (.writeByte 0x10 0xAB) := rfl
theorem test_decode_writeBytes :
    decode 2 (.command { cmd := 0b0011, addr := 0x100, wbytes := [0x11, 0x22] }) =
      .ok (.writeBytes 0x100 [0x11, 0x22]) := rfl
theorem test_decode_readByte :
    decode 2 (.command { cmd := 0b0100, addr := 0x10 }) = .ok (.readByte 0x10) := rfl
theorem test_decode_readBytes :
    decode 2 (.command { cmd := 0b0101, addr := 0x100, count := 4 }) = .ok (.readBytes 0x100 4) := rfl
theorem test_decode_getDeviceId : decode 2 (.command { cmd := 0b0110 }) = .ok .getDeviceId := rfl
theorem test_decode_getStatus : decode 2 (.command { cmd := 0b0111 }) = .ok .getStatus := rfl
theorem test_decode_setStatus : decode 2 (.command { cmd := 0b1000, value := 0x80 }) = .ok (.setStatus 0x80) := rfl

/-- R98, R91, R102: what the decoder refuses, by name. -/
theorem test_decode_refuses :
    decode 2 (.frame [] 0) = .error .emptyFrame ∧
    decode 2 (.frame [0x0B] 0) = .error (.unknownOpcode 0x0B) ∧
    decode 2 (.frame [0x02, 0x00] 0) = .error (.wrongTransmitLength 0x02) ∧
    decode 2 (.frame [0x06, 0x00] 0) = .error (.wrongTransmitLength 0x06) ∧
    decode 2 (.frame [0x9F] 3) = .error (.wrongReceiveLength 0x9F) ∧
    decode 2 (.command { cmd := 0b1001 }) = .error (.reservedCommand 9) ∧
    decode 2 (.command { cmd := 0b1111 }) = .error (.reservedCommand 15) := ⟨rfl, rfl, rfl, rfl, rfl, rfl, rfl⟩

/-- Words of the opcode table, wire and host. -/
theorem test_table_words :
    decodeTableWord 8 0x9F = some .rdid ∧ decodeTableWord 8 0x06 = some .wren ∧
    decodeTableWord 4 0x6 = some .getDeviceId ∧ decodeTableWord 8 0x7 = some .getStatus ∧
    decodeTableWord 4 0x9 = none := ⟨rfl, rfl, rfl, rfl, rfl⟩

/-- After reset the step runs the request placed: a command refused by the lifecycle gate (G2), and INIT with no
handles (I12 with its width 0). -/
theorem test_step_from_reset :
    after State.response (step (State.reset.withFetchWord 4 0x1)) = some (some { status := .stateError }) ∧
    after State.lifecycle (step (State.reset.withFetchWord 4 0x0)) = some .failed := ⟨rfl, rfl⟩

/-! ## The Address Encoder (spec/95_test_vectors.md 2.1) -/

theorem test_encoder :
    encodeAddr 0x1234 1 = [0x34] ∧ encodeAddr 0x1234 3 = [0x00, 0x12, 0x34] ∧
    encodeAddr 0x10000 2 = [0x00, 0x00] ∧ encodeAddr 0x123456789A 4 = [0x34, 0x56, 0x78, 0x9A] := by decide

/-! ## Operations (T, G and I vectors) -/

theorem test_T1_writeEnable : after seen (exec (.writeEnable true) (ready (oks 3))) =
    some ([.cs true, .tx 0x06, .cs false], some { status := .ok }) := by decide
theorem test_T21_writeEnable_fails :
    after seen (exec (.writeEnable true) (ready [.ok none, .fail false, .ok none])) =
      some ([.cs true, .fail (.tx 0x06), .cs false], some { status := .transportError }) := by decide
theorem test_T3_getStatus :
    after seen (exec .getStatus (ready (oks 4))) =
      some ([.cs true, .tx 0x05, .rx (Config.srView testChip.sr testChip.wel), .cs false],
        some { status := .ok, rbytes := some [Config.srView testChip.sr testChip.wel] }) := rfl
theorem test_T27_getStatus_fails_twice :
    after seen (exec .getStatus (ready [.ok none, .fail false, .fail false])) =
      some ([.cs true, .fail (.tx 0x05), .fail (.cs false)], some { status := .transportError }) := by decide
theorem test_T4_setStatus :
    after seen (exec (.setStatus 0x80) (ready (oks 3 ++ sends [0x5A]))) =
      some ([.cs true, .tx 0x01, .tx 0x80, .rx 0x5A, .cs false], some { status := .ok }) := by decide
theorem test_M10_setStatus_stores :
    after (fun t => (t.chip.sr, t.chip.wel)) (exec (.setStatus 0x80) (ready (oks 3 ++ sends [0x5A]))) =
      some (0x80, false) := by decide
theorem test_T6_getDeviceId :
    after seen (exec .getDeviceId (ready (oks 2 ++ sends [0x12, 0x34, 0x56, 0x78]))) =
      some ([.cs true, .tx 0x9F, .rx 0x12, .rx 0x34, .rx 0x56, .rx 0x78, .cs false],
        some { status := .ok, mfr := some 0x12, prod := some 0x5678 }) := by decide
theorem test_M8_readBytes :
    after (fun t => (t.response, t.chip.wel)) (exec (.readBytes 0x10 2) (ready (oks 7))) =
      some (some { status := .ok, rbytes := some [0xAB, 0xCD] }, true) := by decide +kernel
theorem test_T24_readBytes_drops :
    after seen (exec (.readBytes 0x10 3)
        (ready (oks 4 ++ [.ok (some 0xAA), .ok (some 0xBB), .fail true, .ok none]))) =
      some ([.cs true, .tx 0x03, .tx 0x00, .tx 0x10, .rx 0xAA, .rx 0xBB, .fail .rx, .cs false],
        some { status := .transportError }) := by decide
theorem test_T8_readByte_width_1 :
    after seen (exec (.readByte 0x10) { ready (oks 3 ++ sends [0xAB]) with aw := 1 }) =
      some ([.cs true, .tx 0x03, .tx 0x10, .rx 0xAB, .cs false],
        some { status := .ok, rbytes := some [0xAB] }) := by decide
theorem test_G1_readByte_refused :
    after seen (exec (.readByte 0) (fresh [])) = some ([], some { status := .stateError }) := by decide
theorem test_T17_writeByte :
    after seen (exec (.writeByte 0x2000 0x01) { ready (oks 6) with chip := { testChip with wel := false } }) =
      some ([.cs true, .tx 0x02, .tx 0x20, .tx 0x00, .tx 0x01, .cs false], some { status := .ok }) := by decide
theorem test_M4_writeByte_ignored :
    after (fun t => (t.chip.mem, t.response))
        (exec (.writeByte 0x12 0x77) { ready (oks 6) with chip := { testChip with wel := false } }) =
      some (testChip.mem, some { status := .ok }) := by decide
theorem test_M5_writeBytes :
    after (fun t => (t.chip.mem, t.chip.wel)) (exec (.writeBytes 0x1FFE [0x11, 0x22]) (ready (oks 7))) =
      some (testChip.mem ++ [(0x1FFE, 0x11), (0x1FFF, 0x22)], false) := by decide
theorem test_T16_writeBytes_truncates :
    after seen (exec (.writeBytes 0x12345678 [0x01]) { ready (oks 6) with chip := { testChip with wel := false } }) =
      some ([.cs true, .tx 0x02, .tx 0x56, .tx 0x78, .tx 0x01, .cs false], some { status := .ok }) := by decide

theorem test_I1_init :
    after (fun t => (seen t, t.lifecycle)) (exec (.init 2 true true) (fresh (oks 8))) =
      some (([.cs false, .cs true, .tx 0x9F, .rx 0x04, .rx 0x00, .rx 0x03, .rx 0x02, .cs false],
        some { status := .ok }), .ready) := by decide
theorem test_I6_init_mismatch :
    after (fun t => (t.response, t.lifecycle))
        (exec (.init 2 true true) (fresh (oks 3 ++ sends [0x04, 0x00, 0x02, 0x03]))) =
      some (some { status := .identityMismatchError }, .failed) := by decide

/-! ## Wire opcodes at the engine's port -/

def result (t : State) : List Ev × Option EngineResult := (t.trace, t.engineResult)

theorem test_M1_wren : after (fun t => (result t, t.chip.wel))
    (exec .wren { ready (oks 3) with chip := { testChip with wel := false } }) =
      some (([.cs true, .tx 0x06, .cs false], some ⟨.ok, []⟩), true) := by decide
theorem test_M2_wrdi : after (fun t => (result t, t.chip.wel)) (exec .wrdi (ready (oks 3))) =
    some (([.cs true, .tx 0x04, .cs false], some ⟨.ok, []⟩), false) := by decide
theorem test_rdsr : after result (exec .rdsr (ready (oks 4))) =
    some ([.cs true, .tx 0x05, .rx (Config.srView testChip.sr testChip.wel), .cs false],
      some ⟨.ok, [Config.srView testChip.sr testChip.wel]⟩) := rfl
theorem test_M11_wrsr_latch_clear : after (fun t => (result t, t.chip.sr))
    (exec (.wrsr 0x80) { ready (oks 3 ++ sends [0x5A]) with chip := { testChip with wel := false } }) =
      some (([.cs true, .tx 0x01, .tx 0x80, .rx 0x5A, .cs false], some ⟨.ok, [0x5A]⟩), 0x00) := by decide
theorem test_read_none : after result (exec (.read 0 0) (ready (oks 5))) =
    some ([.cs true, .tx 0x03, .tx 0x00, .tx 0x00, .cs false], some ⟨.ok, []⟩) := by decide
theorem test_M7_write_none :
    after (fun t => (result t, t.chip.mem, t.chip.wel)) (exec (.write 0x10 []) (ready (oks 5))) =
      some (([.cs true, .tx 0x02, .tx 0x00, .tx 0x10, .cs false], some ⟨.ok, []⟩), testChip.mem, false) := by decide
theorem test_M9_rdid : after result (exec .rdid (ready (oks 7))) =
    some ([.cs true, .tx 0x9F, .rx 0x04, .rx 0x00, .rx 0x03, .rx 0x02, .cs false],
      some ⟨.ok, [0x04, 0x00, 0x03, 0x02]⟩) := by decide

/-! ## Witnesses: for every obligation with hypotheses, a state and operands that meet them -/

/-- A host command under way: selected, the opcode next. -/
def busy (answers : List Answer) (inputs : List HostEvent) : State :=
  { ready answers with
    cs := true, inputs := inputs,
    progress := some { instr := .writeEnable true, phase := .opc, rbytes := [], failed := false, waiting := false } }

/-- INIT under way at step 3. -/
def busyInit (answers : List Answer) : State :=
  { fresh answers with
    progress := some
      { instr := .init 2 true true, phase := .idleLevel, rbytes := [], failed := false, waiting := false } }

/-- A frame open at the chip. -/
def openFrame (f : ChipFrame) : State := { ready [] with chip := { testChip with frame := some f } }

theorem testChip_wf : testChip.mem.wf = true := by decide

theorem ready_inv (as : List Answer) : (ready as).Inv := by
  refine ⟨Nat.le_of_ble_eq_true rfl, Nat.le_of_ble_eq_true rfl, ?_, testChip_wf, fun _ => rfl, ?_⟩
  · intro h; cases h
  · intro _ h; cases h

theorem busy_inv (as : List Answer) (es : List HostEvent) : (busy as es).Inv := by
  refine ⟨Nat.le_of_ble_eq_true rfl, Nat.le_of_ble_eq_true rfl, ?_, testChip_wf, ?_, ?_⟩
  · intro h; cases h
  · intro h; cases h
  · intro p h
    cases h
    refine ⟨trivial, ?_, rfl, ⟨fun _ => rfl, ?_⟩, ?_, fun _ => rfl, rfl, rfl⟩
    · intro h; cases h
    · intro _ _ _ h; cases h
    · intro h; cases h

theorem busyInit_inv (as : List Answer) : (busyInit as).Inv := by
  refine ⟨Nat.le_of_ble_eq_true rfl, Nat.le_of_ble_eq_true rfl, ?_, testChip_wf, ?_, ?_⟩
  · intro h; cases h
  · intro h; cases h
  · intro p h
    cases h
    refine ⟨trivial, fun _ => rfl, rfl, ⟨?_, ?_⟩, ?_, fun _ => rfl, rfl, rfl⟩
    · intro h; cases h
    · intro _ _ _ h; cases h; exact ⟨rfl, rfl, rfl⟩
    · intro h; cases h

theorem witness_ResetGivesTheResetValues : ∃ s₀, hardwareReset (busy [] []) = hardwareReset s₀ := ⟨_, rfl⟩

theorem witness_ResetLeavesTheChip :
    (ready []).chip.frame = none ∧ (openFrame { tx := [0x02] }).chip.frame ≠ none := by decide

/-- Idle with a command, idle with a command begun, busy. -/
theorem witness_StepKeepsTheInvariant :
    (ready (oks 3)).Inv ∧
    step ({ ready (oks 3) with inputs := [.present (.command { cmd := 1 })] }) =
      .next (nextOf (ready []) (exec (.writeEnable false) (ready (oks 3)))) ∧
    (busy (oks 2) []).Inv ∧ step (busy (oks 2) []) = .next (nextOf (ready []) (step (busy (oks 2) []))) :=
  ⟨ready_inv _, rfl, busy_inv _ _, rfl⟩

/-- Each of the three outcomes: kept, reset, INIT presented and INIT under way. -/
theorem witness_StepFollowsTheLifecycleTable :
    (busy (oks 2) []).Inv ∧ after State.lifecycle (step (busy (oks 2) [])) = some .ready ∧
    (busy [] [.reset]).Inv ∧ after State.lifecycle (step (busy [] [.reset])) = some .uninitialized ∧
    after State.lifecycle (step ({ fresh (oks 8) with
      inputs := [.present (.command { cmd := 0, aw := 2, tp := true, cp := true })] })) = some .ready ∧
    after State.lifecycle (step ({ fresh [] with
      inputs := [.begin (.command { cmd := 0, aw := 5, tp := true, cp := true })] })) = some .failed ∧
    (busyInit [.fail true]).Inv ∧ after State.lifecycle (step (busyInit [.fail true])) = some .failed :=
  ⟨busy_inv _ _, by decide, busy_inv _ _, by decide, by decide, by decide, busyInit_inv _, by decide⟩

/-- Codes 0 and 8, and 9 and 15 (G5, G6, G8), presented and begun. -/
theorem witness_FailedAnswersOnlyErrors :
    after State.response (step { ready [] with
      lifecycle := .failed, inputs := [.present (.command { cmd := 0, aw := 2, tp := true, cp := true })] }) =
        some (some { status := .stateError }) ∧
    after State.response (step { ready [] with lifecycle := .failed, inputs := [.begin (.command { cmd := 8 })] }) =
        some (some { status := .stateError }) ∧
    after State.response (step { ready [] with lifecycle := .failed, inputs := [.begin (.command { cmd := 15 })] }) =
        some (some { status := .illegalCommand }) := by decide

theorem witness_AddressEncoder :
    1 ≤ 1 ∧ 1 ≤ 4 ∧ 0x12345678 % 2 ^ (8 * 2) = 0x5678 % 2 ^ (8 * 2) ∧ (3 < 4 ∧ (4 : Nat) ≤ 4) := by decide

theorem witness_CongruentAddressesWriteAlike :
    0x12345678 % 2 ^ (8 * (ready []).aw) = 0x5678 % 2 ^ (8 * (ready []).aw) ∧
    exec (.writeBytes 0x12345678 [0xAB]) (ready (oks 6)) =
      .next (nextOf (ready []) (exec (.writeBytes 0x12345678 [0xAB]) (ready (oks 6)))) ∧
    exec (.writeBytes 0x5678 [0xAB]) (ready (oks 6)) =
      .next (nextOf (ready []) (exec (.writeBytes 0x5678 [0xAB]) (ready (oks 6)))) := ⟨by decide, rfl, rfl⟩

/-- The greatest address of each width and of the host port. -/
theorem witness_DecodeOfEncode :
    Instr.wf 1 (.read 0xFF 3) = true ∧ Instr.wf 4 (.write 0xFFFFFFFF [0x01]) = true ∧
    Instr.wf 2 (.readBytes 0xFFFFFFFF 0) = true ∧ Instr.wf 2 (.wrsr 0xFF) = true := by decide

theorem witness_DecodedInstructionIsWellFormed :
    decode 1 (.frame [0x03, 0xFF] 0) = .ok (.read 0xFF 0) ∧
    decode 2 (.command { cmd := 4, addr := 0xFFFFFFFF }) = .ok (.readByte 0xFFFFFFFF) := ⟨rfl, rfl⟩

theorem witness_AcceptedFrame : decode 2 (.frame [0x02, 0xFF, 0xFF] 0) = .ok (.write 0xFFFF []) := rfl

theorem witness_OnlyTheSevenOpcodes :
    after (fun t => (t.trace[0]?, t.trace[1]?)) (exec .getDeviceId (ready (oks 7))) =
      some (some (.cs true), some (.tx 0x9F)) := by decide

theorem witness_TransactTraceWhenNoCallFails :
    okCalls (frameCalls ⟨descRead, 0x1FFE, [], 2⟩ 2) (oks 7) = true := by decide

/-- The first call, one in the middle, the last. -/
theorem witness_TransactTraceWhenACallFails :
    failsAt (frameCalls ⟨descWren, 0, [], 0⟩ 2) 0 [.fail false, .ok none] = true ∧
    failsAt (frameCalls ⟨descWren, 0, [], 0⟩ 2) 1 [.ok none, .fail true, .fail true] = true ∧
    failsAt (frameCalls ⟨descWren, 0, [], 0⟩ 2) 2 [.ok none, .ok none, .fail true] = true := by decide

theorem witness_EveryFrame :
    (transact ⟨descWren, 0, [], 0⟩ (ready (oks 3))).stuck = none ∧
    (transact ⟨descWren, 0, [], 0⟩ (ready [.fail false, .fail true])).stuck = none := by decide

/-- A width at its least, and a run that ends in the last step allowed. -/
theorem witness_CallByCallRun :
    exec (.init 1 true true) (fresh (oks 8)) = .next (nextOf (fresh []) (exec (.init 1 true true) (fresh (oks 8)))) ∧
    (fresh (oks 8)).progress = none ∧ 1 ≤ ({ fresh [] with aw := 1 }).aw ∧
    frameCalls (invocation (.init 1 true true)) (fresh []).aw + 1 ≤ 8 := ⟨rfl, rfl, by decide, by decide⟩

theorem witness_CommandMakesAFixedNumberOfCalls :
    after (fun t => t.trace.length) (exec (.readBytes 0 0) (ready (oks 5))) =
      some (frameCalls (invocation (.readBytes 0 0)) 2) ∧
    okCalls (frameCalls (invocation (.readBytes 0 0)) 2) (oks 5) = true ∧
    after (fun t => t.trace.length) (exec (.readBytes 0 0) (fresh (oks 5))) = some 0 ∧
    after (fun t => t.trace.length) (exec (.init 2 true true) (fresh (oks 8))) =
      some (frameCalls (invocation (.init 2 true true)) 2 + 1) := by decide

/-- A whole frame answered `ok`, and a frame whose last call fails. -/
theorem witness_WrenAndWrdi : okCalls 3 (ready (oks 3)).answers = true ∧ (ready (oks 3)).chip.frame = none ∧
    failsAt 3 2 (ready (oks 2 ++ [.fail true])).answers = true := by decide
theorem witness_Rdsr : okCalls 4 (ready (oks 4)).answers = true ∧ (ready (oks 4)).chip.frame = none ∧
    chipCalls 4 (ready (oks 4)).answers = true ∧ failsAt 4 0 (ready [.fail false, .fail false]).answers = true := by
  decide
theorem witness_Wrsr : okCalls 5 (ready (oks 3 ++ sends [0x5A])).answers = true ∧
    (ready (oks 3 ++ sends [0x5A])).chip.frame = none ∧
    failsAt 5 3 (ready (oks 3 ++ [.fail true, .ok none])).answers = true := by decide
/-- No byte, and the last cell. -/
theorem witness_Read : okCalls (3 + (ready (oks 5)).aw + 0) (ready (oks 5)).answers = true ∧
    ChipReady (ready (oks 7)) ∧ chipCalls (3 + (ready (oks 7)).aw + 2) (ready (oks 7)).answers = true ∧
    addrMap (0x1FFE % 2 ^ (8 * (ready (oks 7)).aw) + 1) = some 0x1FFF ∧
    failsAt (3 + (ready []).aw + 3) 6 (ready (oks 6 ++ [.fail true, .ok none])).answers = true :=
  ⟨by decide, ⟨rfl, rfl⟩, by decide, by decide, by decide⟩
theorem witness_Write : okCalls (3 + (ready (oks 5)).aw + ([] : List Byte).length) (ready (oks 5)).answers = true ∧
    ChipReady (ready (oks 5)) ∧ (ready (oks 5)).chip.mem.wf = true ∧
    failsAt (3 + (ready []).aw + 1) 5 (ready (oks 5 ++ [.fail true])).answers = true :=
  ⟨by decide, ⟨rfl, rfl⟩, by decide, by decide⟩
theorem witness_Rdid : okCalls 7 (ready (oks 7)).answers = true ∧ (ready (oks 7)).chip.frame = none ∧
    chipCalls 7 (ready (oks 7)).answers = true ∧ failsAt 7 6 (ready (oks 6 ++ [.fail true])).answers = true := by
  decide

/-- The gate closed, the gate open with every call answered `ok`, and a failure. -/
theorem witness_WriteEnable : (fresh []).lifecycle ≠ .ready ∧ (ready (oks 3)).lifecycle = .ready ∧
    okCalls 3 (ready (oks 3)).answers = true ∧ (ready (oks 3)).chip.frame = none ∧
    failsAt 3 0 (ready [.fail true, .ok none]).answers = true := by decide
theorem witness_WriteByte : (fresh []).lifecycle ≠ .ready ∧ (ready (oks 6)).lifecycle = .ready ∧
    okCalls (4 + (ready (oks 6)).aw) (ready (oks 6)).answers = true ∧ ChipReady (ready (oks 6)) ∧
    (ready (oks 6)).chip.mem.wf = true ∧
    failsAt (4 + (ready []).aw) 5 (ready (oks 5 ++ [.fail true])).answers = true :=
  ⟨by decide, rfl, by decide, ⟨rfl, rfl⟩, by decide, by decide⟩
theorem witness_WriteBytes : (fresh []).lifecycle ≠ .ready ∧ (ready (oks 5)).lifecycle = .ready ∧
    okCalls (3 + (ready (oks 5)).aw + ([] : List Byte).length) (ready (oks 5)).answers = true ∧ ChipReady (ready (oks 5)) ∧
    (ready (oks 5)).chip.mem.wf = true ∧
    failsAt (3 + (ready []).aw + 3) 5 (ready (oks 5 ++ [.fail true, .ok none])).answers = true :=
  ⟨by decide, rfl, by decide, ⟨rfl, rfl⟩, by decide, by decide⟩
theorem witness_ReadByte : (fresh []).lifecycle ≠ .ready ∧ (ready (oks 6)).lifecycle = .ready ∧
    okCalls (4 + (ready (oks 6)).aw) (ready (oks 6)).answers = true ∧ ChipReady (ready (oks 6)) ∧
    chipCalls (4 + (ready (oks 6)).aw) (ready (oks 6)).answers = true ∧
    addrMap (0x1FFF % 2 ^ (8 * (ready (oks 6)).aw) + 0) = some 0x1FFF ∧
    failsAt (4 + (ready []).aw) 4 (ready (oks 4 ++ [.fail true, .fail true])).answers = true :=
  ⟨by decide, rfl, by decide, ⟨rfl, rfl⟩, by decide, by decide, by decide⟩
theorem witness_ReadBytes : (fresh []).lifecycle ≠ .ready ∧ (ready (oks 5)).lifecycle = .ready ∧
    okCalls (3 + (ready (oks 5)).aw + 0) (ready (oks 5)).answers = true ∧ ChipReady (ready (oks 7)) ∧
    chipCalls (3 + (ready (oks 7)).aw + 2) (ready (oks 7)).answers = true ∧
    addrMap (0x1FFE % 2 ^ (8 * (ready (oks 7)).aw) + 1) = some 0x1FFF ∧
    failsAt (3 + (ready []).aw + 3) 6 (ready (oks 6 ++ [.fail true, .ok none])).answers = true :=
  ⟨by decide, rfl, by decide, ⟨rfl, rfl⟩, by decide, by decide, by decide⟩
theorem witness_GetDeviceId : (fresh []).lifecycle ≠ .ready ∧ (ready (oks 7)).lifecycle = .ready ∧
    okCalls 7 (ready (oks 7)).answers = true ∧ (ready (oks 7)).chip.frame = none ∧
    chipCalls 7 (ready (oks 7)).answers = true ∧
    failsAt 7 3 (ready (oks 3 ++ [.fail false, .ok none])).answers = true := by decide
theorem witness_GetStatus : (fresh []).lifecycle ≠ .ready ∧ (ready (oks 4)).lifecycle = .ready ∧
    okCalls 4 (ready (oks 4)).answers = true ∧ (ready (oks 4)).chip.frame = none ∧
    chipCalls 4 (ready (oks 4)).answers = true ∧
    failsAt 4 1 (ready [.ok none, .fail false, .fail false]).answers = true := by decide
theorem witness_SetStatus : (fresh []).lifecycle ≠ .ready ∧ (ready (oks 5)).lifecycle = .ready ∧
    okCalls 5 (ready (oks 5)).answers = true ∧ (ready (oks 5)).chip.frame = none ∧
    failsAt 5 3 (ready (oks 3 ++ [.fail true, .ok none])).answers = true := by decide

theorem witness_ByteForms :
    exec (.writeByte 0 1) (ready (oks 6)) = .next (nextOf (ready []) (exec (.writeByte 0 1) (ready (oks 6)))) ∧
    exec (.writeBytes 0 [1]) (ready (oks 6)) = .next (nextOf (ready []) (exec (.writeBytes 0 [1]) (ready (oks 6)))) ∧
    exec (.readByte 0) (ready (oks 6)) = .next (nextOf (ready []) (exec (.readByte 0) (ready (oks 6)))) ∧
    exec (.readBytes 0 1) (ready (oks 6)) = .next (nextOf (ready []) (exec (.readBytes 0 1) (ready (oks 6)))) :=
  ⟨rfl, rfl, rfl, rfl⟩

/-- Widths 1 and 4, an accepted identity (I3), the chip's own, and a state that refuses INIT. -/
theorem witness_InitEndsInReady :
    (ready []).lifecycle ≠ .uninitialized ∧ (fresh (oks 8)).lifecycle = .uninitialized ∧
    1 ≤ (1 : BitVec 3).toNat ∧
    (4 : BitVec 3).toNat ≤ 4 ∧ okCalls 8 (fresh (oks 8)).answers = true ∧ (fresh (oks 8)).chip.frame = none ∧
    chipCalls 8 (fresh (oks 8)).answers = true ∧
    okCalls 8 (fresh (oks 3 ++ sends [0x07, 0x00, 0x7F, 0x7F])).answers = true ∧
    (0x07 : Byte) ∈ Config.mfrIds ∧ ((0x7F : Byte) ++ (0x7F : Byte) : BitVec 16) ∈ Config.prodIds := by decide

/-- I8, I9, I10, I11. -/
theorem witness_InitRaisesConfigurationError :
    (fresh []).lifecycle = .uninitialized ∧ 5 ≤ (5 : BitVec 3).toNat ∧ (0 : BitVec 3).toNat = 0 := by decide

/-- I5 and I6: each of the two tests fails alone. -/
theorem witness_InitRaisesIdentityMismatchError :
    (fresh []).lifecycle = .uninitialized ∧ okCalls 8 (oks 3 ++ sends [0x05, 0x00, 0x03, 0x02]) = true ∧
    (0x05 : Byte) ∉ Config.mfrIds ∧ ((0x02 : Byte) ++ (0x03 : Byte) : BitVec 16) ∉ Config.prodIds ∧
    after (fun t => t.response.isSome) (exec .getDeviceId (ready (oks 7))) = some true := by decide

/-- I13 and I14. -/
theorem witness_InitTransportFailure :
    (fresh []).lifecycle = .uninitialized ∧
    (fresh [.fail true]).answers = .fail true :: [] ∧
    failsAt 7 3 (oks 3 ++ [.fail true, .ok none]) = true := by decide

theorem witness_OkMeans :
    (ready (oks 3)).progress = none ∧ isOperation (.writeEnable true) = true ∧
    after State.progress (exec (.writeEnable true) (ready (oks 3))) = some none ∧
    isInit (.init 2 true true) = true ∧
    after State.progress (exec (.init 2 true true) (fresh (oks 8))) = some none ∧
    after (fun t => t.response.map Response.status) (exec (.writeEnable true) (ready [.fail true, .ok none])) =
      some (some .transportError) := by decide

/-- The three ways a command leaves: waiting, answered, an engine result. -/
theorem witness_EveryCommandEndsOrWaits :
    after (fun t => t.progress.map Progress.waiting) (exec .wren (ready [.never false])) = some (some true) ∧
    after (fun t => t.response.isSome) (exec .getDeviceId (ready (oks 7))) = some true ∧
    after (fun t => t.engineResult.isSome) (exec .wren (ready (oks 3))) = some true := by decide

theorem witness_OnlyInitChangesLifecycle :
    isInit .wren = false ∧ after State.progress (exec .wren (ready (oks 3))) = some none ∧
    after State.progress (exec .getStatus (fresh [])) = some none := by decide

theorem witness_InitWritesOnlyALegalWidth :
    after State.aw (exec (.init 4 true true) (fresh [.fail true])) = some 4 ∧
    after State.aw (exec (.init 5 true true) (fresh [.fail true])) = some 2 := by decide

theorem witness_WrenAndWrdiFrames : (openFrame { tx := [0x06] }).chip.frame = some { tx := [0x06] } ∧
    (openFrame { tx := [0x04] }).chip.frame = some { tx := [0x04] } := by decide
/-- The last cell, which is the first byte of the frame. -/
theorem witness_ReadFrame : ([0x1F, 0xFF] : List Byte).length = (openFrame {}).chip.addrBytes ∧
    (openFrame {}).chip.addrBytes = (openFrame {}).aw ∧
    (openFrame { tx := [0x03, 0x1F, 0xFF] }).chip.frame = some { tx := 0x03 :: [0x1F, 0xFF], nrx := 0 } ∧
    addrMap (addrValue [0x1F, 0xFF] + 0) = some 0x1FFF := by decide
theorem witness_WriteFrame : ([0x00, 0x10] : List Byte).length = (openFrame {}).chip.addrBytes ∧
    (openFrame {}).chip.addrBytes = (openFrame {}).aw ∧ (openFrame {}).chip.mem.wf = true ∧
    (openFrame { tx := [0x02, 0x00, 0x10, 0xAB] }).chip.frame = some { tx := 0x02 :: ([0x00, 0x10] ++ [0xAB]) } := by
  decide
/-- The last identity byte, and the frame after it. -/
theorem witness_RdidFrame : (openFrame { tx := [0x9F], nrx := 3 }).chip.frame = some { tx := [0x9F], nrx := 3 } ∧
    (openFrame { tx := [0x9F], nrx := 3 }).chip.id.toList[3]? = some 0x02 ∧
    (openFrame { tx := [0x9F], nrx := 4 }).chip.frame = some { tx := [0x9F], nrx := 4 } := by decide
theorem witness_StatusFrames : (openFrame { tx := [0x05] }).chip.frame = some { tx := [0x05] } ∧
    (openFrame { tx := [0x05], nrx := 1 }).chip.frame = some { tx := [0x05], nrx := 1 } ∧
    (openFrame { tx := [0x01, 0x80] }).chip.frame = some { tx := [0x01, 0x80] } ∧
    (openFrame { tx := [0x01, 0x80], nrx := 1 }).chip.frame = some { tx := [0x01, 0x80], nrx := 1 } := by decide

theorem witness_ChipPowerOn : (ready []).chip.frame = none := rfl

theorem witness_StepNext : step (busy (oks 2) []) = .next (nextOf (ready []) (step (busy (oks 2) []))) := rfl

theorem witness_FailedSelection :
    (ready []).lifecycle = .ready ∧ (ready []).chip.frame = none ∧ isOperation .getStatus = true ∧
    exec .getStatus (ready [.fail false, .ok none]) =
      .next (nextOf (ready []) (exec .getStatus (ready [.fail false, .ok none]))) :=
  ⟨rfl, rfl, rfl, rfl⟩

theorem witness_CanonicalArrays : Memory.wf [(0x1FFF, 0x01)] = true ∧ Memory.wf [(0x2000, 0x01)] = false ∧
    Memory.wf [(0x10, 0x00)] = false ∧ Memory.wf [(0x11, 0x01), (0x10, 0x01)] = false := by decide

/-- The burst that ends at the last cell, and the last cell itself. -/
theorem witness_RoundTrips :
    (ready (oks 17)).lifecycle = .ready ∧ ChipReady (ready (oks 17)) ∧ (ready (oks 17)).chip.mem.wf = true ∧
    0x1FFE + [0x11, 0x22].length ≤ Config.memSize ∧
    chipCalls (3 + 2 * (3 + (ready (oks 17)).aw + 2)) (ready (oks 17)).answers = true ∧ 0x1FFF < Config.memSize ∧
    chipCalls (3 + 2 * (4 + (ready (oks 17)).aw)) (ready (oks 17)).answers = true :=
  ⟨rfl, ⟨rfl, rfl⟩, by decide, by decide, by decide, by decide, by decide⟩

theorem witness_OneWriteEnable :
    (ready (oks 21)).lifecycle = .ready ∧ ChipReady (ready (oks 21)) ∧ (ready (oks 21)).chip.mem.wf = true ∧
    chipCalls (3 + (3 + (ready (oks 21)).aw + 0) + (3 + (ready (oks 21)).aw + 1) + (3 + (ready (oks 21)).aw + 2))
      (ready (oks 21)).answers = true :=
  ⟨rfl, ⟨rfl, rfl⟩, by decide, by decide⟩

theorem witness_EqualReads :
    (ready (oks 14)).lifecycle = .ready ∧ ChipReady (ready (oks 14)) ∧
    (∀ k, k < 2 → ∃ cell, addrMap (0x1FFE % 2 ^ (8 * (ready []).aw) + k) = some cell) ∧
    chipCalls (2 * (3 + (ready []).aw + 2)) (oks 14) = true ∧
    exec (.readBytes 0x1FFE 2) (ready (oks 14)) =
      .next (nextOf (ready []) (exec (.readBytes 0x1FFE 2) (ready (oks 14)))) :=
  ⟨rfl, ⟨rfl, rfl⟩, fun k h => ⟨0x1FFE + k, addrMap_of_lt
    (by change k < 2 at h; show 0x1FFE + k < 8192; omega)⟩, by decide, rfl⟩

theorem witness_StepRunsTheDecodedRequest :
    (ready []).progress = none ∧ decode (ready []).aw (.command { cmd := 6 }) = .ok .getDeviceId ∧
    decode (ready []).aw (.frame [0x06] 0) = .ok .wren := ⟨rfl, rfl, rfl⟩

theorem witness_ReservedCodes : 9 ≤ (9 : BitVec 4).toNat ∧ 9 ≤ (15 : BitVec 4).toNat := by decide

theorem witness_BusyBlock :
    (busy [] []).progress.map Progress.waiting = some false ∧
    after (fun t => t.progress.map Progress.waiting) (exec .wren (ready [.never true])) = some (some true) := by
  decide

/-- The first call and the release, unanswered. -/
theorem witness_OwnByteEqual : chipDrives { ready [] with chip := { testChip with frame := some { tx := [0x9F] } } } =
    some 0x04 := by decide
/-- R24: a record built with no width has the default, 2. -/
theorem test_record_width_default : ({ cmd := 0 } : CommandRecord).aw = 2 := by decide
theorem witness_UnansweredCall :
    (ready [.never true]).progress = none ∧ (ready [.never true]).lifecycle = .ready ∧
    isOperation (.writeEnable true) = true ∧
    0 < frameCalls (invocation (.writeEnable true)) 2 ∧ [Answer.never true][0]? = some (.never true) ∧
    2 < frameCalls (invocation (.writeEnable true)) 2 ∧ okCalls 2 (oks 2 ++ [.never false]) = true ∧
    (oks 2 ++ [Answer.never false])[2]? = some (.never false) := by decide

end Sys2Proof.Tests.Slice0
end

namespace Sys2Proof.Machine

/-! ## What a step can do, said once

A presented or begun request by its decoding, and every way a step answers a next state. -/

theorem runRequest_of_decode {s : State} {r : Request} {i : Instr} (h : decode s.aw r = .ok i) :
    runRequest r s = exec i s := by
  simp [runRequest, h]

theorem beginRequest_of_decode {s : State} {r : Request} {i : Instr} (h : decode s.aw r = .ok i) :
    beginRequest r s = .next (beginInstr i s) := by
  simp [beginRequest, h]

theorem step_idle {s : State} (h : s.progress = none) : step s = idleStep s := by
  simp [step, h]

theorem step_busy {s : State} {p : Progress} (h : s.progress = some p) : step s = busyStep p s := by
  simp [step, h]

/-- Settles O55: an idle step hands the request to `runRequest` or `beginRequest`, each of which follows the
decoder. -/
theorem stepRunsTheDecodedRequest : Obligations.StepRunsTheDecodedRequest := by
  intro s r i rest hp hd
  rw [step_idle hp]
  constructor <;> intro hi <;> simp only [idleStep, hi]
  · exact runRequest_of_decode hd
  · exact beginRequest_of_decode hd

/-- The ways a step from `s` answers a next state, each with its guards: the host event taken, whether the
block is idle, and what the request decodes to (spec/70_reset_and_hazards.md R230, R231, R242). -/
inductive NextStep (s : State) : State → Prop where
  | idle (hp : s.progress = none) (hi : s.inputs = []) : NextStep s s
  | idleWait {rest : List HostEvent} (hp : s.progress = none) (hi : s.inputs = .wait :: rest) :
      NextStep s (s.setInputs rest)
  | present {r : Request} {rest : List HostEvent} {i : Instr} {t : State} (hp : s.progress = none)
      (hi : s.inputs = .present r :: rest) (hd : decode s.aw r = .ok i)
      (he : exec i (s.setInputs rest) = .next t) : NextStep s t
  | begun {r : Request} {rest : List HostEvent} {i : Instr} (hp : s.progress = none)
      (hi : s.inputs = .begin r :: rest) (hd : decode s.aw r = .ok i) :
      NextStep s (beginInstr i (s.setInputs rest))
  | reserved {r : Request} {rest : List HostEvent} {c : BitVec 4} (hp : s.progress = none)
      (hi : s.inputs = .present r :: rest ∨ s.inputs = .begin r :: rest)
      (hd : decode s.aw r = .error (.reservedCommand c)) :
      NextStep s (respondError .illegalCommand (s.setInputs rest).accept)
  | busy {p : Progress} (hp : s.progress = some p) (hi : s.inputs = []) (hw : p.waiting = false) :
      NextStep s (tick p s)
  | busyWait {p : Progress} {rest : List HostEvent} (hp : s.progress = some p) (hi : s.inputs = .wait :: rest) :
      NextStep s (advance p (s.setInputs rest))
  | reset {rest : List HostEvent} (hi : s.inputs = .reset :: rest) : NextStep s (hardwareReset (s.setInputs rest))
  | chipPowerOn {rest : List HostEvent} (hi : s.inputs = .chipPowerOn :: rest) :
      NextStep s (chipPoweredOn (s.setInputs rest))

/-- Of the requests that name no instruction, only a reserved code has a next state. -/
theorem rejectRequest_next {e : DecodeError} {s t : State} (h : rejectRequest e s = .next t) :
    (∃ c, e = .reservedCommand c) ∧ t = respondError .illegalCommand s.accept := by
  cases e with
  | reservedCommand c => exact ⟨⟨c, rfl⟩, (Host.Outcome.next.inj h).symm⟩
  | _ => simp [rejectRequest] at h

theorem runRequest_next {r : Request} {s t : State} (h : runRequest r s = .next t) :
    (∃ i, decode s.aw r = .ok i ∧ exec i s = .next t) ∨
      (∃ c, decode s.aw r = .error (.reservedCommand c)) ∧ t = respondError .illegalCommand s.accept := by
  unfold runRequest at h
  split at h
  · next i hd => exact .inl ⟨i, hd, h⟩
  · next e hd =>
    obtain ⟨⟨c, rfl⟩, ht⟩ := rejectRequest_next h
    exact .inr ⟨⟨c, hd⟩, ht⟩

theorem beginRequest_next {r : Request} {s t : State} (h : beginRequest r s = .next t) :
    (∃ i, decode s.aw r = .ok i ∧ t = beginInstr i s) ∨
      (∃ c, decode s.aw r = .error (.reservedCommand c)) ∧ t = respondError .illegalCommand s.accept := by
  unfold beginRequest at h
  split at h
  · next i hd => exact .inl ⟨i, hd, (Host.Outcome.next.inj h).symm⟩
  · next e hd =>
    obtain ⟨⟨c, rfl⟩, ht⟩ := rejectRequest_next h
    exact .inr ⟨⟨c, hd⟩, ht⟩

theorem idleStep_next {s t : State} (hp : s.progress = none) (h : idleStep s = .next t) : NextStep s t := by
  unfold idleStep at h
  split at h
  · next hi => cases h; exact .idle hp hi
  · next r rest hi =>
    obtain ⟨i, hd, he⟩ | ⟨⟨c, hd⟩, rfl⟩ := runRequest_next h
    · exact .present hp hi hd he
    · exact .reserved hp (.inl hi) hd
  · next r rest hi =>
    obtain ⟨i, hd, rfl⟩ | ⟨⟨c, hd⟩, rfl⟩ := beginRequest_next h
    · exact .begun hp hi hd
    · exact .reserved hp (.inr hi) hd
  · next rest hi => cases h; exact .idleWait hp hi
  · next rest hi => cases h; exact .reset hi
  · next rest hi => cases h; exact .chipPowerOn hi

theorem busyStep_next {s t : State} {p : Progress} (hp : s.progress = some p) (h : busyStep p s = .next t) :
    NextStep s t := by
  unfold busyStep at h
  split at h
  · next hi =>
    split at h
    · cases h
    · next hw => cases h; exact .busy hp hi (by simpa using hw)
  · cases h
  · cases h
  · next rest hi => cases h; exact .busyWait hp hi
  · next rest hi => cases h; exact .reset hi
  · next rest hi => cases h; exact .chipPowerOn hi

/-- Everything a step with a next state can do: cite it instead of unfolding `step`. -/
theorem step_next {s t : State} (h : step s = .next t) : NextStep s t := by
  cases hp : s.progress with
  | none => exact idleStep_next hp (step_idle hp ▸ h)
  | some p => exact busyStep_next hp (step_busy hp ▸ h)

/-! ## The trace only grows

The trace before a call, a run of the engine, a command or a step is a first part (`<+:`) of the
one after (spec/00_scope.md R10, spec/20_memory.md R76). -/

theorem CallSpec.trace_prefix {c : Call} {s t : State} {r : Reply} (h : CallSpec c s r t) : s.trace <+: t.trace :=
  ⟨callEvents c r, h.trace.symm⟩

theorem doCall_trace_prefix {c : Call} {s t : State} {r : Reply} (h : doCall c s = (r, t)) : s.trace <+: t.trace := by
  simpa [h] using (doCall_spec c s).trace_prefix

theorem release_trace_prefix (a : EngineRun) : a.st.trace <+: (release a).st.trace := by
  cases h : a.stuck with
  | some p => rw [release_stuck h]
  | none =>
    obtain ⟨e, -⟩ | ⟨e, -⟩ | ⟨e, -⟩ := release_cases h <;> rw [e]
    · exact List.prefix_append ..
    · exact List.prefix_append ..

theorem transact_trace_prefix (v : Invocation) (s : State) : s.trace <+: (transact v s).st.trace := by
  obtain ⟨evs, h⟩ := runCalls_trace (framePlan v s.aw) { st := s } rfl rfl
  rw [transact_eq]
  exact .trans ⟨evs, h.trace.symm⟩ (release_trace_prefix _)

theorem runEngine_trace_prefix (i : Instr) (v : Invocation) (s : State) :
    s.trace <+: (runEngine i v (ending i) s).trace := by
  obtain ⟨p, -, e⟩ | ⟨-, e⟩ := runEngine_cases i v (ending i) s <;> rw [e]
  · exact transact_trace_prefix v s
  · rw [(ending_facts i _ _).1]
    exact transact_trace_prefix v s

theorem initCommand_trace_prefix (aw : BitVec 3) (tp cp : Bool) (s : State) :
    s.trace <+: (initCommand aw tp cp s).trace := by
  obtain ⟨-, e⟩ | ⟨-, -, e⟩ | ⟨-, -, r, t, k, -, ⟨-, e⟩ | ⟨-, e⟩ | ⟨qs, -, e⟩⟩ :=
    init_cases aw tp cp s <;> rw [e]
  · exact List.prefix_rfl
  · exact List.prefix_rfl
  · exact k.trace_prefix
  · exact k.trace_prefix
  · exact k.trace_prefix.trans (runEngine_trace_prefix (.init aw tp cp) _ t)

theorem exec_trace_prefix {i : Instr} {s t : State} (h : exec i s = .next t) : s.trace <+: t.trace := by
  obtain ⟨ho, -⟩ | ⟨ho, hi⟩ | ⟨-, aw, tp, cp, rfl⟩ := instr_kinds i
  · by_cases hl : s.lifecycle = .ready
    · cases (exec_operation i s ho hl).symm.trans h
      exact runEngine_trace_prefix i _ s.accept
    · cases (exec_operation_refused i s ho hl).symm.trans h
      exact List.prefix_rfl
  · cases (exec_wire i s ho hi).symm.trans h
    exact runEngine_trace_prefix i _ s.accept
  · cases h
    exact initCommand_trace_prefix aw tp cp s.accept

theorem beginOperation_trace (i : Instr) (s : State) : (beginOperation i s).trace = s.trace := by
  unfold beginOperation; split <;> rfl

theorem beginInit_trace (aw : BitVec 3) (tp cp : Bool) (s : State) : (beginInit aw tp cp s).trace = s.trace := by
  unfold beginInit
  split
  · rfl
  · split <;> rfl

/-- Latching a command makes no call. -/
theorem beginInstr_trace (i : Instr) (s : State) : (beginInstr i s).trace = s.trace := by
  cases i with
  | init aw tp cp => exact beginInit_trace aw tp cp s.accept
  | wren | wrdi | rdsr | wrsr | read | write | rdid => rfl
  | writeEnable | writeByte | writeBytes | readByte | readBytes | getDeviceId | getStatus | setStatus =>
    exact beginOperation_trace _ s.accept

theorem afterOk_trace (p : Progress) (qs : List Byte) (s : State) : (afterOk p qs s).trace = s.trace := by
  unfold afterOk
  split
  · exact (ending_facts ..).1
  all_goals rfl

theorem afterFail_trace (p : Progress) (s : State) : (afterFail p s).trace = s.trace := by
  unfold afterFail
  split
  · exact (ending_facts ..).1
  all_goals rfl

theorem tick_trace_prefix (p : Progress) (s : State) : s.trace <+: (tick p s).trace := by
  unfold tick
  split
  · next e => rw [afterOk_trace]; exact doCall_trace_prefix e
  · next e => rw [afterFail_trace]; exact doCall_trace_prefix e
  · next e => rw [hang_trace]; exact doCall_trace_prefix e

theorem advance_trace_prefix (p : Progress) (s : State) : s.trace <+: (advance p s).trace := by
  unfold advance
  split
  · exact List.prefix_rfl
  · exact tick_trace_prefix p s

theorem NextStep.trace_prefix {s t : State} (h : NextStep s t) : s.trace <+: t.trace := by
  cases h with
  | idle | idleWait | reserved => exact List.prefix_rfl
  | present _ _ _ he => exact (exec_trace_prefix he :)
  | begun => rw [beginInstr_trace]; exact List.prefix_rfl
  | busy => exact tick_trace_prefix _ s
  | @busyWait p rest => exact advance_trace_prefix p (s.setInputs rest)
  | @reset rest => exact (cutFrame_chipOnly (s.setInputs rest)).trace ▸ List.prefix_rfl
  | @chipPowerOn rest => exact (chipPoweredOn_chipOnly (s.setInputs rest)).trace ▸ List.prefix_rfl

/-- Settles O59: in every way a step can go, the trace before is a first part of the trace after. -/
theorem stepOnlyAppendsToTheTrace : Obligations.StepOnlyAppendsToTheTrace := by
  intro s t h
  obtain ⟨evs, e⟩ := (step_next h).trace_prefix
  exact ⟨evs, e.symm⟩

end Sys2Proof.Machine

namespace Sys2Proof.Machine

/-! ## The invariant, part by part

What the invariant says of the block alone, and how to give it back for an idle and for a busy block. -/

/-- The part of the invariant that does not speak of a command in progress. -/
structure Sound (s : State) : Prop where
  aw_pos : 1 ≤ s.aw
  aw_le : s.aw ≤ 4
  lifecycle : s.lifecycle ≠ .identityChecked
  wf : s.chip.mem.wf = true

theorem State.Inv.sound {s : State} (h : s.Inv) : Sound s := by
  obtain ⟨hpos, hle, hl, hwf, -, -⟩ := h
  exact ⟨hpos, hle, hl, hwf⟩

theorem State.Inv.cs_of_idle {s : State} (h : s.Inv) (hp : s.progress = none) : s.cs = false := by
  obtain ⟨-, -, -, -, hcs, -⟩ := h
  exact hcs hp

theorem State.Inv.consistent {s : State} {p : Progress} (h : s.Inv) (hp : s.progress = some p) :
    p.Consistent s := by
  obtain ⟨-, -, -, -, -, hc⟩ := h
  exact hc p hp

theorem Sound.inv_idle {s : State} (h : Sound s) (hp : s.progress = none) (hcs : s.cs = false) : s.Inv := by
  refine ⟨h.aw_pos, h.aw_le, h.lifecycle, h.wf, fun _ => hcs, fun p e => ?_⟩
  rw [hp] at e
  cases e

theorem Sound.inv_busy {s : State} {p : Progress} (h : Sound s) (hp : s.progress = some p)
    (hc : p.Consistent s) : s.Inv := by
  refine ⟨h.aw_pos, h.aw_le, h.lifecycle, h.wf, fun e => ?_, fun q e => ?_⟩
  · rw [hp] at e
    cases e
  · rw [hp] at e
    cases e
    exact hc

theorem Sound.of_keeps {s t : State} (h : Sound s) (k : RunKeeps s t) : Sound t :=
  ⟨k.aw ▸ h.aw_pos, k.aw ▸ h.aw_le, k.lifecycle ▸ h.lifecycle, k.wf h.wf⟩

theorem Sound.setProgress {s : State} (h : Sound s) (p : Option Progress) : Sound (s.setProgress p) :=
  ⟨h.aw_pos, h.aw_le, h.lifecycle, h.wf⟩

theorem gatePassed_congr {i : Instr} {s t : State} (h : gatePassed i s) (hl : t.lifecycle = s.lifecycle)
    (ha : t.aw = s.aw) : gatePassed i t := by
  unfold gatePassed
  rw [hl, ha]
  exact h

theorem ChipOnly.inv {s t : State} (k : ChipOnly s t) (h : s.Inv) : t.Inv := by
  obtain ⟨hpos, hle, hl, hwf, hcs, hc⟩ := h
  rw [k.same]
  exact ⟨hpos, hle, hl, k.wf hwf, hcs, hc⟩

/-! ## Resets and the status output (spec/10_state.md R26, R33) -/

theorem hardwareReset_sound {s : State} (h : Sound s) : Sound (hardwareReset s) :=
  ⟨Nat.le_add_left 1 1, Nat.le_add_left 2 2, nofun, (cutFrame_chipOnly s).wf h.wf⟩

theorem hardwareReset_inv {s : State} (h : s.Inv) : (hardwareReset s).Inv :=
  (hardwareReset_sound h.sound).inv_idle rfl rfl

/-- Settles O1: both states are record literals in the fields named. -/
theorem resetGivesTheResetValues : Obligations.ResetGivesTheResetValues := by
  rintro s (rfl | ⟨s₀, rfl⟩)
  · exact ⟨rfl, rfl, rfl, rfl, rfl, rfl, rfl⟩
  · exact ⟨rfl, rfl, rfl, rfl, rfl, rfl, rfl⟩

theorem initialized_iff_lifecycleCode (s : State) : initialized s = true ↔ lifecycleCode s.lifecycle = 2 := by
  unfold initialized
  cases s.lifecycle <;> decide

/-- Settles O3: of the four lifecycle codes only that of `Ready` is 2; the codes are the tables'. -/
theorem statusOutputShowsTheLifecycle : Obligations.StatusOutputShowsTheLifecycle :=
  ⟨fun s => ⟨initialized_iff_lifecycleCode s, rfl⟩, rfl, rfl, rfl, rfl, rfl, rfl, rfl, rfl, rfl, rfl⟩

/-- Settles O4: the reset state is idle with chip-select inactive, and its array is empty. -/
theorem resetStateMeetsTheInvariant : Obligations.ResetStateMeetsTheInvariant :=
  Sound.inv_idle ⟨by decide, by decide, nofun, reset_mem_wf⟩ rfl rfl

/-! ## One call of a command in progress keeps the invariant (spec/41_transaction_engine.md R136) -/

theorem ending_lifecycle_ne {s : State} (i : Instr) (r : EngineResult) (h : s.lifecycle ≠ .identityChecked) :
    (ending i r s).lifecycle ≠ .identityChecked := by
  obtain ⟨ho, -⟩ | ⟨ho, hi⟩ | ⟨-, aw, tp, cp, rfl⟩ := instr_kinds i
  · obtain ⟨f, hf, -⟩ := ending_operation i ho
    rw [hf, (endOperation_keeps f r s).1]
    exact h
  · rw [ending_wire i ho hi]
    exact h
  · obtain ⟨-, -, hl | hl⟩ := initValidate_keeps r s
    · exact fun e => nomatch hl.symm.trans e
    · exact fun e => nomatch hl.symm.trans e

/-- A command that has released its frame leaves an idle block that meets the invariant. -/
theorem ending_inv {s : State} (i : Instr) (r : EngineResult) (h : Sound s) (hp : s.progress = none)
    (hcs : s.cs = false) : (ending i r s).Inv := by
  obtain ⟨-, hchip, -, haw, hcs', hp'⟩ := ending_facts i r s
  exact Sound.inv_idle ⟨haw ▸ h.aw_pos, haw ▸ h.aw_le, ending_lifecycle_ne i r h.lifecycle, hchip ▸ h.wf⟩
    (hp'.trans hp) (hcs'.trans hcs)

/-- The phases after `SEL`: chip-select stands active in them until the release is asked for. -/
def Phase.inFrame : Phase → Bool
  | .idleLevel => false
  | .sel => false
  | .opc => true
  | .adr _ => true
  | .wr _ => true
  | .rd _ => true
  | .desel => true

/-- A phase inside the frame, its byte index in range, that `n` received bytes come before. -/
structure PhaseAt (v : Invocation) (aw n : Nat) (ph : Phase) : Prop where
  inRange : phaseInRange v aw ph
  received : receivedSoFar v ph = n
  inFrame : ph.inFrame = true

theorem phaseAt_firstRead (v : Invocation) (aw : Nat) : PhaseAt v aw 0 (if 0 < v.nread then .rd 0 else .desel) := by
  split
  · exact ⟨‹_›, rfl, rfl⟩
  · exact ⟨trivial, by simp only [receivedSoFar]; omega, rfl⟩

theorem phaseAt_afterAddress (v : Invocation) (aw : Nat) : PhaseAt v aw 0 (afterAddress v) := by
  unfold afterAddress
  split
  · exact ⟨‹_›, rfl, rfl⟩
  · exact phaseAt_firstRead v aw

/-- "Next phase when `ok`" of R136 lies in the frame, past the bytes that the call of the phase received. -/
theorem phaseAt_nextPhase {v : Invocation} {aw : Nat} {ph : Phase} (haw : 1 ≤ aw) (h : phaseInRange v aw ph)
    (hi : ph ≠ .idleLevel) (hd : ph ≠ .desel) :
    PhaseAt v aw (receivedSoFar v ph + receives (phaseCall v aw ph)) (nextPhase v aw ph) := by
  cases ph with
  | idleLevel => exact absurd rfl hi
  | desel => exact absurd rfl hd
  | sel => exact ⟨trivial, rfl, rfl⟩
  | opc =>
    simp only [nextPhase]
    split
    · exact ⟨⟨‹_›, haw⟩, rfl, rfl⟩
    · exact phaseAt_afterAddress v aw
  | adr j =>
    simp only [nextPhase]
    split
    · exact ⟨⟨h.1, ‹_›⟩, rfl, rfl⟩
    · exact phaseAt_afterAddress v aw
  | wr k =>
    simp only [nextPhase]
    split
    · exact ⟨‹_›, rfl, rfl⟩
    · exact phaseAt_firstRead v aw
  | rd k =>
    simp only [nextPhase, phaseInRange] at h ⊢
    split
    · exact ⟨‹_›, rfl, rfl⟩
    · exact ⟨trivial, by simp only [receivedSoFar, receives, phaseCall]; omega, rfl⟩

theorem lineLevel_inFrame {p : Progress} (h : p.phase.inFrame = true) (hw : p.waiting = false) :
    lineLevel p = true := by
  obtain ⟨i, ph, rb, f, w⟩ := p
  subst hw
  cases ph with
  | idleLevel | sel => cases h
  | opc | adr | wr | rd | desel => rfl

/-- The level that the call of a phase asks for is that of the phase with its call made (R135). -/
theorem requestLevel_cs {p : Progress} {s : State} (v : Invocation) (aw : Nat) (h : s.cs = lineLevel p)
    (hw : p.waiting = false) :
    (requestLevel (phaseCall v aw p.phase) s).cs = lineLevel { p with waiting := true } := by
  obtain ⟨i, ph, rb, f, w⟩ := p
  subst hw
  cases ph with
  | idleLevel | sel | desel => rfl
  | opc | adr | wr | rd => exact h

/-- The call of a phase has been made: whatever its answer, the command in progress fits the state after
it, as one that waits for the answer. -/
theorem Progress.Consistent.called {p : Progress} {s t : State} {r : Reply} (h : p.Consistent s)
    (hw : p.waiting = false) (k : CallSpec (phaseCall (invocation p.instr) s.aw p.phase) s r t) :
    { p with waiting := true }.Consistent t := by
  obtain ⟨hrange, hidle, hcs, hgate, hfail, hrecv, hresp, hres⟩ := h
  exact ⟨k.aw ▸ hrange, hidle, k.cs.trans (requestLevel_cs _ _ hcs hw), gatePassed_congr hgate k.lifecycle k.aw,
    hfail, hrecv, k.response.trans hresp, k.engineResult.trans hres⟩

theorem afterOk_of_ne_desel {p : Progress} {qs : List Byte} {s : State} (hd : p.phase ≠ .desel)
    (hq : qs.length = receives (phaseCall (invocation p.instr) s.aw p.phase)) :
    afterOk p qs s = s.setProgress (some
      { p with phase := nextPhase (invocation p.instr) s.aw p.phase, rbytes := p.rbytes ++ qs }) := by
  obtain ⟨i, ph, rb, f, w⟩ := p
  cases ph with
  | desel => exact absurd rfl hd
  | rd k => rfl
  | idleLevel | sel | opc | adr | wr =>
    obtain rfl := List.length_eq_zero_iff.mp hq
    simp only [afterOk, List.append_nil]

theorem afterFail_of_frame {p : Progress} {s : State} (hi : p.phase ≠ .idleLevel) (hd : p.phase ≠ .desel) :
    afterFail p s = s.setProgress (some { p with phase := .desel, failed := true }) := by
  obtain ⟨i, ph, rb, f, w⟩ := p
  cases ph with
  | idleLevel => exact absurd rfl hi
  | desel => exact absurd rfl hd
  | sel | opc | adr | wr | rd => rfl

/-- Inside the frame chip-select stands active once the call of the phase is made, the release apart. -/
theorem lineLevel_called {p : Progress} (hi : p.phase ≠ .idleLevel) (hd : p.phase ≠ .desel) :
    lineLevel { p with waiting := true } = true := by
  obtain ⟨i, ph, rb, f, w⟩ := p
  cases ph with
  | idleLevel => exact absurd rfl hi
  | desel => exact absurd rfl hd
  | sel | opc | adr | wr | rd => rfl

/-- A call answered `ok` that is not the release: the command stands at the next phase and fits the state. -/
theorem consistent_nextPhase {p : Progress} {qs : List Byte} {t : State} (haw : 1 ≤ t.aw)
    (hc : { p with waiting := true }.Consistent t) (hw : p.waiting = false) (hd : p.phase ≠ .desel)
    (hq : qs.length = receives (phaseCall (invocation p.instr) t.aw p.phase)) :
    { p with phase := nextPhase (invocation p.instr) t.aw p.phase, rbytes := p.rbytes ++ qs }.Consistent t := by
  obtain ⟨hrange, -, hcs, hgate, hfail, hrecv, hresp, hres⟩ := hc
  have hf : p.failed = false := by simpa [hd] using hfail
  by_cases hi : p.phase = .idleLevel
  · simp only [hi, phaseCall, receives, receivedSoFar, nextPhase, lineLevel] at hq hrecv hcs ⊢
    refine ⟨trivial, nofun, hcs.trans hw.symm, hgate, fun e => absurd e (by simp [hf]), fun _ => ?_, hresp, hres⟩
    rw [List.length_append, hrecv hf, hq]
    rfl
  · obtain ⟨hr, hn, hin⟩ := phaseAt_nextPhase haw hrange hi hd
    refine ⟨hr, fun e => ?_, ?_, hgate, fun e => absurd e (by simp [hf]), fun _ => ?_, hresp, hres⟩
    · exact absurd (e ▸ hin : Phase.idleLevel.inFrame = true) nofun
    · exact (hcs.trans (lineLevel_called hi hd)).trans (Eq.symm (lineLevel_inFrame hin hw))
    · rw [hn, List.length_append, hrecv hf, hq]

theorem afterOk_inv {p : Progress} {qs : List Byte} {t : State} (h : Sound t)
    (hc : { p with waiting := true }.Consistent t) (hw : p.waiting = false)
    (hq : qs.length = receives (phaseCall (invocation p.instr) t.aw p.phase)) : (afterOk p qs t).Inv := by
  by_cases hd : p.phase = .desel
  · obtain ⟨-, -, hcs, -⟩ := hc
    simp only [afterOk, hd]
    exact ending_inv p.instr _ (h.setProgress none) rfl (by simpa [lineLevel, hd] using hcs)
  · rw [afterOk_of_ne_desel hd hq]
    exact (h.setProgress _).inv_busy rfl (consistent_nextPhase h.aw_pos hc hw hd hq)

theorem afterFail_inv {p : Progress} {t : State} (h : Sound t) (hc : { p with waiting := true }.Consistent t)
    (hw : p.waiting = false) : (afterFail p t).Inv := by
  obtain ⟨-, -, hcs, hgate, -, -, hresp, hres⟩ := hc
  by_cases hd : p.phase = .desel
  · simp only [afterFail, hd]
    exact ending_inv p.instr _ (h.setProgress none) rfl (by simpa [lineLevel, hd] using hcs)
  by_cases hi : p.phase = .idleLevel
  · simp only [afterFail, hi]
    exact Sound.inv_idle ⟨h.aw_pos, h.aw_le, nofun, h.wf⟩ rfl (by simpa [lineLevel, hi] using hcs)
  · rw [afterFail_of_frame hi hd]
    refine (h.setProgress _).inv_busy rfl
      ⟨trivial, nofun, ?_, hgate, fun _ => rfl, nofun, hresp, hres⟩
    exact (hcs.trans (lineLevel_called hi hd)).trans (Eq.symm (lineLevel_inFrame rfl hw))

/-- The three ways R136 goes on from the answer to a phase's call. -/
def afterReply (p : Progress) : Reply → State → State
  | .ok qs, t => afterOk p qs t
  | .fail, t => afterFail p t
  | .never, t => hang p t

theorem callSpec_of_doCall {c : Call} {s t : State} {r : Reply} (e : doCall c s = (r, t)) : CallSpec c s r t := by
  simpa [e] using doCall_spec c s

theorem tick_of_doCall {p : Progress} {s t : State} {c : Call} {r : Reply}
    (hc : phaseCall (invocation p.instr) s.aw p.phase = c) (e : doCall c s = (r, t)) :
    tick p s = afterReply p r t := by
  unfold tick
  rw [hc, e]
  cases r <;> rfl

/-- The invariant through one transport call, whatever its answer. -/
theorem tick_inv {p : Progress} {s : State} (h : s.Inv) (hp : s.progress = some p) (hw : p.waiting = false) :
    (tick p s).Inv := by
  rcases e : doCall (phaseCall (invocation p.instr) s.aw p.phase) s with ⟨r, t⟩
  have k := callSpec_of_doCall e
  have hc := (h.consistent hp).called hw k
  have hs := h.sound.of_keeps k.keeps
  rw [tick_of_doCall rfl e]
  cases r with
  | ok qs => exact afterOk_inv hs hc hw (k.aw ▸ k.count qs rfl)
  | fail => exact afterFail_inv hs hc hw
  | never => exact (hs.setProgress _).inv_busy rfl hc

theorem advance_inv {p : Progress} {s : State} (h : s.Inv) (hp : s.progress = some p) : (advance p s).Inv := by
  unfold advance
  split
  · exact h
  · next hw => exact tick_inv h hp (by simpa using hw)

/-- The invariant through any number of calls of the command in progress. -/
theorem drive_inv (n : Nat) {s : State} (h : s.Inv) : (drive n s).Inv := by
  induction n generalizing s with
  | zero => exact h
  | succ n ih =>
    unfold drive
    split
    · exact h
    · next p hp =>
      split
      · exact h
      · next hw => exact ih (tick_inv h hp (by simpa using hw))

/-! ## Latching a command keeps the invariant -/

theorem latch_inv {i : Instr} {s : State} (h : s.Inv) (hp : s.progress = none) (hresp : s.response = none)
    (hres : s.engineResult = none) (hg : gatePassed i s) : (latch i .sel s).Inv :=
  (h.sound.setProgress _).inv_busy rfl
    ⟨trivial, nofun, h.cs_of_idle hp, hg, nofun, fun _ => rfl, hresp, hres⟩

theorem latchInit_inv {aw : BitVec 3} {tp cp : Bool} {s : State} (h : s.Inv) (hp : s.progress = none)
    (hresp : s.response = none) (hres : s.engineResult = none) (hl : s.lifecycle = .uninitialized)
    (hr : initRefusal aw tp cp = none) : (latch (.init aw tp cp) .idleLevel (s.setWidth aw.toNat)).Inv := by
  obtain ⟨-, -, hpos, hle⟩ := initRefusal_none.mp hr
  refine Sound.inv_busy ⟨hpos, hle, h.sound.lifecycle, h.sound.wf⟩ rfl
    ⟨trivial, fun _ => rfl, h.cs_of_idle hp, ⟨nofun, fun aw' tp' cp' e => ?_⟩, nofun, fun _ => rfl, hresp, hres⟩
  cases e
  exact ⟨hl, hr, rfl⟩

theorem respondError_inv {s : State} (e : Status) (h : s.Inv) (hp : s.progress = none) :
    (respondError e s).Inv :=
  Sound.inv_idle ⟨h.sound.aw_pos, h.sound.aw_le, h.sound.lifecycle, h.sound.wf⟩ hp (h.cs_of_idle hp)

theorem initFail_inv {s : State} (e : Status) (h : s.Inv) (hp : s.progress = none) : (initFail e s).Inv :=
  Sound.inv_idle ⟨h.sound.aw_pos, h.sound.aw_le, nofun, h.sound.wf⟩ hp (h.cs_of_idle hp)

theorem accept_inv {s : State} (h : s.Inv) (hp : s.progress = none) : s.accept.Inv :=
  Sound.inv_idle ⟨h.sound.aw_pos, h.sound.aw_le, h.sound.lifecycle, h.sound.wf⟩ hp (h.cs_of_idle hp)

theorem beginInstr_wire (i : Instr) (s : State) (ho : isOperation i = false) (hi : isInit i = false) :
    beginInstr i s = latch i .sel s.accept := by
  cases i with
  | init => cases hi
  | writeEnable | writeByte | writeBytes | readByte | readBytes | getDeviceId | getStatus | setStatus => cases ho
  | wren | wrdi | rdsr | wrsr | read | write | rdid => rfl

theorem beginInstr_operation (i : Instr) (s : State) (ho : isOperation i = true) :
    beginInstr i s = beginOperation i s.accept := by
  cases i with
  | init | wren | wrdi | rdsr | wrsr | read | write | rdid => cases ho
  | writeEnable | writeByte | writeBytes | readByte | readBytes | getDeviceId | getStatus | setStatus => rfl

/-- Only INIT and the operations have a gating test. -/
theorem gatePassed_of_ready {i : Instr} {s : State} (hi : isInit i = false)
    (hg : isOperation i = true → s.lifecycle = .ready) : gatePassed i s :=
  ⟨hg, fun _ _ _ e => by subst e; cases hi⟩

theorem beginInit_cases (aw : BitVec 3) (tp cp : Bool) (s : State) :
    (s.lifecycle ≠ .uninitialized ∧ beginInit aw tp cp s = respondError .stateError s) ∨
    (s.lifecycle = .uninitialized ∧ ∃ e, initRefusal aw tp cp = some e ∧ beginInit aw tp cp s = initFail e s) ∨
    (s.lifecycle = .uninitialized ∧ initRefusal aw tp cp = none ∧
      beginInit aw tp cp s = latch (.init aw tp cp) .idleLevel (s.setWidth aw.toNat)) := by
  unfold beginInit
  split
  · next hl => exact .inl ⟨hl, rfl⟩
  · next hl =>
    have hl := not_not.mp hl
    split
    · next e hr => exact .inr (.inl ⟨hl, e, hr, rfl⟩)
    · next hr => exact .inr (.inr ⟨hl, hr, rfl⟩)

theorem beginInstr_inv (i : Instr) {s : State} (h : s.Inv) (hp : s.progress = none) : (beginInstr i s).Inv := by
  have ha := accept_inv h hp
  obtain ⟨ho, hi⟩ | ⟨ho, hi⟩ | ⟨-, aw, tp, cp, rfl⟩ := instr_kinds i
  · rw [beginInstr_operation i s ho]
    unfold beginOperation
    split
    · exact respondError_inv _ ha hp
    · next hl => exact latch_inv ha hp rfl rfl (gatePassed_of_ready hi fun _ => not_not.mp hl)
  · rw [beginInstr_wire i s ho hi]
    exact latch_inv ha hp rfl rfl (gatePassed_of_ready hi fun e => absurd e (by simp [ho]))
  · show (beginInit aw tp cp s.accept).Inv
    obtain ⟨-, e⟩ | ⟨-, _, -, e⟩ | ⟨hl, hr, e⟩ := beginInit_cases aw tp cp s.accept <;> rw [e]
    · exact respondError_inv _ ha hp
    · exact initFail_inv _ ha hp
    · exact latchInit_inv ha hp rfl rfl hl hr

/-! ## The command run in one step is its calls one by one (spec/41_transaction_engine.md R136) -/

/-- The calls of a frame before the release, in the order in which R136's phases make them from phase `ph`. -/
inductive CallsFrom (v : Invocation) (aw : Nat) : Phase → List (Phase × Call) → Prop where
  | release : CallsFrom v aw .desel []
  | call {ph : Phase} {c : Call} {l : List (Phase × Call)} (hi : ph ≠ .idleLevel) (hd : ph ≠ .desel)
      (hc : phaseCall v aw ph = c) (rest : CallsFrom v aw (nextPhase v aw ph) l) : CallsFrom v aw ph ((ph, c) :: l)

theorem callsFrom_reads (v : Invocation) (aw : Nat) (n k : Nat) (h : k + n = v.nread) :
    CallsFrom v aw (if k < v.nread then .rd k else .desel) (planReads k n) := by
  induction n generalizing k with
  | zero =>
    rw [if_neg (by omega)]
    exact .release
  | succ n ih =>
    rw [if_pos (by omega)]
    exact .call nofun nofun rfl (ih (k + 1) (by omega))

/-- The byte that R136's index `k` names is the first of those not yet sent. -/
theorem of_drop_eq_cons {l bs : List Byte} {b : Byte} {k : Nat} (h : l.drop k = b :: bs) :
    k < l.length ∧ l.getD k 0 = b ∧ l.drop (k + 1) = bs := by
  have hk : k < l.length := by
    by_contra hk
    simp [List.drop_eq_nil_of_le (not_lt.mp hk)] at h
  rw [List.drop_eq_getElem_cons hk] at h
  obtain ⟨hb, hbs⟩ := List.cons.inj h
  exact ⟨hk, by simp [hk, hb], hbs⟩

theorem callsFrom_writes (v : Invocation) (aw : Nat) (bs : List Byte) (k : Nat) (h : v.wbytes.drop k = bs) :
    CallsFrom v aw (if k < v.wbytes.length then .wr k else if 0 < v.nread then .rd 0 else .desel)
      (planBytes .wr k bs ++ planReads 0 v.nread) := by
  induction bs generalizing k with
  | nil =>
    rw [if_neg (by simpa using h)]
    exact callsFrom_reads v aw v.nread 0 (Nat.zero_add _)
  | cons b bs ih =>
    obtain ⟨hk, hb, hbs⟩ := of_drop_eq_cons h
    rw [if_pos hk]
    exact .call nofun nofun (congrArg Call.tx hb) (ih (k + 1) hbs)

theorem callsFrom_afterAddress (v : Invocation) (aw : Nat) :
    CallsFrom v aw (afterAddress v) (planBytes .wr 0 v.wbytes ++ planReads 0 v.nread) :=
  callsFrom_writes v aw v.wbytes 0 rfl

theorem callsFrom_address (v : Invocation) (aw : Nat) (bs : List Byte) (j : Nat)
    (h : (encodeAddr v.addr aw).drop j = bs) :
    CallsFrom v aw (if j < aw then .adr j else afterAddress v)
      (planBytes .adr j bs ++ (planBytes .wr 0 v.wbytes ++ planReads 0 v.nread)) := by
  induction bs generalizing j with
  | nil =>
    rw [if_neg (by simpa using h)]
    exact callsFrom_afterAddress v aw
  | cons b bs ih =>
    obtain ⟨hj, hb, hbs⟩ := of_drop_eq_cons h
    rw [if_pos (by simpa using hj)]
    exact .call nofun nofun (congrArg Call.tx hb) (ih (j + 1) hbs)

/-- The plan of a frame is R136's table read from `SEL`. -/
theorem callsFrom_framePlan (v : Invocation) {aw : Nat} (haw : 1 ≤ aw) :
    CallsFrom v aw .sel (framePlan v aw) := by
  unfold framePlan
  simp only [List.append_assoc]
  refine .call nofun nofun rfl (.call nofun nofun rfl ?_)
  simp only [nextPhase]
  cases v.d.addressed with
  | true => simpa [show 0 < aw from haw] using callsFrom_address v aw _ 0 rfl
  | false => exact callsFrom_afterAddress v aw

/-- The transient state of the command `i` at phase `ph` of the engine run `a`, its call not yet made. -/
def latched (i : Instr) (ph : Phase) (a : EngineRun) : Progress :=
  { instr := i, phase := ph, rbytes := a.rbytes, failed := a.failed, waiting := false }

/-- The block in the course of the engine run `a`, stepped call by call. -/
def standing (i : Instr) (ph : Phase) (a : EngineRun) : State := a.st.setProgress (some (latched i ph a))

/-- The command `i` after its engine run `a`: it waits for an answer, or it has ended. -/
def afterRun (i : Instr) (a : EngineRun) : State :=
  match a.stuck with
  | some ph => hang { instr := i, phase := ph, rbytes := a.rbytes, failed := a.failed, waiting := true } a.st
  | none => ending i (engineReturn a.failed a.rbytes) a.st

theorem runEngine_eq_afterRun (i : Instr) (v : Invocation) (s : State) :
    runEngine i v (ending i) s = afterRun i (transact v s) := rfl

theorem drive_idle (n : Nat) {s : State} (h : s.progress = none) : drive n s = s := by
  cases n with
  | zero => rfl
  | succ n => simp [drive, h]

theorem drive_hang (n : Nat) (p : Progress) (s : State) : drive n (hang p s) = hang p s := by
  cases n with
  | zero => rfl
  | succ n => simp [drive]

/-- Taking a command off an idle block gives the block back. -/
theorem unlatch {s : State} {p : Option Progress} (h : s.progress = none) :
    (s.setProgress p).setProgress none = s :=
  setProgress_none h

/-- One call of the command in progress: what the call does is the same as with no command latched. -/
theorem drive_call (n : Nat) (p : Progress) {s t : State} {c : Call} {r : Reply} (hw : p.waiting = false)
    (hc : phaseCall (invocation p.instr) s.aw p.phase = c) (e : doCall c s = (r, t)) :
    drive (n + 1) (s.setProgress (some p)) = drive n (afterReply p r (t.setProgress (some p))) := by
  rw [← tick_of_doCall (s := s.setProgress (some p)) hc (by rw [doCall_setProgress, e])]
  simp [drive, hw]

theorem drive_ending (n : Nat) (i : Instr) (x : EngineResult) {s : State} (hp : s.progress = none) :
    drive n (ending i x s) = ending i x s := by
  obtain ⟨-, -, -, -, -, hp'⟩ := ending_facts i x s
  exact drive_idle n (hp'.trans hp)

/-- The release is the last call, whatever its answer. -/
theorem drive_release (i : Instr) (a : EngineRun) {n : Nat} (hn : 1 ≤ n) (hs : a.stuck = none)
    (hp : a.st.progress = none) : drive n (standing i .desel a) = afterRun i (release a) := by
  obtain ⟨m, rfl⟩ := Nat.exists_eq_add_of_le' hn
  have hrel : release a = attempt .desel (.cs false) a := by simp [release, hs]
  obtain ⟨r, t, e, k, hcase⟩ := attempt_cases .desel (.cs false) a
  have ht : t.progress = none := k.progress.trans hp
  rw [hrel, standing, drive_call m (latched i .desel a) (c := .cs false) rfl rfl e]
  obtain ⟨qs, rfl, ha⟩ | ⟨rfl, ha⟩ | ⟨rfl, ha⟩ := hcase <;> rw [ha]
  · obtain rfl := List.length_eq_zero_iff.mp (k.count qs rfl)
    simp only [afterReply, afterOk, latched, unlatch ht, drive_ending m i _ ht, afterRun, hs, List.append_nil]
  · simp only [afterReply, afterFail, latched, unlatch ht, drive_ending m i _ ht, afterRun, hs]
  · exact drive_hang m _ _

/-- From any phase of the frame on, the calls one by one end where the engine's run ends. -/
theorem drive_frame (i : Instr) {aw : Nat} {ph : Phase} {l : List (Phase × Call)}
    (hl : CallsFrom (invocation i) aw ph l) (a : EngineRun) {n : Nat} (hn : l.length + 1 ≤ n) (haw : a.st.aw = aw)
    (hf : a.failed = false) (hs : a.stuck = none) (hp : a.st.progress = none) :
    drive n (standing i ph a) = afterRun i (release (runCalls l a)) := by
  induction hl generalizing a n with
  | release => exact drive_release i a hn hs hp
  | @call ph c l hi hd hc rest ih =>
    obtain ⟨m, rfl⟩ := Nat.exists_eq_add_of_le' (Nat.le_of_add_left_le hn)
    simp only [List.length_cons] at hn
    have hg : guarded ph c a = attempt ph c a := by simp [guarded, hf, hs]
    obtain ⟨r, t, e, k, hcase⟩ := attempt_cases ph c a
    have ht : t.progress = none := k.progress.trans hp
    rw [runCalls_cons, hg, standing, drive_call m (latched i ph a) rfl (haw ▸ hc) e]
    obtain ⟨qs, rfl, ha⟩ | ⟨rfl, ha⟩ | ⟨rfl, ha⟩ := hcase <;> rw [ha]
    · rw [← ih { a with st := t, rbytes := a.rbytes ++ qs } (n := m) (by omega) (k.aw.trans haw) hf hs ht]
      have hq : qs.length = receives (phaseCall (invocation i) (t.setProgress (some (latched i ph a))).aw ph) := by
        rw [State.setProgress_aw, k.aw, haw, hc]
        exact k.count qs rfl
      simp only [afterReply, afterOk_of_ne_desel (p := latched i ph a) hd hq, State.setProgress_aw, k.aw, haw]
      rfl
    · have hrel := drive_release i { a with st := t, failed := true } (n := m) (by omega) hs ht
      rw [runCalls_stopped l (by simp), ← hrel]
      simp only [afterReply, afterFail_of_frame (p := latched i ph a) hi hd]
      rfl
    · rw [runCalls_stopped l (by simp), release_stuck rfl]
      exact drive_hang m _ _

/-- A whole frame, call by call from `SEL`. -/
theorem drive_latch (i : Instr) {s : State} {n : Nat} (haw : 1 ≤ s.aw) (hp : s.progress = none)
    (hn : frameCalls (invocation i) s.aw ≤ n) :
    drive n (latch i .sel s) = runEngine i (invocation i) (ending i) s := by
  rw [runEngine_eq_afterRun, transact_eq]
  exact drive_frame i (callsFrom_framePlan _ haw) { st := s } (by rwa [framePlan_length]) rfl rfl rfl hp

/-- INIT from its step 3: one call for the idle level, then the frame (spec/43_initialization.md R188). -/
theorem drive_latchInit {aw : BitVec 3} {tp cp : Bool} {s : State} {n : Nat} (hl : s.lifecycle = .uninitialized)
    (hr : initRefusal aw tp cp = none) (hp : s.progress = none)
    (hn : frameCalls (invocation (.init aw tp cp)) s.aw + 1 ≤ n) :
    drive n (latch (.init aw tp cp) .idleLevel (s.setWidth aw.toNat)) = initCommand aw tp cp s := by
  obtain ⟨m, rfl⟩ := Nat.exists_eq_add_of_le' (Nat.le_of_add_left_le hn)
  obtain ⟨-, -, hpos, -⟩ := initRefusal_none.mp hr
  obtain ⟨hl', -⟩ | ⟨-, hr', -⟩ | ⟨-, -, r, t, k, e, hcase⟩ := init_cases aw tp cp s
  · exact absurd hl hl'
  · exact nomatch hr.symm.trans hr'
  have ht : t.progress = none := k.progress.trans hp
  rw [latch, drive_call m _ (c := .cs false) rfl rfl e]
  obtain ⟨rfl, hi⟩ | ⟨rfl, hi⟩ | ⟨qs, rfl, hi⟩ := hcase <;> rw [hi]
  · exact drive_hang m _ _
  · simp only [afterReply, afterFail]
    rw [unlatch ht]
    exact drive_idle m ht
  · refine Eq.trans ?_ (drive_latch (.init aw tp cp) (n := m) (k.aw ▸ hpos) ht (Nat.le_of_succ_le_succ hn))
    rfl

theorem drive_beginOperation (i : Instr) {s : State} {n : Nat} (haw : 1 ≤ s.aw) (hp : s.progress = none)
    (hn : frameCalls (invocation i) s.aw ≤ n) :
    drive n (beginOperation i s) = if s.lifecycle ≠ .ready then respondError .stateError s
      else runEngine i (invocation i) (ending i) s := by
  unfold beginOperation
  split
  · exact drive_idle n hp
  · exact drive_latch i haw hp hn

theorem drive_beginInit {aw : BitVec 3} {tp cp : Bool} {s : State} {n : Nat} (hp : s.progress = none)
    (hn : frameCalls (invocation (.init aw tp cp)) s.aw + 1 ≤ n) :
    drive n (beginInit aw tp cp s) = initCommand aw tp cp s := by
  obtain ⟨hl, e⟩ | ⟨hl, x, hr, e⟩ | ⟨hl, hr, e⟩ := beginInit_cases aw tp cp s <;> rw [e]
  · rw [drive_idle n (s := respondError .stateError s) hp]
    simp [initCommand, hl]
  · rw [drive_idle n (s := initFail x s) hp]
    simp [initCommand, hl, hr]
  · exact drive_latchInit hl hr hp hn

/-- The command run in one step ends where it ends when it is begun and stepped call by call. -/
theorem exec_eq_drive (i : Instr) {s : State} {n : Nat} (haw : 1 ≤ s.aw) (hp : s.progress = none)
    (hn : frameCalls (invocation i) s.aw + 1 ≤ n) : exec i s = .next (drive n (beginInstr i s)) := by
  obtain ⟨ho, -⟩ | ⟨ho, hi⟩ | ⟨-, aw, tp, cp, rfl⟩ := instr_kinds i
  · rw [beginInstr_operation i s ho, drive_beginOperation i (s := s.accept) haw hp (Nat.le_of_succ_le hn)]
    split
    · next hl => exact exec_operation_refused i s ho hl
    · next hl => exact exec_operation i s ho (not_not.mp hl)
  · rw [beginInstr_wire i s ho hi, drive_latch i (s := s.accept) haw hp (Nat.le_of_succ_le hn)]
    exact exec_wire i s ho hi
  · exact congrArg Host.Outcome.next (drive_beginInit (s := s.accept) hp hn).symm

theorem exec_inv {i : Instr} {s t : State} (h : s.Inv) (hp : s.progress = none) (he : exec i s = .next t) :
    t.Inv := by
  cases (exec_eq_drive i h.sound.aw_pos hp le_rfl).symm.trans he
  exact drive_inv _ (beginInstr_inv i h hp)

theorem NextStep.inv {s t : State} (n : NextStep s t) (h : s.Inv) : t.Inv := by
  have taken (es : List HostEvent) : (s.setInputs es).Inv := h
  cases n with
  | idle | idleWait => exact h
  | @present _ rest _ _ hp _ _ he => exact exec_inv (taken rest) hp he
  | @begun _ rest i hp => exact beginInstr_inv i (taken rest) hp
  | @reserved _ rest _ hp => exact respondError_inv _ (accept_inv (taken rest) hp) hp
  | busy hp _ hw => exact tick_inv h hp hw
  | @busyWait p rest hp => exact advance_inv (taken rest) hp
  | @reset rest => exact hardwareReset_inv (taken rest)
  | @chipPowerOn rest => exact (chipPoweredOn_chipOnly _).inv (taken rest)

/-- Settles O5: a command run whole ends where its calls one by one end, and latching a command, each call,
a reset and a power-on of the chip keep the invariant. -/
theorem stepKeepsTheInvariant : Obligations.StepKeepsTheInvariant :=
  fun _ _ h he => (step_next he).inv h

/-! ## How a command ends (spec/10_state.md R25, spec/70_reset_and_hazards.md R251) -/

/-- The command `i` has made a call that is never answered, and no result is pending. -/
def Waits (i : Instr) (t : State) : Prop :=
  ∃ p, t.progress = some p ∧ p.instr = i ∧ p.waiting = true ∧ t.response = none ∧ t.engineResult = none

/-- The block is idle with a response pending, and no result of the engine's port. -/
def Answered (t : State) : Prop :=
  t.progress = none ∧ (∃ r, t.response = some r) ∧ t.engineResult = none

/-- The block is idle with no result pending. -/
structure IdleNoResult (s : State) : Prop where
  progress : s.progress = none
  response : s.response = none
  engineResult : s.engineResult = none

theorem accept_idleNoResult {s : State} (h : s.progress = none) : IdleNoResult s.accept := ⟨h, rfl, rfl⟩

theorem IdleNoResult.of_keeps {s t : State} (h : IdleNoResult s) (k : RunKeeps s t) : IdleNoResult t :=
  ⟨k.progress.trans h.progress, k.response.trans h.response, k.engineResult.trans h.engineResult⟩

theorem IdleNoResult.answered_respondError {s : State} (h : IdleNoResult s) (e : Status) :
    Answered (respondError e s) :=
  ⟨h.progress, ⟨_, rfl⟩, h.engineResult⟩

theorem IdleNoResult.answered_initFail {s : State} (h : IdleNoResult s) (e : Status) : Answered (initFail e s) :=
  ⟨h.progress, ⟨_, rfl⟩, h.engineResult⟩

theorem IdleNoResult.answered_endOperation {s : State} (h : IdleNoResult s) (f : List Byte → Response)
    (r : EngineResult) : Answered (endOperation f r s) := by
  obtain ⟨same, hr⟩ := endOperation_keeps f r s
  exact ⟨by rw [same]; exact h.progress, hr, by rw [same]; exact h.engineResult⟩

theorem IdleNoResult.answered_initValidate {s : State} (h : IdleNoResult s) (r : EngineResult) :
    Answered (initValidate r s) := by
  obtain ⟨same, hr, -⟩ := initValidate_keeps r s
  exact ⟨by rw [same]; exact h.progress, hr, by rw [same]; exact h.engineResult⟩

/-- A run of the engine waits, or hands its result to the ending in a state with no result pending. -/
theorem runEngine_waits_or_ends (i : Instr) (v : Invocation) (k : EngineResult → State → State) {s : State}
    (h : IdleNoResult s) :
    Waits i (runEngine i v k s) ∨ ∃ r t, runEngine i v k s = k r t ∧ IdleNoResult t := by
  have ht := h.of_keeps (transact_keeps v s)
  obtain ⟨ph, -, e⟩ | ⟨-, e⟩ := runEngine_cases i v k s <;> rw [e]
  · exact .inl ⟨_, rfl, rfl, rfl, ht.response, ht.engineResult⟩
  · exact .inr ⟨_, _, rfl, ht⟩

theorem operation_waits_or_answered {i : Instr} {s t : State} (ho : isOperation i = true) (hp : s.progress = none)
    (he : exec i s = .next t) : Waits i t ∨ Answered t := by
  by_cases hl : s.lifecycle = .ready
  · cases (exec_operation i s ho hl).symm.trans he
    obtain ⟨f, hf, -⟩ := ending_operation i ho
    refine (runEngine_waits_or_ends i _ _ (accept_idleNoResult hp)).imp_right ?_
    rintro ⟨r, u, e, hu⟩
    rw [e, hf]
    exact hu.answered_endOperation f r
  · cases (exec_operation_refused i s ho hl).symm.trans he
    exact .inr ⟨hp, ⟨_, rfl⟩, rfl⟩

theorem init_waits_or_answered (aw : BitVec 3) (tp cp : Bool) {s : State} (h : IdleNoResult s) :
    Waits (.init aw tp cp) (initCommand aw tp cp s) ∨ Answered (initCommand aw tp cp s) := by
  obtain ⟨-, e⟩ | ⟨-, -, e⟩ | ⟨-, -, r, t, k, -, hcase⟩ := init_cases aw tp cp s
  · exact .inr (e ▸ h.answered_respondError _)
  · exact .inr (e ▸ h.answered_initFail _)
  have hs : IdleNoResult (s.setWidth aw.toNat) := ⟨h.progress, h.response, h.engineResult⟩
  have ht := hs.of_keeps k.keeps
  obtain ⟨-, e⟩ | ⟨-, e⟩ | ⟨-, -, e⟩ := hcase <;> rw [e]
  · exact .inl ⟨_, rfl, rfl, rfl, ht.response, ht.engineResult⟩
  · exact .inr (ht.answered_initFail _)
  · refine (runEngine_waits_or_ends _ _ _ ht).imp_right ?_
    rintro ⟨r, u, e, hu⟩
    exact e ▸ hu.answered_initValidate r

/-- Settles O40: a run of the engine waits or ends; what ends an operation or INIT is a response, what ends a
run at the engine's port is the engine's result. -/
theorem everyCommandEndsOrWaits : Obligations.EveryCommandEndsOrWaits := by
  intro i s t hp he
  obtain ⟨ho, -⟩ | ⟨ho, hi⟩ | ⟨-, aw, tp, cp, rfl⟩ := instr_kinds i
  · obtain hw | ⟨hp', hr, hres⟩ := operation_waits_or_answered ho hp he
    · exact .inl hw
    · exact .inr (.inl ⟨hp', .inl ho, hr, hres⟩)
  · cases (exec_wire i s ho hi).symm.trans he
    obtain hw | ⟨r, u, e, hu⟩ := runEngine_waits_or_ends i (invocation i) (ending i) (accept_idleNoResult hp)
    · exact .inl hw
    · rw [e, ending_wire i ho hi]
      exact .inr (.inr ⟨hu.progress, ho, hi, hu.response, r, rfl⟩)
  · cases he
    obtain hw | ⟨hp', hr, hres⟩ := init_waits_or_answered aw tp cp (accept_idleNoResult hp)
    · exact .inl hw
    · exact .inr (.inl ⟨hp', .inr rfl, hr, hres⟩)

/-! ## INIT and the width (spec/10_state.md R22, spec/43_initialization.md R183) -/

theorem runEngine_aw (i : Instr) (v : Invocation) (s : State) : (runEngine i v (ending i) s).aw = s.aw := by
  have hk := transact_keeps v s
  obtain ⟨ph, -, e⟩ | ⟨-, e⟩ := runEngine_cases i v (ending i) s <;> rw [e]
  · exact hk.aw
  · obtain ⟨-, -, -, haw, -, -⟩ := ending_facts i (engineReturn (transact v s).failed (transact v s).rbytes)
      (transact v s).st
    exact haw.trans hk.aw

/-- INIT leaves the width as it was, or has passed its steps 1 and 2 in `Uninitialized` and leaves its
operand. -/
theorem initCommand_aw (aw : BitVec 3) (tp cp : Bool) (s : State) :
    (¬(s.lifecycle = .uninitialized ∧ initRefusal aw tp cp = none) ∧ (initCommand aw tp cp s).aw = s.aw) ∨
      (s.lifecycle = .uninitialized ∧ initRefusal aw tp cp = none ∧ (initCommand aw tp cp s).aw = aw.toNat) := by
  obtain ⟨hl, e⟩ | ⟨-, hr, e⟩ | ⟨hl, hr, r, t, k, -, hcase⟩ := init_cases aw tp cp s
  · exact .inl ⟨fun h => hl h.1, by rw [e]; rfl⟩
  · exact .inl ⟨fun h => (nomatch hr.symm.trans h.2), by rw [e]; rfl⟩
  · refine .inr ⟨hl, hr, ?_⟩
    obtain ⟨-, e⟩ | ⟨-, e⟩ | ⟨-, -, e⟩ := hcase <;> rw [e]
    · exact k.aw
    · exact k.aw
    · exact (runEngine_aw (.init aw tp cp) _ t).trans k.aw

/-- Settles O42: the width is written exactly where INIT passes its steps 1 and 2 in `Uninitialized`, and no
later answer of the transport changes it. -/
theorem initWritesOnlyALegalWidth : Obligations.InitWritesOnlyALegalWidth := by
  intro aw tp cp s t he
  cases he
  obtain ⟨hn, e⟩ | ⟨hl, hr, e⟩ := initCommand_aw aw tp cp s.accept
  · exact ⟨.inl e, fun hl ht hc hpos hle => absurd ⟨hl, initRefusal_none.mpr ⟨ht, hc, hpos, hle⟩⟩ hn⟩
  · obtain ⟨-, -, hpos, hle⟩ := initRefusal_none.mp hr
    exact ⟨.inr ⟨e, hpos, hle, hl⟩, fun _ _ _ _ _ => e⟩

end Sys2Proof.Machine

namespace Sys2Proof.Machine

/-! ## The chip's operations inside a known frame (spec/20_memory.md R61 to R75)

What the closing edge, a receive and a spoiling do once it is known which frame is open. -/

/-- Outside a frame there is nothing to spoil. -/
theorem spoilFrame_of_noFrame {s : State} (h : s.chip.frame = none) : spoilFrame s = s := by
  show { s with chip := { s.chip with frame := s.chip.frame.map _ } } = s
  rw [h, Option.map_none, ← h]

/-- With no frame open an inactive edge changes nothing (R72). -/
theorem chipDeselected_of_noFrame {s : State} (h : s.chip.frame = none) : chipDeselected s = s := by
  simp [chipDeselected, h]

/-- The closing edge of a well-formed frame, the whole state. -/
theorem chipDeselected_of_meaning {s : State} {f : ChipFrame} {i : Instr} (hf : s.chip.frame = some f)
    (hm : frameMeaning s f = some i) :
    chipDeselected s = { s with chip := chipEffect { s.chip with frame := none } i } := by
  simp [chipDeselected, hf, hm, State.setChip]

theorem countReceived_of_frame {s : State} {f : ChipFrame} (hf : s.chip.frame = some f) :
    countReceived s = { s with chip := { s.chip with frame := some { f with nrx := f.nrx + 1 } } } := by
  simp [countReceived, hf, State.setChip]

/-- A receive that takes the byte the chip drives. -/
theorem chipSends_none_of_drives {s : State} {b : Byte} (h : chipDrives s = some b) :
    chipSends none s = (b, countReceived s) := by
  simp [chipSends, h]

/-- A receive answered with the very byte the chip drives. -/
theorem chipSends_some_of_drives {s : State} {b : Byte} (h : chipDrives s = some b) :
    chipSends (some b) s = (b, countReceived s) := by
  simp [chipSends, h]

/-- A receive answered with the environment's own byte where the chip's is a draw. -/
theorem chipSends_some_of_draw {s : State} (b : Byte) (h : chipDrives s = none) :
    chipSends (some b) s = (b, countReceived s) := by
  simp [chipSends, h]

/-! ## Which frame is which, and the byte the chip drives in it (R62 to R68) -/

theorem frameMeaning_wren (s : State) : frameMeaning s { tx := [0x06] } = some .wren := rfl
theorem frameMeaning_wrdi (s : State) : frameMeaning s { tx := [0x04] } = some .wrdi := rfl
theorem frameMeaning_rdsr (s : State) : frameMeaning s { tx := [0x05], nrx := 1 } = some .rdsr := rfl
theorem frameMeaning_wrsr (s : State) (v : Byte) :
    frameMeaning s { tx := [0x01, v], nrx := 1 } = some (.wrsr v) := rfl
theorem frameMeaning_rdid (s : State) : frameMeaning s { tx := [0x9F], nrx := 4 } = some .rdid := rfl

/-- Address bytes hold their value in full. -/
theorem addrValue_mod (A : List Byte) : addrValue A % 2 ^ (8 * A.length) = addrValue A := by
  rw [Nat.pow_mul]
  exact Nat.mod_eq_of_lt (addrValue_lt A)

/-- A READ frame, told by its address bytes in place of the address they encode. -/
theorem frameMeaning_read_addrBytes {s : State} {A : List Byte} (n : Nat) (hA : A.length = s.chip.addrBytes)
    (hw : s.chip.addrBytes = s.aw) :
    frameMeaning s { tx := 0x03 :: A, nrx := n } = some (.read (addrValue A) n) := by
  have h := frameMeaning_read (addrValue A) A.length n s hA.symm (hw.symm.trans hA.symm)
  rwa [encodeAddr_addrValue, addrValue_mod A] at h

/-- A WRITE frame, told by its address bytes in place of the address they encode. -/
theorem frameMeaning_write_addrBytes {s : State} {A : List Byte} (d : List Byte) (hA : A.length = s.chip.addrBytes)
    (hw : s.chip.addrBytes = s.aw) :
    frameMeaning s { tx := 0x02 :: (A ++ d) } = some (.write (addrValue A) d) := by
  have h := frameMeaning_write (addrValue A) A.length d s hA.symm (hw.symm.trans hA.symm)
  rwa [encodeAddr_addrValue, addrValue_mod A] at h

theorem chipDrives_rdsr {s : State} (hf : s.chip.frame = some { tx := [0x05] }) :
    chipDrives s = some (Config.srView s.chip.sr s.chip.wel) := by
  simp [chipDrives, hf, descRdsr]

theorem chipDrives_rdid {s : State} {k : Nat} (hf : s.chip.frame = some { tx := [0x9F], nrx := k }) :
    chipDrives s = s.chip.id.toList[k]? := by
  simp [chipDrives, hf, descRdsr, descRdid]

/-- The echo of a WRSR frame is a draw (R65, D22). -/
theorem chipDrives_wrsr {s : State} {v : Byte} (hf : s.chip.frame = some { tx := [0x01, v] }) :
    chipDrives s = none := by
  simp [chipDrives, hf, descRdsr, descRdid, descRead]

theorem chipDrives_read {s : State} {A : List Byte} {k : Nat} (hA : A.length = s.chip.addrBytes)
    (hw : s.chip.addrBytes = s.aw) (hf : s.chip.frame = some { tx := 0x03 :: A, nrx := k }) :
    chipDrives s = (addrMap (addrValue A + k)).map s.chip.mem.read := by
  simp [chipDrives, hf, descRdsr, descRdid, descRead, hA, hw, Nat.add_comm]

/-! ## What each frame does -/

/-- Settles O44: the chip drives the array byte of the cell, and READ has no effect at the closing edge. -/
theorem readFrameAnswersFromTheArray : Obligations.ReadFrameAnswersFromTheArray := by
  intro s A k hA hw hf
  refine ⟨fun cell hc => ?_, chipDeselected_of_meaning hf (frameMeaning_read_addrBytes k hA hw)⟩
  have hd : chipDrives s = some (s.chip.mem.read cell) := by rw [chipDrives_read hA hw hf, hc]; rfl
  rw [chipSends_none_of_drives hd, countReceived_of_frame hf]

/-- Settles O45: WRITE's effect at the closing edge is the burst, whose cells `Memory.read_writeBurst` gives. -/
theorem writeFrameStoresTheBurst : Obligations.WriteFrameStoresTheBurst := by
  intro s A d hA hw hwf hf
  rw [chipDeselected_of_meaning hf (frameMeaning_write_addrBytes d hA hw)]
  refine ⟨rfl, fun x => ?_⟩
  show Memory.read (if s.chip.wel then Memory.writeBurst s.chip.mem (addrValue A) d else s.chip.mem) x = _
  unfold afterBurst
  split
  · exact Memory.read_writeBurst d s.chip.mem (addrValue A) hwf x
  · rfl

/-- Settles O43: WREN sets the latch and WRDI clears it, their one effect. -/
theorem wrenAndWrdiFramesMoveTheLatch : Obligations.WrenAndWrdiFramesMoveTheLatch := by
  refine fun s => ⟨fun hf => ?_, fun hf => ?_⟩
  · rw [chipDeselected_of_meaning hf (frameMeaning_wren s)]; rfl
  · rw [chipDeselected_of_meaning hf (frameMeaning_wrdi s)]; rfl

/-- Settles O46: the chip drives identity byte `k`, and RDID has no effect at the closing edge. -/
theorem rdidFrameAnswersTheIdentity : Obligations.RdidFrameAnswersTheIdentity := by
  refine fun s k hf => ⟨fun b hb => ?_, fun hk => ?_⟩
  · rw [chipSends_none_of_drives ((chipDrives_rdid hf).trans hb), countReceived_of_frame hf]
  · subst hk
    exact chipDeselected_of_meaning hf (frameMeaning_rdid s)

/-- Settles O47: the chip drives `SrView` in RDSR and a draw in WRSR; of the two only WRSR has an effect at
the closing edge. -/
theorem statusFramesReadAndWriteTheRegister : Obligations.StatusFramesReadAndWriteTheRegister := by
  refine fun s v => ⟨fun hf => ?_, fun hf => ?_, fun hf b => ?_, fun hf => ?_⟩
  · rw [chipSends_none_of_drives (chipDrives_rdsr hf), countReceived_of_frame hf]
  · exact chipDeselected_of_meaning hf (frameMeaning_rdsr s)
  · rw [chipSends_some_of_draw b (chipDrives_wrsr hf), countReceived_of_frame hf]
    exact ⟨rfl, rfl⟩
  · rw [chipDeselected_of_meaning hf (frameMeaning_wrsr s v)]; rfl

/-- Settles O60: both receives give the chip's byte and count it. -/
theorem ownByteEqualToTheChipsIsTheChipsByte : Obligations.OwnByteEqualToTheChipsIsTheChipsByte := by
  intro s b h
  rw [chipSends_some_of_drives h, chipSends_none_of_drives h]

/-- Settles O50: power-on spoils the open frame, and there is none. -/
theorem chipPowerOnKeepsTheArray : Obligations.ChipPowerOnKeepsTheArray := by
  intro s h
  exact spoilFrame_of_noFrame (s := (s.setChip { s.chip with
    wel := Config.welReset, sr := Config.freeByte s.draws }).drew) h

/-! ## The canonical form is faithful (notes/assumptions/10.md) -/

theorem Memory.wfFrom_cons {lo a : Nat} {b : Byte} {m : Memory} :
    Memory.wfFrom lo ((a, b) :: m) = true ↔
      lo ≤ a ∧ a < Config.memSize ∧ b ≠ Config.blankByte ∧ Memory.wfFrom (a + 1) m = true := by
  simp only [Memory.wfFrom, Bool.and_eq_true, decide_eq_true_eq, and_assoc]

theorem Memory.read_cons (a : Nat) (b : Byte) (m : Memory) (x : Nat) :
    Memory.read ((a, b) :: m) x = if a = x then b else m.read x := rfl

/-- Below its first address a canonical array is blank. -/
theorem Memory.read_below {m : Memory} {lo x : Nat} (h : Memory.wfFrom lo m = true) (hx : x < lo) :
    m.read x = Config.blankByte := by
  induction m generalizing lo with
  | nil => rfl
  | cons c m ih =>
    obtain ⟨a, b⟩ := c
    obtain ⟨hlo, -, -, hm⟩ := wfFrom_cons.mp h
    rw [read_cons, if_neg (by omega)]
    exact ih hm (by omega)

/-- A canonical array with an entry at `a` is no array that starts above `a`. -/
theorem Memory.not_above_first {lo a : Nat} {b : Byte} {m m' : Memory}
    (h : Memory.wfFrom lo ((a, b) :: m) = true) (h' : Memory.wfFrom (a + 1) m' = true) :
    ¬ ∀ x, Memory.read ((a, b) :: m) x = Memory.read m' x := by
  intro e
  obtain ⟨-, -, hb, -⟩ := wfFrom_cons.mp h
  apply hb
  rw [← read_below h' (Nat.lt_succ_self a), ← e a, read_cons, if_pos rfl]

/-- Of two arrays that read alike, neither starts above the other's first entry. -/
theorem Memory.first_le {lo lo' a a' : Nat} {b b' : Byte} {m m' : Memory}
    (h : Memory.wfFrom lo ((a, b) :: m) = true) (h' : Memory.wfFrom lo' ((a', b') :: m') = true)
    (e : ∀ x, Memory.read ((a, b) :: m) x = Memory.read ((a', b') :: m') x) : a' ≤ a := by
  by_contra hlt
  obtain ⟨-, hrest⟩ := wfFrom_cons.mp h'
  exact not_above_first h (wfFrom_cons.mpr ⟨by omega, hrest⟩) e

/-- Two canonical arrays that read alike start with the same entry, and so do the arrays after it. -/
theorem Memory.eq_of_read_eq {m m' : Memory} {lo : Nat} (h : Memory.wfFrom lo m = true)
    (h' : Memory.wfFrom lo m' = true) (e : ∀ x, m.read x = m'.read x) : m = m' := by
  induction m generalizing m' lo with
  | nil =>
    cases m' with
    | nil => rfl
    | cons c' m' => exact absurd (fun x => (e x).symm) (not_above_first h' rfl)
  | cons c m ih =>
    cases m' with
    | nil => exact absurd e (not_above_first h rfl)
    | cons c' m' =>
      obtain ⟨a, b⟩ := c
      obtain ⟨a', b'⟩ := c'
      obtain rfl : a = a' := Nat.le_antisymm (first_le h' h fun x => (e x).symm) (first_le h h' e)
      obtain ⟨-, -, -, hm⟩ := wfFrom_cons.mp h
      obtain ⟨-, -, -, hm'⟩ := wfFrom_cons.mp h'
      simp only [read_cons] at e
      have hb : b = b' := by simpa using e a
      have hrest : ∀ x, Memory.read m x = Memory.read m' x := by
        intro x
        by_cases hx : a = x
        · rw [read_below hm (by omega), read_below hm' (by omega)]
        · simpa [hx] using e x
      rw [hb, ih hm hm' hrest]

/-- Settles O51: canonical arrays are lists of entries in address order, read off from the bytes. -/
theorem canonicalArraysThatReadAlikeAreEqual : Obligations.CanonicalArraysThatReadAlikeAreEqual :=
  fun _ _ h h' => Memory.eq_of_read_eq h h'

/-! ## No step changes the chip's constants (R60, R71, R74) -/

/-- What of the chip is constant: the identity and `CHIP_ADDR_BYTES`. -/
def Chip.constants (c : Chip) : Vector Byte Config.idLen × Nat := (c.id, c.addrBytes)

theorem ChipOnly.constants {s t : State} (h : ChipOnly s t) : t.chip.constants = s.chip.constants :=
  Prod.ext h.id h.addrBytes

theorem RunKeeps.constants {s t : State} (h : RunKeeps s t) : t.chip.constants = s.chip.constants :=
  Prod.ext h.id h.addrBytes

theorem ending_chip (i : Instr) (r : EngineResult) (s : State) : (ending i r s).chip = s.chip := by
  obtain ⟨-, hchip, -⟩ := ending_facts i r s
  exact hchip

theorem runEngine_constants (i : Instr) (v : Invocation) (s : State) :
    (runEngine i v (ending i) s).chip.constants = s.chip.constants := by
  obtain ⟨p, -, e⟩ | ⟨-, e⟩ := runEngine_cases i v (ending i) s <;> rw [e]
  · exact (transact_keeps v s).constants
  · rw [ending_chip]
    exact (transact_keeps v s).constants

theorem initCommand_constants (aw : BitVec 3) (tp cp : Bool) (s : State) :
    (initCommand aw tp cp s).chip.constants = s.chip.constants := by
  obtain ⟨-, e⟩ | ⟨-, -, e⟩ | ⟨-, -, r, t, k, -, ⟨-, e⟩ | ⟨-, e⟩ | ⟨qs, -, e⟩⟩ :=
    init_cases aw tp cp s <;> rw [e]
  · rfl
  · rfl
  · exact k.keeps.constants
  · exact k.keeps.constants
  · exact (runEngine_constants (.init aw tp cp) _ t).trans k.keeps.constants

theorem exec_constants {i : Instr} {s t : State} (h : exec i s = .next t) :
    t.chip.constants = s.chip.constants := by
  obtain ⟨ho, -⟩ | ⟨ho, hi⟩ | ⟨-, aw, tp, cp, rfl⟩ := instr_kinds i
  · by_cases hl : s.lifecycle = .ready
    · cases (exec_operation i s ho hl).symm.trans h
      exact runEngine_constants i _ s.accept
    · cases (exec_operation_refused i s ho hl).symm.trans h
      rfl
  · cases (exec_wire i s ho hi).symm.trans h
    exact runEngine_constants i _ s.accept
  · cases h
    exact initCommand_constants aw tp cp s.accept

/-- Latching a command leaves the chip alone. -/
theorem beginInstr_chip (i : Instr) (s : State) : (beginInstr i s).chip = s.chip := by
  obtain ⟨ho, -⟩ | ⟨ho, hi⟩ | ⟨-, aw, tp, cp, rfl⟩ := instr_kinds i
  · rw [beginInstr_operation i s ho]
    unfold beginOperation
    split <;> rfl
  · rw [beginInstr_wire i s ho hi]
    rfl
  · show (beginInit aw tp cp s.accept).chip = s.chip
    obtain ⟨-, e⟩ | ⟨-, _, -, e⟩ | ⟨-, -, e⟩ := beginInit_cases aw tp cp s.accept <;> rw [e] <;> rfl

theorem afterOk_chip (p : Progress) (qs : List Byte) (s : State) : (afterOk p qs s).chip = s.chip := by
  unfold afterOk
  split
  · exact ending_chip ..
  all_goals rfl

theorem afterFail_chip (p : Progress) (s : State) : (afterFail p s).chip = s.chip := by
  unfold afterFail
  split
  · exact ending_chip ..
  all_goals rfl

/-- What follows the answer to a call leaves the chip alone. -/
theorem afterReply_chip (p : Progress) (r : Reply) (s : State) : (afterReply p r s).chip = s.chip := by
  cases r with
  | ok qs => exact afterOk_chip p qs s
  | fail => exact afterFail_chip p s
  | never => rfl

theorem tick_constants (p : Progress) (s : State) : (tick p s).chip.constants = s.chip.constants := by
  rcases e : doCall (phaseCall (invocation p.instr) s.aw p.phase) s with ⟨r, t⟩
  rw [tick_of_doCall rfl e, afterReply_chip]
  exact (callSpec_of_doCall e).keeps.constants

theorem advance_constants (p : Progress) (s : State) : (advance p s).chip.constants = s.chip.constants := by
  unfold advance
  split
  · rfl
  · exact tick_constants p s

theorem NextStep.constants {s t : State} (h : NextStep s t) : t.chip.constants = s.chip.constants := by
  cases h with
  | idle | idleWait | reserved => rfl
  | present _ _ _ he => exact (exec_constants he :)
  | begun => exact congrArg Chip.constants (beginInstr_chip _ _)
  | busy => exact tick_constants _ s
  | @busyWait p rest => exact advance_constants p (s.setInputs rest)
  | @reset rest => exact (cutFrame_chipOnly (s.setInputs rest)).constants
  | @chipPowerOn rest => exact (chipPoweredOn_chipOnly (s.setInputs rest)).constants

/-- Settles O48: in every way a step can go, what touches the chip keeps its constants. -/
theorem stepKeepsTheChipsConstants : Obligations.StepKeepsTheChipsConstants := by
  intro s t h
  exact Prod.ext_iff.mp (step_next h).constants

/-! ## A selection that fails off the wire (R72, spec/41_transaction_engine.md R133) -/

/-- The state after a selection that failed off the wire: the one event, and the chip as it was. -/
def selectionLost (s : State) (rest : List Answer) : State :=
  ((s.setCs true).setAnswers rest).log (.fail (.cs true))

theorem doCall_select_lost {s : State} {rest : List Answer} (hf : s.chip.frame = none)
    (ha : s.answers = .fail false :: rest) :
    doCall (.cs true) s = (.fail, selectionLost s rest) := by
  have htake : takeAnswer (s.setCs true) = (.fail false, (s.setCs true).setAnswers rest) := by
    simp [takeAnswer, ha]
  have hspoil : spoilFrame ((s.setCs true).setAnswers rest) = (s.setCs true).setAnswers rest :=
    spoilFrame_of_noFrame hf
  simp [doCall, requestLevel, htake, chipAfterFailure, hspoil, selectionLost]

/-- An answered release, between frames: the chip is as it was (R72). -/
theorem doCall_release_noFrame {s : State} {own : Option Byte} {rest : List Answer} (hf : s.chip.frame = none)
    (ha : s.answers = .ok own :: rest) :
    doCall (.cs false) s = (.ok [], ((s.setCs false).setAnswers rest).log (.cs false)) := by
  have hedge : chipDeselected ((s.setCs false).setAnswers rest) = (s.setCs false).setAnswers rest :=
    chipDeselected_of_noFrame hf
  simp [doCall_ok ha, requestLevel, callOk, chipEdge, hedge]

/-- The state after the release that follows a lost selection: its event, and the chip as it was. -/
def lostSelectionReleased (s : State) (rest : List Answer) : State :=
  ((selectionLost s rest).setCs false).log (.cs false)

/-- Transact whose selection is lost makes one more call, the release. -/
theorem transact_of_lostSelection (v : Invocation) {s : State} {own : Option Byte} {rest : List Answer}
    (hf : s.chip.frame = none) (ha : s.answers = .fail false :: .ok own :: rest) :
    transact v s = { st := lostSelectionReleased s rest, failed := true } := by
  have hsel : guarded .sel (.cs true) { st := s } =
      { st := selectionLost s (.ok own :: rest), failed := true } := by
    simp [guarded, attempt, doCall_select_lost hf ha]
  have hplan : runCalls (framePlan v s.aw) { st := s } =
      { st := selectionLost s (.ok own :: rest), failed := true } := by
    show runCalls _ (guarded .sel (.cs true) { st := s }) = _
    rw [hsel]
    exact runCalls_stopped _ rfl
  have hdesel : doCall (.cs false) (selectionLost s (.ok own :: rest)) = (.ok [], lostSelectionReleased s rest) :=
    doCall_release_noFrame hf rfl
  rw [transact_eq, hplan]
  simp [release, attempt, hdesel]

/-- Settles O49: the failed selection opens no frame, so the release closes none. -/
theorem failedSelectionLeavesTheChip : Obligations.FailedSelectionLeavesTheChip := by
  intro i s t own rest hl hf ho ha he
  cases (exec_operation i s ho hl).symm.trans he
  obtain ⟨f, hend, -⟩ := ending_operation i ho
  unfold runEngine
  rw [hend, transact_of_lostSelection (invocation i) (s := s.accept) hf ha]
  exact ⟨rfl, List.append_assoc .., rfl⟩

/-! ## A run with no failure, whole, and two equal reads (R57, R66) -/

/-- Transact all of whose calls are answered `ok` ends, unfailed, with the answers of its calls used up. -/
theorem transact_ok {v : Invocation} {s : State} (h : okCalls (frameCalls v s.aw) s.answers = true) :
    (transact v s).failed = false ∧ (transact v s).stuck = none ∧
      (transact v s).st.answers = s.answers.drop (frameCalls v s.aw) := by
  rw [← framePlan_length] at h ⊢
  obtain ⟨hplan, hrel⟩ := okCalls_add h
  obtain ⟨own, rest, ha, -⟩ := okCalls_cons hrel
  obtain ⟨_, -, hf, hs, -, -, han, -⟩ := runCalls_ok (framePlan v s.aw) { st := s } rfl rfl hplan
  obtain ⟨qs, t, -, k, e, -⟩ := guarded_ok (p := .desel) (c := .cs false) hf hs (han.trans ha)
  have hrel : transact v s = guarded .desel (.cs false) (runCalls (framePlan v s.aw) { st := s }) := by
    simp [transact_eq, release, guarded, hf, hs]
  rw [hrel, e]
  refine ⟨hf, hs, ?_⟩
  rw [k.answers, han, List.tail_drop]

theorem transmitted_read (a n w : Nat) : transmitted ⟨descRead, a, [], n⟩ w = 0x03 :: encodeAddr a w := by
  simp [transmitted, descRead]

/-- The byte the chip drives in the READ frame the block sends. -/
theorem chipDrives_readFrame {s : State} (hw : s.chip.addrBytes = s.aw) (a n k : Nat) :
    chipDrives (withFrame s { tx := transmitted ⟨descRead, a, [], n⟩ s.aw, nrx := k }) =
      (addrMap (a % 2 ^ (8 * s.aw) + k)).map s.chip.mem.read := by
  have hd := chipDrives_read (s := withFrame s { tx := 0x03 :: encodeAddr a s.aw, nrx := k })
    ((encodeAddr_length a s.aw).trans hw.symm) hw rfl
  have hpow : 256 ^ s.aw = 2 ^ (8 * s.aw) := (Nat.pow_mul 2 8 s.aw).symm
  rwa [addrValue_encodeAddr, hpow, ← transmitted_read a n] at hd

/-- A READ answered by the chip: the chip is as it was, and the bytes are those of the array. -/
theorem transact_read {s : State} {a n : Nat} (hc : ChipReady s)
    (h : chipCalls (frameCalls ⟨descRead, a, [], n⟩ s.aw) s.answers = true) :
    (transact ⟨descRead, a, [], n⟩ s).st.chip = s.chip ∧
      (transact ⟨descRead, a, [], n⟩ s).rbytes.length = n ∧
      ∀ k cell, k < n → addrMap (a % 2 ^ (8 * s.aw) + k) = some cell →
        (transact ⟨descRead, a, [], n⟩ s).rbytes[k]? = some (s.chip.mem.read cell) := by
  obtain ⟨hframe, hw⟩ := hc
  obtain ⟨qs, st, hlen, rfl, hst, haw, hchip, hbytes⟩ :=
    chip_sees_frame ⟨descRead, a, [], n⟩ s (okCalls_of_chipCalls h) hframe (.inl h)
  refine ⟨?_, hlen, fun k cell hk hcell => hbytes h k _ hk ?_⟩
  · have hm := frameMeaning_read a s.aw n st (by rw [hst]; exact hw) haw
    rw [transmitted_read] at hst
    rw [hchip, chipDeselected_chip hst hm, ← hframe]
    rfl
  · rw [chipDrives_readFrame hw, hcell]
    rfl

/-- What READ_BYTES in `Ready` leaves when every byte is the chip's. -/
structure ReadBytesDone (s t : State) (a n : Nat) (qs : List Byte) : Prop where
  response : t.response = some { status := .ok, rbytes := some qs }
  lifecycle : t.lifecycle = s.lifecycle
  aw : t.aw = s.aw
  chip : t.chip = s.chip
  answers : t.answers = s.answers.drop (3 + s.aw + n)
  length : qs.length = n
  bytes : ∀ k cell, k < n → addrMap (a % 2 ^ (8 * s.aw) + k) = some cell →
    qs[k]? = some (s.chip.mem.read cell)

theorem exec_readBytes_done {s t : State} {a n : Nat} (hl : s.lifecycle = .ready) (hc : ChipReady s)
    (h : chipCalls (3 + s.aw + n) s.answers = true) (he : exec (.readBytes a n) s = .next t) :
    ∃ qs, ReadBytesDone s t a n qs := by
  have hn : frameCalls ⟨descRead, a, [], n⟩ s.aw = 3 + s.aw + n := by simp [frameCalls, descRead]
  rw [← hn] at h
  obtain ⟨hf, hs, han⟩ := transact_ok (s := s.accept) (okCalls_of_chipCalls h)
  obtain ⟨hchip, hlen, hbytes⟩ := transact_read (s := s.accept) hc h
  have k := transact_keeps ⟨descRead, a, [], n⟩ s.accept
  have ht : t = respond (bytesResult (transact ⟨descRead, a, [], n⟩ s.accept).rbytes)
      (transact ⟨descRead, a, [], n⟩ s.accept).st := by
    cases (exec_operation (.readBytes a n) s rfl hl).symm.trans he
    simp [runEngine, invocation, hs, hf, ending, endOperation, engineReturn]
  subst ht
  exact ⟨_, rfl, k.lifecycle, k.aw, hchip, hn ▸ han, hlen, hbytes⟩

/-- Settles O54: the first read leaves the chip as it was, so the second is answered from the same array. -/
theorem equalReadsReturnEqualBytes : Obligations.EqualReadsReturnEqualBytes := by
  intro s t u a n hl hc hcells hcalls ht hu
  rw [Nat.two_mul] at hcalls
  obtain ⟨hcalls₁, hcalls₂⟩ := chipCalls_add hcalls
  obtain ⟨qs, h₁⟩ := exec_readBytes_done hl hc hcalls₁ ht
  have hct : ChipReady t := by simpa [ChipReady, h₁.chip, h₁.aw] using hc
  obtain ⟨qs', h₂⟩ := exec_readBytes_done (h₁.lifecycle.trans hl) hct (by rwa [h₁.aw, h₁.answers]) hu
  have hqs : qs = qs' := by
    refine List.ext_getElem? fun k => ?_
    by_cases hk : k < n
    · obtain ⟨cell, hcell⟩ := hcells k hk
      rw [h₁.bytes k cell hk hcell, h₂.bytes k cell hk (by rwa [h₁.aw]), h₁.chip]
    · rw [List.getElem?_eq_none (by simp [h₁.length, not_lt.mp hk]),
        List.getElem?_eq_none (by simp [h₂.length, not_lt.mp hk])]
  rw [h₁.response, h₂.response, hqs]

end Sys2Proof.Machine

namespace Sys2Proof.Machine

/-! ## The decoder read back

The frames the decoder accepts are the encodings of the well-formed wire opcodes, and a host command is decoded
from its own record (spec/30_encoding.md R91 to R100). -/

/-- The bytes after the opcode and the number of bytes received have the descriptor's format (R91, R105). -/
structure FrameFits (d : Descriptor) (w : Nat) (rest : List Byte) (nrx : Nat) : Prop where
  address : (if d.addressed then w else 0) ≤ rest.length
  data : d.nwrite.admits (rest.length - if d.addressed then w else 0) = true
  received : d.nread.admits nrx = true

/-- No two descriptors share an opcode (R92). -/
theorem find_descriptor_of_op : ∀ d ∈ descriptors, descriptors.find? (fun d' => d'.op == d.op) = some d := by
  decide

theorem decodeFrame_of_fits {d : Descriptor} {w nrx : Nat} {rest : List Byte} (hd : d ∈ descriptors)
    (h : FrameFits d w rest nrx) : decodeFrame w (d.op :: rest) nrx = .ok (instrOfFrame d w rest nrx) := by
  have hlen := not_lt.mpr h.address
  simp [decodeFrame, find_descriptor_of_op d hd, h.data, h.received, hlen]

/-- An accepted frame is an opcode of the table, and bytes of its format. -/
theorem decodeFrame_ok {w nrx : Nat} {tx : List Byte} {i : Instr} (h : decodeFrame w tx nrx = .ok i) :
    ∃ d ∈ descriptors, ∃ rest,
      tx = d.op :: rest ∧ FrameFits d w rest nrx ∧ i = instrOfFrame d w rest nrx := by
  unfold decodeFrame at h
  split at h
  · cases h
  next op rest =>
  split at h
  · cases h
  next d hd =>
  have hop : d.op = op := by simpa using List.find?_some hd
  generalize hk : (if d.addressed then w else 0) = k at h
  dsimp only at h
  split at h
  · cases h
  next htx =>
  split at h
  · cases h
  next hrx =>
  simp only [Bool.or_eq_true, decide_eq_true_eq, Bool.not_eq_true', not_or, not_lt, Bool.not_eq_false] at htx hrx
  subst hk
  exact ⟨d, List.mem_of_find?_eq_some hd, rest, by rw [hop], ⟨htx.1, htx.2, hrx⟩, (Except.ok.inj h).symm⟩

theorem instrOfFrame_read (w : Nat) (rest : List Byte) (nrx : Nat) :
    instrOfFrame descRead w rest nrx = .read (addrValue (rest.take w)) nrx := rfl

theorem instrOfFrame_write (w : Nat) (rest : List Byte) (nrx : Nat) :
    instrOfFrame descWrite w rest nrx = .write (addrValue (rest.take w)) (rest.drop w) := rfl

/-! An address that fits passes through its bytes unchanged, on the wire and at the host port. -/

theorem addrValue_encodeAddr_of_fits {w addr : Nat} (h : fitsWire w addr = true) :
    addrValue (encodeAddr addr w) = addr := by
  rw [addrValue_encodeAddr, Nat.mod_eq_of_lt (of_decide_eq_true h)]

theorem fitsWire_addrValue {w : Nat} {bytes : List Byte} (h : bytes.length = w) :
    fitsWire w (addrValue bytes) = true :=
  decide_eq_true (h ▸ addrValue_lt bytes)

theorem encodeAddr_addrValue_of_length {w : Nat} {bytes : List Byte} (h : bytes.length = w) :
    encodeAddr (addrValue bytes) w = bytes := by
  rw [← h, encodeAddr_addrValue]

theorem toNat_hostAddress {addr : Nat} (h : fitsHostPort addr = true) : (BitVec.ofNat 32 addr).toNat = addr := by
  rw [BitVec.toNat_ofNat, Nat.mod_eq_of_lt (of_decide_eq_true h)]

theorem fitsHostPort_toNat (a : BitVec 32) : fitsHostPort a.toNat = true := decide_eq_true a.isLt

/-- The decoder accepts no frame but the encoding of a well-formed instruction. -/
theorem encode_of_decodeFrame {w nrx : Nat} {tx : List Byte} {i : Instr} (h : decodeFrame w tx nrx = .ok i) :
    i.wf w = true ∧ encode w i = .frame tx nrx := by
  obtain ⟨d, hd, rest, rfl, ⟨haddr, hdata, hrx⟩, rfl⟩ := decodeFrame_ok h
  simp only [descriptors, List.mem_cons, List.not_mem_nil, or_false] at hd
  obtain rfl | rfl | rfl | rfl | rfl | rfl | rfl := hd <;>
    simp only [descWren, descWrdi, descRdsr, descWrsr, descRead, descWrite, descRdid, DataLength.admits,
      if_true, if_false, Bool.false_eq_true, Nat.sub_zero, beq_iff_eq, List.length_eq_zero_iff] at haddr hdata hrx
  · subst hdata hrx; exact ⟨rfl, rfl⟩
  · subst hdata hrx; exact ⟨rfl, rfl⟩
  · subst hdata hrx; exact ⟨rfl, rfl⟩
  · obtain ⟨v, rfl⟩ := List.length_eq_one_iff.mp hdata
    subst hrx; exact ⟨rfl, rfl⟩
  · have hlen : rest.length = w := by omega
    rw [instrOfFrame_read, List.take_of_length_le hlen.le]
    exact ⟨fitsWire_addrValue hlen,
      congrArg (fun bytes => Request.frame (0x03 :: bytes) nrx) (encodeAddr_addrValue_of_length hlen)⟩
  · have hlen : (rest.take w).length = w := List.length_take_of_le haddr
    subst hrx
    have hrest : encodeAddr (addrValue (rest.take w)) w ++ rest.drop w = rest := by
      rw [encodeAddr_addrValue_of_length hlen, List.take_append_drop]
    exact ⟨fitsWire_addrValue hlen, congrArg (fun bytes => Request.frame (0x02 :: bytes) 0) hrest⟩
  · subst hdata hrx; exact ⟨rfl, rfl⟩

/-- The decoder accepts the encoding of every well-formed wire opcode. -/
theorem decodeFrame_of_encode {w nrx : Nat} {tx : List Byte} {i : Instr} (h : i.wf w = true)
    (he : encode w i = .frame tx nrx) : decodeFrame w tx nrx = .ok i := by
  cases i with
  | read addr n =>
    cases he
    have hfits : FrameFits descRead w (encodeAddr addr w) nrx := by
      constructor <;> simp [descRead, DataLength.admits]
    refine (decodeFrame_of_fits (by decide) hfits).trans ?_
    rw [instrOfFrame_read, List.take_of_length_le (encodeAddr_length ..).le, addrValue_encodeAddr_of_fits h]
  | write addr data =>
    cases he
    have hfits : FrameFits descWrite w (encodeAddr addr w ++ data) 0 := by
      constructor <;> simp [descWrite, DataLength.admits]
    refine (decodeFrame_of_fits (by decide) hfits).trans ?_
    rw [instrOfFrame_write, List.take_left' (encodeAddr_length ..), List.drop_left' (encodeAddr_length ..),
      addrValue_encodeAddr_of_fits h]
  | _ => cases he <;> rfl

/-- A host command is decoded from the record that encodes it. -/
theorem decodeCommand_of_encode {w : Nat} {c : CommandRecord} {i : Instr} (h : i.wf w = true)
    (he : encode w i = .command c) : decodeCommand c = .ok i := by
  cases i with
  | writeByte | writeBytes | readByte | readBytes => cases he; simp [decodeCommand, toNat_hostAddress h]
  | _ => cases he <;> rfl

theorem wf_of_decodeCommand {w : Nat} {c : CommandRecord} {i : Instr} (h : decodeCommand c = .ok i) :
    i.wf w = true := by
  unfold decodeCommand at h
  split at h <;> cases h
  case h_3.refl | h_4.refl | h_5.refl | h_6.refl => exact fitsHostPort_toNat c.addr
  all_goals rfl

/-- Settles O10: a wire opcode is decoded from its frame, a host command from its record. -/
theorem decodeOfEncodeIsTheInstruction : Obligations.DecodeOfEncodeIsTheInstruction := by
  intro w i h
  cases he : encode w i with
  | frame tx nrx => exact decodeFrame_of_encode h he
  | command c => exact decodeCommand_of_encode h he

/-- Settles O11: an accepted frame has address bytes for its address, a record 32 address bits. -/
theorem decodedInstructionIsWellFormed : Obligations.DecodedInstructionIsWellFormed := by
  intro w r i h
  cases r with
  | frame tx nrx => exact (encode_of_decodeFrame h).1
  | command c => exact wf_of_decodeCommand h

/-- Settles O12: the bytes after the opcode are the address bytes and the data the instruction holds. -/
theorem acceptedFrameIsTheEncodedFrame : Obligations.AcceptedFrameIsTheEncodedFrame :=
  fun _ _ _ _ h => (encode_of_decodeFrame h).2

/-- Settles O13: the decoder evaluates each of the nine words to its instruction. -/
theorem decodeReadsTheTablesWords : Obligations.DecodeReadsTheTablesWords :=
  ⟨rfl, rfl, rfl, rfl, rfl, rfl, rfl, rfl, rfl⟩

end Sys2Proof.Machine

namespace Sys2Proof.Machine

/-! ## The opcode after a selection

A run of the engine selects the chip once, first, and its next call sends the opcode (spec/30_encoding.md R98). -/

/-- A byte transmitted right after a selection is the opcode of a descriptor (R92, R98). -/
def OpcodeFollowsSelection (evs : List Ev) : Prop :=
  ∀ k b, evs[k]? = some (.cs true) → evs[k + 1]? = some (.tx b) → b ∈ descriptors.map Descriptor.op

theorem opcodeFollowsSelection_nil : OpcodeFollowsSelection [] := by
  intro k b h
  simp at h

theorem OpcodeFollowsSelection.cons {e : Ev} {evs : List Ev} (h : OpcodeFollowsSelection evs) (he : e ≠ .cs true) :
    OpcodeFollowsSelection (e :: evs) := by
  intro k b hk hb
  cases k with
  | zero => exact absurd (by simpa using hk) he
  | succ k => exact h k b (by simpa using hk) (by simpa using hb)

/-- Only the first call of a frame selects the chip. -/
theorem framePlan_selects_first {v : Invocation} {aw k : Nat}
    (h : ((framePlan v aw).map Prod.snd)[k]? = some (.cs true)) : k = 0 := by
  cases k with
  | zero => rfl
  | succ k =>
    have hmem := List.mem_of_getElem? (l := ((framePlan v aw).map Prod.snd).tail) (by simpa using h)
    cases hd : v.d.addressed <;>
      simp [framePlan, hd, planBytes_calls, planReads_calls] at hmem

theorem eventOf_select {c : Call} (h : eventOf c (.cs true)) : c = .cs true := by
  cases c <;> simp_all [eventOf]

theorem eventOf_transmit {c : Call} {b : Byte} (h : eventOf c (.tx b)) : c = .tx b := by
  cases c <;> simp_all [eventOf]

theorem getElem?_of_append_of_notMem {α : Type} {body tail : List α} {k : Nat} {e : α}
    (h : (body ++ tail)[k]? = some e) (he : e ∉ tail) : body[k]? = some e := by
  rw [List.getElem?_append] at h
  split at h
  · exact h
  · exact absurd (List.mem_of_getElem? h) he

/-- What Transact appends: events of its plan's calls in order, then at most those of the release. -/
theorem transact_events (v : Invocation) (s : State) :
    ∃ body tail, (transact v s).st.trace = s.trace ++ (body ++ tail) ∧
      (∀ (k : Nat) (e : Ev), body[k]? = some e →
        ∃ c, ((framePlan v s.aw).map Prod.snd)[k]? = some c ∧ eventOf c e) ∧
      ∀ e ∈ tail, eventOf (.cs false) e := by
  obtain ⟨body, h⟩ := runCalls_trace (framePlan v s.aw) { st := s } rfl rfl
  rw [transact_eq]
  generalize runCalls (framePlan v s.aw) { st := s } = a at h
  cases hs : a.stuck with
  | some p => exact ⟨body, [], by rw [release_stuck hs, h.trace, List.append_nil], h.aligned, by simp⟩
  | none =>
    obtain ⟨e, -⟩ | ⟨e, -⟩ | ⟨e, -⟩ := release_cases hs <;> rw [e, h.trace]
    · exact ⟨body, [.cs false], by simp, h.aligned, by simp [eventOf]⟩
    · exact ⟨body, [.fail (.cs false)], by simp, h.aligned, by simp [eventOf]⟩
    · exact ⟨body, [], by simp, h.aligned, by simp⟩

/-- `t` is reached from `s` by events among which the opcode follows every selection. -/
def AppendsOpcodes (s t : State) : Prop := ∃ evs, t.trace = s.trace ++ evs ∧ OpcodeFollowsSelection evs

theorem AppendsOpcodes.of_trace_eq {s t : State} (h : t.trace = s.trace) : AppendsOpcodes s t :=
  ⟨[], by simp [h], opcodeFollowsSelection_nil⟩

theorem transact_appendsOpcodes {v : Invocation} (hd : v.d ∈ descriptors) (s : State) :
    AppendsOpcodes s (transact v s).st := by
  obtain ⟨body, tail, htrace, hbody, htail⟩ := transact_events v s
  refine ⟨body ++ tail, htrace, fun k b hk hb => ?_⟩
  have hsel := getElem?_of_append_of_notMem hk fun hm => by simpa [eventOf] using htail _ hm
  have htx := getElem?_of_append_of_notMem hb fun hm => by simpa [eventOf] using htail _ hm
  obtain ⟨c, hc, he⟩ := hbody _ _ hsel
  obtain rfl := framePlan_selects_first (eventOf_select he ▸ hc)
  obtain ⟨c', hc', he'⟩ := hbody _ _ htx
  rw [eventOf_transmit he'] at hc'
  obtain rfl : v.d.op = b := by simpa [framePlan] using hc'
  exact List.mem_map_of_mem hd

theorem invocation_descriptor_mem (i : Instr) : (invocation i).d ∈ descriptors := by
  cases i with
  | writeEnable enable => cases enable <;> decide
  | _ => simp [invocation, descriptors]

/-- An engine run leaves the trace of its frame, however it ends. -/
theorem runEngine_trace (i : Instr) (v : Invocation) (s : State) :
    (runEngine i v (ending i) s).trace = (transact v s).st.trace := by
  obtain ⟨p, -, e⟩ | ⟨-, e⟩ := runEngine_cases i v (ending i) s <;> rw [e]
  · rfl
  · exact (ending_facts i _ _).1

theorem runEngine_appendsOpcodes (i : Instr) (s : State) :
    AppendsOpcodes s (runEngine i (invocation i) (ending i) s) := by
  obtain ⟨evs, e, h⟩ := transact_appendsOpcodes (invocation_descriptor_mem i) s
  exact ⟨evs, (runEngine_trace i _ s).trans e, h⟩

/-- The events of INIT's release before its frame (spec/43_initialization.md R184) select nothing. -/
theorem AppendsOpcodes.after_release {s s' t u : State} {r : Reply} (k : CallSpec (.cs false) s r t)
    (hs : s.trace = s'.trace) (h : AppendsOpcodes t u) : AppendsOpcodes s' u := by
  obtain ⟨evs, e, h⟩ := h
  refine ⟨callEvents (.cs false) r ++ evs, by rw [e, k.trace, hs, List.append_assoc], ?_⟩
  cases r with
  | ok qs | fail => exact h.cons (by decide)
  | never => exact h

theorem initCommand_appendsOpcodes (aw : BitVec 3) (tp cp : Bool) (s : State) :
    AppendsOpcodes s (initCommand aw tp cp s) := by
  obtain ⟨-, e⟩ | ⟨-, -, e⟩ | ⟨-, -, r, t, k, -, ⟨-, e⟩ | ⟨-, e⟩ | ⟨qs, -, e⟩⟩ :=
    init_cases aw tp cp s <;> rw [e]
  · exact .of_trace_eq rfl
  · exact .of_trace_eq rfl
  · exact .after_release k rfl (.of_trace_eq rfl)
  · exact .after_release k rfl (.of_trace_eq rfl)
  · exact .after_release k rfl (runEngine_appendsOpcodes (.init aw tp cp) t)

/-- Settles O14: an instruction makes no call, or one frame, or INIT's release and one frame. -/
theorem onlyTheSevenOpcodesAreEmitted : Obligations.OnlyTheSevenOpcodesAreEmitted := by
  intro i s t h
  show AppendsOpcodes s t
  obtain ⟨ho, -⟩ | ⟨ho, hi⟩ | ⟨-, aw, tp, cp, rfl⟩ := instr_kinds i
  · by_cases hl : s.lifecycle = .ready
    · cases (exec_operation i s ho hl).symm.trans h
      exact runEngine_appendsOpcodes i s.accept
    · cases (exec_operation_refused i s ho hl).symm.trans h
      exact .of_trace_eq rfl
  · cases (exec_wire i s ho hi).symm.trans h
    exact runEngine_appendsOpcodes i s.accept
  · cases h
    exact initCommand_appendsOpcodes aw tp cp s.accept

/-! ## Byte forms and burst forms -/

/-- What an engine run leaves on the wire and answers does not depend on the instruction it is latched for. -/
theorem runEngine_instr_irrelevant (i j : Instr) (v : Invocation) (k : EngineResult → State → State) (s : State) :
    (runEngine i v k s).trace = (runEngine j v k s).trace ∧
      (runEngine i v k s).response = (runEngine j v k s).response ∧
      (runEngine i v k s).chip = (runEngine j v k s).chip := by
  unfold runEngine
  generalize transact v s = a
  cases hs : a.stuck <;> simp [hs]

/-- Two operations with one invocation and one ending have one trace, response and chip. -/
theorem exec_alike {i j : Instr} {s t u : State} (hi : isOperation i = true) (hj : isOperation j = true)
    (hv : invocation i = invocation j) (he : ending i = ending j) (ht : exec i s = .next t)
    (hu : exec j s = .next u) : t.trace = u.trace ∧ t.response = u.response ∧ t.chip = u.chip := by
  by_cases hl : s.lifecycle = .ready
  · cases (exec_operation i s hi hl).symm.trans ht
    cases (exec_operation j s hj hl).symm.trans hu
    rw [hv, he]
    exact runEngine_instr_irrelevant i j _ _ _
  · cases (exec_operation_refused i s hi hl).symm.trans ht
    cases (exec_operation_refused j s hj hl).symm.trans hu
    exact ⟨rfl, rfl, rfl⟩

/-- Settles O34: each byte form has the invocation and the ending of its burst form. -/
theorem byteFormsAreBurstsOfOne : Obligations.ByteFormsAreBurstsOfOne :=
  fun _ _ _ _ _ => ⟨exec_alike rfl rfl rfl rfl, exec_alike rfl rfl rfl rfl⟩

end Sys2Proof.Machine

namespace Sys2Proof.Machine

/-! ## The Address Encoder (spec/40_address_encoder.md R120, R121)

The wire carries the address modulo `2^(8w)`, so addresses that agree there make one frame (R126). -/

theorem two_pow_eq_256_pow (w : Nat) : 2 ^ (8 * w) = 256 ^ w := Nat.pow_mul 2 8 w

theorem byteOfNat_and_0xFF (n : Nat) : BitVec.ofNat 8 (n &&& 0xFF) = BitVec.ofNat 8 n := by
  have hmask : n &&& 0xFF = n % 2 ^ 8 := Nat.and_two_pow_sub_one_eq_mod n 8
  rw [hmask]
  exact BitVec.eq_of_toNat_eq (by simp)

/-- The bytes stand most significant first. -/
theorem encodeAddr_getElem? (addr : Nat) {w j : Nat} (h : j < w) :
    (encodeAddr addr w)[j]? = some (BitVec.ofNat 8 (addr >>> (8 * (w - 1 - j)))) := by
  induction w generalizing j with
  | zero => omega
  | succ w ih =>
    cases j with
    | zero => rfl
    | succ j =>
      have hexp : w + 1 - 1 - (j + 1) = w - 1 - j := by omega
      rw [encodeAddr, List.getElem?_cons_succ, hexp]
      exact ih (by omega)

theorem encodeAddr_eq_of_mod_eq {w a b : Nat} (h : a % 2 ^ (8 * w) = b % 2 ^ (8 * w)) :
    encodeAddr a w = encodeAddr b w := by
  rw [two_pow_eq_256_pow] at h
  exact encodeAddr_congr w a b h

/-- Settles O8: the element formula goes by induction on the width, the worked example by evaluation. -/
theorem addressEncoderIsBigEndianTruncation : Obligations.AddressEncoderIsBigEndianTruncation := by
  refine ⟨fun addr w _ _ => ⟨encodeAddr_length addr w, fun j hj => ?_, ?_, fun _ => encodeAddr_eq_of_mod_eq⟩, rfl⟩
  · rw [encodeAddr_getElem? addr hj, byteOfNat_and_0xFF]
  · rw [addrValue_encodeAddr, two_pow_eq_256_pow]

/-- Transact reads its address through the Address Encoder alone. -/
theorem transact_addr_congr (d : Descriptor) {a b : Nat} (wbytes : List Byte) (nread : Nat) {s : State}
    (h : encodeAddr a s.aw = encodeAddr b s.aw) :
    transact ⟨d, a, wbytes, nread⟩ s = transact ⟨d, b, wbytes, nread⟩ s := by
  simp only [transact, h]

theorem runEngine_congr (i : Instr) {v v' : Invocation} (k : EngineResult → State → State) {s : State}
    (h : transact v s = transact v' s) : runEngine i v k s = runEngine i v' k s := by
  simp only [runEngine, h]

/-- No operation moves the lifecycle, however it ends (spec/42_driver_operations.md R160). -/
theorem exec_operation_lifecycle {i : Instr} {s t : State} (ho : isOperation i = true) (h : exec i s = .next t) :
    t.lifecycle = s.lifecycle := by
  by_cases hl : s.lifecycle = .ready
  · cases (exec_operation i s ho hl).symm.trans h
    have hk : (transact (invocation i) s.accept).st.lifecycle = s.lifecycle := (transact_keeps _ s.accept).lifecycle
    obtain ⟨p, -, e⟩ | ⟨-, e⟩ := runEngine_cases i (invocation i) (ending i) s.accept <;> rw [e]
    · exact hk
    · obtain ⟨f, hf, -⟩ := ending_operation i ho
      rw [hf, (endOperation_keeps f _ _).1]
      exact hk
  · cases (exec_operation_refused i s ho hl).symm.trans h
    rfl

/-- Settles O9: the two frames are one frame, so the engine's runs differ only in the instruction latched. -/
theorem congruentAddressesWriteAlike : Obligations.CongruentAddressesWriteAlike := by
  intro s t u a b d hab ht hu
  have hlife : t.lifecycle = u.lifecycle :=
    (exec_operation_lifecycle rfl ht).trans (exec_operation_lifecycle rfl hu).symm
  by_cases hl : s.lifecycle = .ready
  · have hframe : transact (invocation (.writeBytes a d)) s.accept = transact (invocation (.writeBytes b d)) s.accept :=
      transact_addr_congr descWrite d 0 (encodeAddr_eq_of_mod_eq hab)
    cases (exec_operation (.writeBytes a d) s rfl hl).symm.trans ht
    cases (exec_operation (.writeBytes b d) s rfl hl).symm.trans hu
    rw [runEngine_congr _ _ hframe] at hlife ⊢
    obtain ⟨htrace, hresponse, hchip⟩ := runEngine_instr_irrelevant (.writeBytes a d) (.writeBytes b d)
      (invocation (.writeBytes b d)) (endOperation plainResult) s.accept
    exact ⟨htrace, hresponse, hchip, hlife⟩
  · cases (exec_operation_refused (.writeBytes a d) s rfl hl).symm.trans ht
    cases (exec_operation_refused (.writeBytes b d) s rfl hl).symm.trans hu
    exact ⟨rfl, rfl, rfl, rfl⟩

end Sys2Proof.Machine

namespace Sys2Proof.Machine

/-! ## The calls of a frame and their events (spec/41_transaction_engine.md R130, R134) -/

/-- A frame's calls before the release: the selection, the bytes sent, the bytes received. -/
theorem framePlan_calls_split (v : Invocation) (aw : Nat) :
    (framePlan v aw).map Prod.snd = .cs true :: ((transmitted v aw).map .tx ++ List.replicate v.nread .rx) := by
  unfold framePlan transmitted
  cases v.d.addressed <;> simp [planBytes_calls, planReads_calls]

theorem rxCount_append (l m : List Call) : rxCount (l ++ m) = rxCount l + rxCount m := List.countP_append

theorem rxCount_framePlan (v : Invocation) (aw : Nat) : rxCount ((framePlan v aw).map Prod.snd) = v.nread := by
  rw [← rxCount_frame v aw, ← framePlan_calls, rxCount_append]
  rfl

theorem frameCalls_eq (v : Invocation) (aw : Nat) : frameCalls v aw = 2 + (transmitted v aw).length + v.nread := by
  rw [← framePlan_length, ← List.length_map (as := framePlan v aw) Prod.snd, framePlan_calls_split]
  simp
  omega

/-- The bytes received by a call and those received by the calls after it. -/
theorem split_received {c : Call} {l : List Call} {qs : List Byte} (h : qs.length = rxCount (c :: l)) :
    ∃ q qs', qs = q ++ qs' ∧ q.length = receives c ∧ qs'.length = rxCount l := by
  rw [rxCount_cons] at h
  exact ⟨qs.take (receives c), qs.drop (receives c), (List.take_append_drop ..).symm,
    List.length_take_of_le (by omega), by rw [List.length_drop]; omega⟩

theorem okEvents_append {l : List Call} (m : List Call) {qs : List Byte} (qs' : List Byte)
    (h : qs.length = rxCount l) : okEvents (l ++ m) (qs ++ qs') = okEvents l qs ++ okEvents m qs' := by
  induction l generalizing qs with
  | nil => rw [List.length_eq_zero_iff.mp h]; rfl
  | cons c l ih =>
    obtain ⟨q, qs, rfl, hq, hqs⟩ := split_received h
    rw [List.cons_append, List.append_assoc, okEvents_cons hq, okEvents_cons hq, ih hqs, List.append_assoc]

/-- Calls answered `ok` leave one event each. -/
theorem okEvents_length {l : List Call} {qs : List Byte} (h : qs.length = rxCount l) :
    (okEvents l qs).length = l.length := by
  induction l generalizing qs with
  | nil => rfl
  | cons c l ih =>
    obtain ⟨q, qs, rfl, hq, hqs⟩ := split_received h
    obtain ⟨e, he, -⟩ := callEvents_ok_facts hq
    rw [okEvents_cons hq, he, List.singleton_append, List.length_cons, ih hqs, List.length_cons]

/-- The events of a first part of a frame's calls are the first events of a whole frame. -/
theorem okEvents_prefix {v : Invocation} {aw : Nat} {l m : List Call} {qs : List Byte}
    (hl : frameCallList v aw = l ++ m) (h : qs.length = rxCount l) :
    ∃ qs', qs'.length = v.nread ∧ (frameEvents (transmitted v aw) qs').take l.length = okEvents l qs := by
  have hlen : (qs ++ List.replicate (rxCount m) 0).length = v.nread := by
    rw [List.length_append, List.length_replicate, h, ← rxCount_append, ← hl, rxCount_frame]
  refine ⟨_, hlen, ?_⟩
  rw [← okEvents_frame v aw _ hlen, hl, okEvents_append m _ h, List.take_left' (okEvents_length h)]

/-! ## A frame with no failure -/

/-- What Transact leaves when every call is answered `ok` and the bytes received are `qs`. -/
structure FrameDone (v : Invocation) (s : State) (qs : List Byte) : Prop where
  failed : (transact v s).failed = false
  stuck : (transact v s).stuck = none
  rbytes : (transact v s).rbytes = qs
  length : qs.length = v.nread
  own : OwnBytes (1 + (transmitted v s.aw).length) s.answers qs
  trace : (transact v s).st.trace = s.trace ++ frameEvents (transmitted v s.aw) qs
  answers : (transact v s).st.answers = s.answers.drop (2 + (transmitted v s.aw).length + v.nread)

theorem release_eq_guarded {a : EngineRun} (hf : a.failed = false) (hs : a.stuck = none) :
    release a = guarded .desel (.cs false) a := by
  simp [release, guarded, hf, hs]

theorem frameDone_of_okCalls {v : Invocation} {s : State} (h : okCalls (frameCalls v s.aw) s.answers = true) :
    ∃ qs, FrameDone v s qs := by
  obtain ⟨hfailed, hstuck, hanswers⟩ := transact_ok h
  rw [← framePlan_length] at h
  obtain ⟨hplan, hrel⟩ := okCalls_add h
  obtain ⟨own, rest, ha, -⟩ := okCalls_cons hrel
  obtain ⟨qs, hlen, hf, hs, hrbytes, htrace, han, -, hown⟩ :=
    runCalls_ok (framePlan v s.aw) { st := s } rfl rfl hplan
  obtain ⟨q, t, -, k, hlast, -⟩ := guarded_ok (p := .desel) (c := .cs false) hf hs (han.trans ha)
  obtain rfl := List.length_eq_zero_iff.mp (k.count q rfl)
  have hrun := (transact_eq v s).trans ((release_eq_guarded hf hs).trans hlast)
  have hnread : qs.length = v.nread := hlen.trans (rxCount_framePlan v s.aw)
  refine ⟨qs, hfailed, hstuck, ?_, hnread, fun j b hj hb => ?_, ?_, frameCalls_eq v s.aw ▸ hanswers⟩
  · simp [hrun, hrbytes]
  · have hsize : (framePlan v s.aw).length = 1 + (transmitted v s.aw).length + v.nread := by
      have := framePlan_length v s.aw
      have := frameCalls_eq v s.aw
      omega
    refine hown (1 + (transmitted v s.aw).length) j ?_ (by omega) ?_ b hb <;>
      rw [framePlan_calls_split, Nat.add_comm 1]
    · simp [hsize, Nat.add_comm 1]
    · simp [rxCount, List.countP_eq_zero]
  · rw [hrun, k.trace, htrace, ← okEvents_frame v s.aw qs hnread, ← framePlan_calls,
      ← List.append_nil qs, okEvents_append _ _ hlen, List.append_nil, List.append_assoc]
    rfl

/-- Settles O15: the plan's calls and the release are each answered `ok`. -/
theorem transactTraceWhenNoCallFails : Obligations.TransactTraceWhenNoCallFails := by
  intro v s h
  obtain ⟨qs, d⟩ := frameDone_of_okCalls h
  exact ⟨qs, d.length, d.stuck, by rw [d.failed, d.rbytes]; rfl, d.trace, d.own⟩

/-! ## A frame that meets a failure (R133) -/

/-- The next call is answered, `ok` or `fail`. -/
def nextAnswered : List Answer → Bool
  | .ok _ :: _ => true
  | .fail _ :: _ => true
  | .never _ :: _ => false
  | [] => false

/-- The failure that `failsAt` places: the answers before it, and after it the release's. -/
theorem failsAt_split {n i : Nat} {as : List Answer} (h : failsAt n i as = true) :
    i < n ∧ okCalls i as = true ∧ ∃ arrived rest, as.drop i = .fail arrived :: rest ∧
      (i + 1 < n → nextAnswered rest = true) := by
  induction i generalizing n as with
  | zero =>
    match n, as, h with
    | 1, .fail arrived :: rest, _ => exact ⟨by omega, rfl, arrived, rest, rfl, fun hn => by omega⟩
    | n + 2, .fail arrived :: .ok own :: rest, _ => exact ⟨by omega, rfl, arrived, _, rfl, fun _ => rfl⟩
    | n + 2, .fail arrived :: .fail arrived' :: rest, _ => exact ⟨by omega, rfl, arrived, _, rfl, fun _ => rfl⟩
  | succ i ih =>
    match n, as, h with
    | n + 1, .ok own :: rest, h =>
      obtain ⟨hi, hok, arrived, rest', hdrop, hnext⟩ := ih (n := n) (as := rest) h
      exact ⟨by omega, hok, arrived, rest', hdrop, fun hn => hnext (by omega)⟩

/-- A guarded call whose answer stands in the list as `fail`. -/
theorem guarded_fail {p : Phase} {c : Call} {a : EngineRun} {arrived : Bool} {rest : List Answer}
    (hf : a.failed = false) (hs : a.stuck = none) (h : a.st.answers = .fail arrived :: rest) :
    ∃ t, CallSpec c a.st .fail t ∧ guarded p c a = { a with st := t, failed := true } := by
  have hfail := doCall_fail (c := c) h
  have hg : guarded p c a = attempt p c a := by simp [guarded, hf, hs]
  obtain ⟨r, t, e, k, hcase⟩ := attempt_cases p c a
  rw [e] at hfail
  subst hfail
  obtain ⟨_, hr, -⟩ | ⟨-, ha⟩ | ⟨hr, -⟩ := hcase
  · cases hr
  · exact ⟨t, k, hg.trans ha⟩
  · cases hr

/-- What a run of calls has left that stopped at a failure: the calls `l` were answered `ok` before it, the call
`c` failed, and the answers `rest` are left. -/
structure StoppedAt (l : List Call) (c : Call) (a b : EngineRun) (rest : List Answer) (qs : List Byte) : Prop where
  failed : b.failed = true
  stuck : b.stuck = none
  length : qs.length = rxCount l
  trace : b.st.trace = a.st.trace ++ okEvents l qs ++ [Ev.fail c]
  answers : b.st.answers = rest

/-- The calls after the first failure are not made (R133 (a)). -/
theorem runCalls_fail {l m : List (Phase × Call)} {p : Phase} {c : Call} {a : EngineRun} {arrived : Bool}
    {rest : List Answer} (hf : a.failed = false) (hs : a.stuck = none)
    (hok : okCalls l.length a.st.answers = true) (hfail : a.st.answers.drop l.length = .fail arrived :: rest) :
    ∃ qs, StoppedAt (l.map Prod.snd) c a (runCalls (l ++ (p, c) :: m) a) rest qs := by
  obtain ⟨qs, hlen, hf', hs', -, htrace, hanswers, -⟩ := runCalls_ok l a hf hs hok
  obtain ⟨t, k, e⟩ := guarded_fail (p := p) (c := c) hf' hs' (hanswers.trans hfail)
  rw [runCalls_append, runCalls_cons, e, runCalls_stopped m (by simp)]
  refine ⟨qs, rfl, hs', hlen, ?_, ?_⟩
  · rw [k.trace, htrace]; rfl
  · rw [k.answers, hanswers, hfail]; rfl

theorem doCall_answered (c : Call) {s : State} (h : nextAnswered s.answers = true) : (doCall c s).1 ≠ .never := by
  rcases ha : s.answers with _ | ⟨_ | _ | _, rest⟩
  · simp [ha, nextAnswered] at h
  · rw [doCall_ok ha]
    cases c <;> nofun
  · rw [doCall_fail ha]
    nofun
  · simp [ha, nextAnswered] at h

theorem attempt_answered {p : Phase} {c : Call} {a : EngineRun} (h : nextAnswered a.st.answers = true) :
    (attempt p c a).stuck = a.stuck := by
  obtain ⟨r, t, e, -, ⟨_, -, ha⟩ | ⟨-, ha⟩ | ⟨rfl, -⟩⟩ := attempt_cases p c a
  · rw [ha]
  · rw [ha]
  · exact absurd (congrArg Prod.fst e) (doCall_answered c h)

/-- A release that is answered, after a failure (R133 (b)). -/
theorem release_failed {a : EngineRun} (hf : a.failed = true) (hs : a.stuck = none)
    (h : nextAnswered a.st.answers = true) :
    (release a).failed = true ∧ (release a).stuck = none ∧
      ∃ e : Ev, (e = .cs false ∨ e = .fail (.cs false)) ∧ (release a).st.trace = a.st.trace ++ [e] := by
  have hnever : (release a).stuck = none := by simp [release, hs, attempt_answered h]
  obtain ⟨htrace, hfailed, hstuck, -⟩ | ⟨htrace, hfailed, hstuck, -⟩ | ⟨-, -, hstuck, -⟩ := release_cases hs
  · exact ⟨hfailed.trans hf, hstuck, _, .inl rfl, htrace⟩
  · exact ⟨hfailed, hstuck, _, .inr rfl, htrace⟩
  · exact nomatch hstuck.symm.trans hnever

/-- What Transact leaves when call `i` is the first that fails. -/
structure FrameFailed (v : Invocation) (s : State) (i : Nat) (c : Call) (qs : List Byte) : Prop where
  failed : (transact v s).failed = true
  stuck : (transact v s).stuck = none
  call : (frameCallList v s.aw)[i]? = some c
  length : qs.length = v.nread
  trace : (i + 1 = frameCalls v s.aw ∧
      (transact v s).st.trace = s.trace ++ (frameEvents (transmitted v s.aw) qs).take i ++ [Ev.fail c]) ∨
    (i + 1 < frameCalls v s.aw ∧ ∃ e : Ev, (e = .cs false ∨ e = .fail (.cs false)) ∧
      (transact v s).st.trace = s.trace ++ (frameEvents (transmitted v s.aw) qs).take i ++ [Ev.fail c, e])

/-- The failure is the release's own. -/
theorem frameFailed_release {v : Invocation} {s : State} {arrived : Bool} {rest : List Answer}
    (hok : okCalls (framePlan v s.aw).length s.answers = true)
    (hfail : s.answers.drop (framePlan v s.aw).length = .fail arrived :: rest) :
    ∃ qs, FrameFailed v s (framePlan v s.aw).length (.cs false) qs := by
  obtain ⟨_, -, hf, hs, -⟩ := runCalls_ok (framePlan v s.aw) { st := s } rfl rfl hok
  obtain ⟨qs, h⟩ := runCalls_fail (l := framePlan v s.aw) (m := []) (p := .desel) (c := .cs false)
    (a := { st := s }) rfl rfl hok hfail
  have hrun : transact v s = runCalls (framePlan v s.aw ++ [(.desel, .cs false)]) { st := s } := by
    rw [transact_eq, release_eq_guarded hf hs, runCalls_append]; rfl
  rw [← hrun] at h
  obtain ⟨qs', hlen, hevents⟩ := okEvents_prefix (framePlan_calls v s.aw).symm h.length
  rw [List.length_map] at hevents
  refine ⟨qs', h.failed, h.stuck, ?_, hlen, .inl ⟨framePlan_length v s.aw, ?_⟩⟩
  · simp [← framePlan_calls]
  · rw [hevents, h.trace]

/-- The failure is that of a call before the release. -/
theorem frameFailed_call {v : Invocation} {s : State} {l m : List (Phase × Call)} {p : Phase} {c : Call}
    {arrived : Bool} {rest : List Answer} (hplan : framePlan v s.aw = l ++ (p, c) :: m)
    (hok : okCalls l.length s.answers = true) (hfail : s.answers.drop l.length = .fail arrived :: rest)
    (hrest : nextAnswered rest = true) : ∃ qs, FrameFailed v s l.length c qs := by
  obtain ⟨qs, h⟩ := runCalls_fail (l := l) (m := m) (p := p) (c := c) (a := { st := s }) rfl rfl hok hfail
  rw [← hplan] at h
  obtain ⟨hfailed, hstuck, e, he, htrace⟩ := release_failed h.failed h.stuck (h.answers ▸ hrest)
  rw [← transact_eq] at hfailed hstuck htrace
  have hcalls : frameCallList v s.aw = l.map Prod.snd ++ c :: (m.map Prod.snd ++ [.cs false]) := by
    rw [← framePlan_calls, hplan]; simp
  obtain ⟨qs', hlen, hevents⟩ := okEvents_prefix hcalls h.length
  rw [List.length_map] at hevents
  refine ⟨qs', hfailed, hstuck, ?_, hlen, .inr ⟨?_, e, he, ?_⟩⟩
  · simp [hcalls]
  · rw [← framePlan_length, hplan]; simp
  · rw [htrace, hevents, h.trace, List.append_assoc]; rfl

theorem frameFailed_of_failsAt {v : Invocation} {s : State} {i : Nat}
    (h : failsAt (frameCalls v s.aw) i s.answers = true) : ∃ c qs, FrameFailed v s i c qs := by
  obtain ⟨hi, hok, arrived, rest, hfail, hrest⟩ := failsAt_split h
  have hlen := framePlan_length v s.aw
  by_cases hlast : i = (framePlan v s.aw).length
  · subst hlast
    exact ⟨_, frameFailed_release hok hfail⟩
  · have hlt : i < (framePlan v s.aw).length := by omega
    have hl : ((framePlan v s.aw).take i).length = i := List.length_take_of_le hlt.le
    have hplan : framePlan v s.aw = (framePlan v s.aw).take i ++ (framePlan v s.aw)[i] ::
        (framePlan v s.aw).drop (i + 1) := by
      rw [← List.drop_eq_getElem_cons hlt, List.take_append_drop]
    obtain ⟨qs, d⟩ := frameFailed_call hplan (by rwa [hl]) (by rwa [hl]) (hrest (by omega))
    exact ⟨_, qs, hl ▸ d⟩

/-- Settles O16: the calls before the failure are answered `ok`, and after it only the release is made. -/
theorem transactTraceWhenACallFails : Obligations.TransactTraceWhenACallFails := by
  intro v s i h
  obtain ⟨c, qs, d⟩ := frameFailed_of_failsAt h
  exact ⟨qs, c, d.length, d.call, d.stuck, by rw [d.failed]; rfl, transact_cs v s d.stuck, d.trace⟩

/-! ## Selected once, released once (R134, R135) -/

/-- After the selection and before the release, no call of a frame is a chip-select call. -/
theorem framePlan_inner {v : Invocation} {aw k : Nat} {c : Call} {e : Ev}
    (hc : ((framePlan v aw).map Prod.snd)[k + 1]? = some c) (he : eventOf c e) : isCsEvent e = false := by
  rw [framePlan_calls_split, List.getElem?_cons_succ] at hc
  have hmem := List.mem_of_getElem? hc
  simp only [List.mem_append, List.mem_map, List.mem_replicate] at hmem
  obtain ⟨b, -, rfl⟩ | ⟨-, rfl⟩ := hmem
  · obtain rfl | rfl := he <;> rfl
  · obtain rfl | ⟨q, rfl⟩ := he <;> rfl

/-- What the calls before the release have left: the selection's event first, then no chip-select event. -/
theorem framePlan_events {v : Invocation} {s : State}
    (hs : (runCalls (framePlan v s.aw) { st := s }).stuck = none) :
    ∃ first mid, (runCalls (framePlan v s.aw) { st := s }).st.trace = s.trace ++ first :: mid ∧
      (first = .cs true ∨ first = .fail (.cs true)) ∧ ∀ e ∈ mid, isCsEvent e = false := by
  obtain ⟨evs, h⟩ := runCalls_trace (framePlan v s.aw) { st := s } rfl rfl
  obtain ⟨first, mid, rfl⟩ := List.exists_cons_of_ne_nil (h.first hs (by simp [framePlan]))
  refine ⟨first, mid, h.trace, ?_, fun e he => ?_⟩
  · obtain ⟨c, hc, he⟩ := h.aligned 0 first rfl
    rw [framePlan_calls_split] at hc
    cases hc
    exact he.symm
  · obtain ⟨k, hk⟩ := List.mem_iff_getElem?.mp he
    obtain ⟨c, hc, hce⟩ := h.aligned (k + 1) e hk
    exact framePlan_inner hc hce

/-- Settles O17: the selection is the plan's first call, no other call of the plan is a chip-select call, and a
run that ends has made the release. -/
theorem everyFrameIsSelectedAndReleasedOnce : Obligations.EveryFrameIsSelectedAndReleasedOnce := by
  intro v s h
  refine ⟨transact_cs v s h, ?_⟩
  rw [transact_eq] at h ⊢
  cases hs : (runCalls (framePlan v s.aw) { st := s }).stuck with
  | some p => rw [release_stuck hs, hs] at h; cases h
  | none =>
    obtain ⟨first, mid, htrace, hfirst, hmid⟩ := framePlan_events hs
    obtain ⟨e, -⟩ | ⟨e, -⟩ | ⟨-, -, hstuck, -⟩ := release_cases hs
    · exact ⟨first, mid, .cs false, by rw [e, htrace, List.append_assoc, List.cons_append], hfirst, .inl rfl, hmid⟩
    · exact ⟨first, mid, .fail (.cs false), by rw [e, htrace, List.append_assoc, List.cons_append], hfirst,
        .inr rfl, hmid⟩
    · cases hstuck.symm.trans h

/-! ## One transport call at a time (R136) -/

/-- Settles O18: `exec_eq_drive` is the equation of the two runs. -/
theorem callByCallRunEqualsTheCommand : Obligations.CallByCallRunEqualsTheCommand := by
  intro i s t n haw hp hn he
  exact Host.Outcome.next.inj ((exec_eq_drive i haw hp hn).symm.trans he)

/-! ## A command that is one run of the engine: how its frame leaves the block -/

/-- Only INIT's ending writes more than the two results. -/
theorem ending_writes_results {i : Instr} (hi : isInit i = false) (r : EngineResult) (s : State) :
    ending i r s = { s with
      response := (ending i r s).response, engineResult := (ending i r s).engineResult } := by
  obtain ⟨ho, -⟩ | ⟨ho, -⟩ | ⟨-, aw, tp, cp, rfl⟩ := instr_kinds i
  · obtain ⟨f, hf, -⟩ := ending_operation i ho
    rw [hf, (endOperation_keeps f r s).1]
  · rw [ending_wire i ho hi]
    rfl
  · cases hi

theorem ending_answers {i : Instr} (hi : isInit i = false) (r : EngineResult) (s : State) :
    (ending i r s).answers = s.answers := by rw [ending_writes_results hi]

/-- A run of the engine that ends leaves the block as R160 says, whatever its result. -/
theorem blockKept_ending {i : Instr} {v : Invocation} {s : State} (hi : isInit i = false)
    (hs : (transact v s.accept).stuck = none) (r : EngineResult) :
    BlockKept s (ending i r (transact v s.accept).st) := by
  have k := transact_keeps v s.accept
  rw [ending_writes_results hi]
  exact ⟨k.lifecycle, k.aw, transact_cs v s.accept hs, k.progress, k.inputs⟩

/-- `i` is run from `s` as its one engine invocation, and is no INIT. -/
structure OneRun (i : Instr) (s : State) : Prop where
  notInit : isInit i = false
  run : exec i s = .next (runEngine i (invocation i) (ending i) s.accept)

theorem oneRun_wire {i : Instr} (ho : isOperation i = false) (hi : isInit i = false) (s : State) : OneRun i s :=
  ⟨hi, exec_wire i s ho hi⟩

theorem OneRun.runsFrame {i : Instr} {s : State} (o : OneRun i s)
    (h : okCalls (frameCalls (invocation i) s.aw) s.answers = true) {post : List Byte → State → Prop}
    (hpost : ∀ qs, FrameDone (invocation i) s.accept qs →
      post qs (ending i ⟨.ok, qs⟩ (transact (invocation i) s.accept).st)) :
    RunsFrame i s (transmitted (invocation i) s.aw) (invocation i).nread post := by
  obtain ⟨qs, d⟩ := frameDone_of_okCalls (s := s.accept) h
  obtain ⟨_, hs, -⟩ | ⟨-, e⟩ := runEngine_cases i (invocation i) (ending i) s.accept
  · cases hs.symm.trans d.stuck
  rw [d.failed, d.rbytes] at e
  obtain ⟨htrace, -⟩ := ending_facts i ⟨.ok, qs⟩ (transact (invocation i) s.accept).st
  exact ⟨_, qs, o.run.trans (congrArg _ e), d.length, d.own, htrace.trans d.trace,
    (ending_answers o.notInit _ _).trans d.answers, blockKept_ending o.notInit d.stuck _, hpost qs d⟩

/-- A run of the engine in which a call fails ends, with the engine's result `TransportError` and no data (R133). -/
theorem OneRun.fails {i : Instr} {s : State} {j : Nat} (o : OneRun i s)
    (h : failsAt (frameCalls (invocation i) s.aw) j s.answers = true) :
    ∃ u, exec i s = .next (ending i ⟨.transportError, []⟩ u) ∧ u.response = none ∧ u.engineResult = none ∧
      BlockKept s (ending i ⟨.transportError, []⟩ u) := by
  obtain ⟨c, qs, d⟩ := frameFailed_of_failsAt (s := s.accept) h
  have k := transact_keeps (invocation i) s.accept
  obtain ⟨_, hs, -⟩ | ⟨-, e⟩ := runEngine_cases i (invocation i) (ending i) s.accept
  · cases hs.symm.trans d.stuck
  rw [d.failed] at e
  exact ⟨_, o.run.trans (congrArg _ e), k.response, k.engineResult, blockKept_ending o.notInit d.stuck _⟩

/-- The chip after a whole frame sent to it between frames: the effect of the instruction it reads there
(spec/20_memory.md R61 to R69). -/
theorem transact_chipEffect {v : Invocation} {s : State} {i : Instr} (hc : s.chip.frame = none)
    (h : okCalls (frameCalls v s.aw) s.answers = true)
    (hd : chipCalls (frameCalls v s.aw) s.answers = true ∨ ∀ j, j < v.nread →
        chipDrives (withFrame s { tx := transmitted v s.aw, nrx := j }) = none)
    (hm : ∀ st : State, st.chip.addrBytes = s.chip.addrBytes → st.aw = s.aw →
      frameMeaning st { tx := transmitted v s.aw, nrx := v.nread } = some i) :
    (transact v s).st.chip = chipEffect s.chip i := by
  obtain ⟨_, st, -, -, hst, haw, hchip, -⟩ := chip_sees_frame v s h hc hd
  rw [hchip, chipDeselected_chip hst (hm st (by rw [hst]) haw), ← hc]

/-! ## The seven wire opcodes (R140 to R146) -/

/-- The wire opcode `i` at width `aw`: what its frame transmits, how much it receives, how many calls it takes. -/
structure WireFrame (i : Instr) (aw : Nat) (tx : List Byte) (nrx calls : Nat) : Prop where
  notOperation : isOperation i = false
  notInit : isInit i = false
  transmitted : transmitted (invocation i) aw = tx
  nread : (invocation i).nread = nrx
  calls : frameCalls (invocation i) aw = calls

theorem wireFrame_wren (aw : Nat) : WireFrame .wren aw [0x06] 0 3 := ⟨rfl, rfl, rfl, rfl, rfl⟩
theorem wireFrame_wrdi (aw : Nat) : WireFrame .wrdi aw [0x04] 0 3 := ⟨rfl, rfl, rfl, rfl, rfl⟩
theorem wireFrame_rdsr (aw : Nat) : WireFrame .rdsr aw [0x05] 1 4 := ⟨rfl, rfl, rfl, rfl, rfl⟩
theorem wireFrame_wrsr (v : Byte) (aw : Nat) : WireFrame (.wrsr v) aw [0x01, v] 1 5 := ⟨rfl, rfl, rfl, rfl, rfl⟩
theorem wireFrame_rdid (aw : Nat) : WireFrame .rdid aw [0x9F] 4 7 := ⟨rfl, rfl, rfl, rfl, rfl⟩
theorem wireFrame_read (addr n aw : Nat) :
    WireFrame (.read addr n) aw (0x03 :: encodeAddr addr aw) n (3 + aw + n) :=
  ⟨rfl, rfl, transmitted_read addr n aw, rfl, rfl⟩
theorem wireFrame_write (addr : Nat) (data : List Byte) (aw : Nat) :
    WireFrame (.write addr data) aw (0x02 :: (encodeAddr addr aw ++ data)) 0 (3 + aw + data.length) :=
  ⟨rfl, rfl, rfl, rfl, rfl⟩

section
variable {i : Instr} {s : State} {tx : List Byte} {nrx n : Nat} (w : WireFrame i s.aw tx nrx n)
include w

/-- All calls answered `ok`: the engine's result is the bytes received; of the chip, `post` speaks. -/
theorem WireFrame.runs (h : okCalls n s.answers = true) {post : List Byte → State → Prop}
    (hpost : ∀ t : State, t.chip = (transact (invocation i) s.accept).st.chip →
      post (transact (invocation i) s.accept).rbytes t) :
    RunsFrame i s tx nrx fun qs t => t.engineResult = some ⟨.ok, qs⟩ ∧ t.response = none ∧ post qs t := by
  obtain ⟨ho, hi, rfl, rfl, rfl⟩ := w
  refine (oneRun_wire ho hi s).runsFrame h fun qs d => ?_
  obtain ⟨-, hchip, -⟩ := ending_facts i ⟨.ok, qs⟩ (transact (invocation i) s.accept).st
  have hqs := hpost _ hchip
  rw [d.rbytes] at hqs
  refine ⟨?_, ?_, hqs⟩ <;> rw [ending_wire i ho hi]
  · rfl
  · exact (transact_keeps (invocation i) s.accept).response

/-- All calls answered `ok`: the chip, between frames before, shows the effect of the instruction it reads. -/
theorem WireFrame.chip {j : Instr} (h : okCalls n s.answers = true) (hc : s.chip.frame = none)
    (hd : chipCalls n s.answers = true ∨ ∀ k, k < nrx → chipDrives (withFrame s { tx := tx, nrx := k }) = none)
    (hm : ∀ st : State, st.chip.addrBytes = s.chip.addrBytes → st.aw = s.aw →
      frameMeaning st { tx := tx, nrx := nrx } = some j) :
    (transact (invocation i) s.accept).st.chip = chipEffect s.chip j := by
  obtain ⟨-, -, rfl, rfl, rfl⟩ := w
  exact transact_chipEffect (s := s.accept) hc h hd hm

/-- A failing call: the run ends in `(TransportError, [])`. -/
theorem WireFrame.fails {j : Nat} (h : failsAt n j s.answers = true) : EngineFails i s := by
  obtain ⟨ho, hi, -, -, rfl⟩ := w
  obtain ⟨u, he, hresponse, -, hkept⟩ := (oneRun_wire ho hi s).fails h
  rw [ending_wire i ho hi] at he hkept
  exact ⟨_, he, rfl, hresponse, hkept⟩

end

/-- An opcode that receives nothing: the engine's result has no byte. -/
theorem RunsFrame.no_bytes {i : Instr} {s : State} {tx : List Byte} {post : State → Prop}
    (h : RunsFrame i s tx 0 fun qs t => t.engineResult = some ⟨.ok, qs⟩ ∧ t.response = none ∧ post t) :
    RunsFrame i s tx 0 fun _ t => t.engineResult = some ⟨.ok, []⟩ ∧ t.response = none ∧ post t := by
  obtain ⟨t, qs, he, hlen, hrest⟩ := h
  obtain rfl := List.length_eq_zero_iff.mp hlen
  exact ⟨t, [], he, hlen, hrest⟩

/-- Settles O20: the chip reads WREN and WRDI and moves the latch. -/
theorem wrenAndWrdiRunTheirFrames : Obligations.WrenAndWrdiRunTheirFrames := by
  intro s
  have wren := wireFrame_wren s.aw
  have wrdi := wireFrame_wrdi s.aw
  refine ⟨fun h => ⟨?_, ?_⟩, fun j h => ⟨wren.fails h, wrdi.fails h⟩⟩
  · exact (wren.runs h fun t ht hc =>
      ht.trans (wren.chip h hc (.inr nofun) fun st _ _ => frameMeaning_wren st)).no_bytes
  · exact (wrdi.runs h fun t ht hc =>
      ht.trans (wrdi.chip h hc (.inr nofun) fun st _ _ => frameMeaning_wrdi st)).no_bytes

/-- Settles O21: the chip reads RDSR, which has no effect. -/
theorem rdsrRunsItsFrame : Obligations.RdsrRunsItsFrame := by
  intro s
  have rdsr := wireFrame_rdsr s.aw
  exact ⟨fun h => rdsr.runs h fun t ht hc hcalls =>
    ht.trans (rdsr.chip h hc (.inl hcalls) fun st _ _ => frameMeaning_rdsr st), fun j => rdsr.fails⟩

/-- The one byte received in a WRSR frame is a draw. -/
theorem chipDrives_echo (s : State) (v : Byte) {k : Nat} (hk : k < 1) :
    chipDrives (withFrame s { tx := [0x01, v], nrx := k }) = none := by
  obtain rfl : k = 0 := by omega
  exact chipDrives_wrsr rfl

/-- Settles O22: the echo is a draw, so whatever is received the chip reads WRSR. -/
theorem wrsrRunsItsFrame : Obligations.WrsrRunsItsFrame := by
  intro v s
  have wrsr := wireFrame_wrsr v s.aw
  exact ⟨fun h => wrsr.runs h fun t ht hc =>
    ht.trans (wrsr.chip h hc (.inr fun _ => chipDrives_echo s v) fun st _ _ => frameMeaning_wrsr st v),
    fun j => wrsr.fails⟩

/-- Settles O23: `transact_read` says what a READ answered by the chip returns and leaves. -/
theorem readRunsItsFrame : Obligations.ReadRunsItsFrame := by
  intro addr n s
  have read := wireFrame_read addr n s.aw
  refine ⟨fun h => read.runs h fun t ht hready hcalls => ?_, fun j => read.fails⟩
  rw [← read.calls] at hcalls
  obtain ⟨hchip, hlen, hbytes⟩ := transact_read (s := s.accept) hready hcalls
  exact ⟨ht.trans hchip, fun k cell hk => hbytes k cell (hlen ▸ hk)⟩

theorem read_chipEffect_write (c : Chip) (a : Nat) (d : List Byte) (hwf : c.mem.wf = true) (x : Nat) :
    (chipEffect c (.write a d)).mem.read x = afterBurst c a d x := by
  show Memory.read (if c.wel then Memory.writeBurst c.mem a d else c.mem) x = _
  unfold afterBurst
  split
  · exact Memory.read_writeBurst d c.mem a hwf x
  · rfl

/-- Settles O24: the chip reads WRITE at the address that reached the wire, and its effect is the burst. -/
theorem writeRunsItsFrame : Obligations.WriteRunsItsFrame := by
  intro addr data s
  have write := wireFrame_write addr data s.aw
  refine ⟨fun h => (write.runs h fun t ht hready hwf => ?_).no_bytes, fun j => write.fails⟩
  obtain ⟨hc, hw⟩ := hready
  have hchip : t.chip = chipEffect s.chip (.write (addr % 2 ^ (8 * s.aw)) data) :=
    ht.trans (write.chip h hc (.inr nofun) fun st haddr haw =>
      frameMeaning_write addr s.aw data st (haddr.trans hw) haw)
  rw [hchip]
  exact ⟨rfl, read_chipEffect_write s.chip _ data hwf⟩

/-- Settles O25: the chip reads RDID, which has no effect. -/
theorem rdidRunsItsFrame : Obligations.RdidRunsItsFrame := by
  intro s
  have rdid := wireFrame_rdid s.aw
  exact ⟨fun h => rdid.runs h fun t ht hc hcalls =>
    ht.trans (rdid.chip h hc (.inl hcalls) fun st _ _ => frameMeaning_rdid st), fun j => rdid.fails⟩

end Sys2Proof.Machine

namespace Sys2Proof.Machine

/-! ## The eight operations (spec/42_driver_operations.md R160 to R168)

Each is one run of the engine with the invocation of one wire opcode (spec/30_encoding.md R101), so what its frame
does is what the frame of that opcode does. -/

/-- The operation `i` runs the frame of the wire opcode `j` and answers with `result` of the bytes received. -/
structure RunsOpcode (i j : Instr) (result : List Byte → Response) : Prop where
  operation : isOperation i = true
  wire : isOperation j = false ∧ isInit j = false
  frame : invocation i = invocation j
  answer : ending i = endOperation result

theorem runsOpcode_writeEnable (enable : Bool) :
    RunsOpcode (.writeEnable enable) (if enable then .wren else .wrdi) plainResult := by
  cases enable <;> exact ⟨rfl, ⟨rfl, rfl⟩, rfl, rfl⟩
theorem runsOpcode_writeByte (addr : Nat) (value : Byte) :
    RunsOpcode (.writeByte addr value) (.write addr [value]) plainResult := ⟨rfl, ⟨rfl, rfl⟩, rfl, rfl⟩
theorem runsOpcode_writeBytes (addr : Nat) (wbytes : List Byte) :
    RunsOpcode (.writeBytes addr wbytes) (.write addr wbytes) plainResult := ⟨rfl, ⟨rfl, rfl⟩, rfl, rfl⟩
theorem runsOpcode_readByte (addr : Nat) :
    RunsOpcode (.readByte addr) (.read addr 1) bytesResult := ⟨rfl, ⟨rfl, rfl⟩, rfl, rfl⟩
theorem runsOpcode_readBytes (addr count : Nat) :
    RunsOpcode (.readBytes addr count) (.read addr count) bytesResult := ⟨rfl, ⟨rfl, rfl⟩, rfl, rfl⟩
theorem runsOpcode_getDeviceId : RunsOpcode .getDeviceId .rdid identityResult := ⟨rfl, ⟨rfl, rfl⟩, rfl, rfl⟩
theorem runsOpcode_getStatus : RunsOpcode .getStatus .rdsr bytesResult := ⟨rfl, ⟨rfl, rfl⟩, rfl, rfl⟩
theorem runsOpcode_setStatus (value : Byte) :
    RunsOpcode (.setStatus value) (.wrsr value) plainResult := ⟨rfl, ⟨rfl, rfl⟩, rfl, rfl⟩

theorem setEngineResult_endEngine {s : State} (h : s.engineResult = none) (r : EngineResult) :
    (endEngine r s).setEngineResult none = s := by
  cases s
  cases h
  rfl

section
variable {i j : Instr} {result : List Byte → Response} (o : RunsOpcode i j result) {s : State}
include o

/-- In `Ready` an operation ends where its opcode's run at the engine's port ends, the result answered to the
host in place of standing at the port. -/
theorem RunsOpcode.exec_eq {t : State} {r : EngineResult} (hl : s.lifecycle = .ready) (he : exec j s = .next t)
    (hr : t.engineResult = some r) :
    exec i s = .next (endOperation result r (t.setEngineResult none)) := by
  obtain ⟨hop, ⟨hjo, hji⟩, hframe, hanswer⟩ := o
  have hport : (transact (invocation j) s.accept).st.engineResult = none :=
    (transact_keeps _ s.accept).engineResult
  cases (exec_wire j s hjo hji).symm.trans he
  rw [exec_operation i s hop hl, hframe, hanswer]
  rw [ending_wire j hjo hji] at hr ⊢
  obtain ⟨p, -, e⟩ | ⟨hs, e⟩ := runEngine_cases j (invocation j) endEngine s.accept <;> rw [e] at hr ⊢
  · exact nomatch hr.symm.trans hport
  · cases hr
    rw [setEngineResult_endEngine hport]
    simp [runEngine, hs]

/-- What the opcode's run has left is what the operation leaves, with its response. -/
theorem RunsOpcode.runsFrame {tx : List Byte} {nrx : Nat} {post post' : List Byte → State → Prop}
    (hl : s.lifecycle = .ready) (h : RunsFrame j s tx nrx post)
    (hpost : ∀ qs t, qs.length = nrx → post qs t → ∃ rb, t.engineResult = some ⟨.ok, rb⟩ ∧
      post' qs (respond (result rb) (t.setEngineResult none))) :
    RunsFrame i s tx nrx post' := by
  obtain ⟨t, qs, he, hlen, hown, htrace, hanswers, hkept, hp⟩ := h
  obtain ⟨rb, hr, hp'⟩ := hpost qs t hlen hp
  exact ⟨_, qs, o.exec_eq hl he hr, hlen, hown, htrace, hanswers, hkept, hp'⟩

theorem RunsOpcode.endsInTransportError (hl : s.lifecycle = .ready) (h : EngineFails j s) :
    EndsInTransportError i s := by
  obtain ⟨t, he, hr, -, hkept⟩ := h
  exact ⟨_, o.exec_eq hl he hr, rfl, rfl, hkept⟩

/-- Gate, success and failure of an operation (R160), from what its opcode does at the engine's port. -/
theorem RunsOpcode.gate_success_failure {n nrx : Nat} {tx : List Byte} {post post' : List Byte → State → Prop}
    (h : (okCalls n s.answers = true → RunsFrame j s tx nrx post) ∧
      ∀ k, failsAt n k s.answers = true → EngineFails j s)
    (hpost : ∀ qs t, qs.length = nrx → post qs t → ∃ rb, t.engineResult = some ⟨.ok, rb⟩ ∧
      post' qs (respond (result rb) (t.setEngineResult none))) :
    (s.lifecycle ≠ .ready → exec i s = .next (answeredOnly .stateError s)) ∧
    (s.lifecycle = .ready → okCalls n s.answers = true → RunsFrame i s tx nrx post') ∧
    (s.lifecycle = .ready → ∀ k, failsAt n k s.answers = true → EndsInTransportError i s) := by
  obtain ⟨hruns, hfails⟩ := h
  exact ⟨exec_operation_refused i s o.operation, fun hl hok => o.runsFrame hl (hruns hok) hpost,
    fun hl k hk => o.endsInTransportError hl (hfails k hk)⟩

end

/-- Settles O26: WREN and WRDI, as O20 says of them. -/
theorem writeEnableSendsWrenOrWrdi : Obligations.WriteEnableSendsWrenOrWrdi := by
  intro enable s
  obtain ⟨hruns, hfails⟩ := wrenAndWrdiRunTheirFrames s
  cases enable with
  | true =>
    exact (runsOpcode_writeEnable true).gate_success_failure
      ⟨fun h => (hruns h).left, fun k h => (hfails k h).left⟩
      fun _ _ _ ⟨hr, _, hchip⟩ => ⟨_, hr, rfl, rfl, hchip⟩
  | false =>
    exact (runsOpcode_writeEnable false).gate_success_failure
      ⟨fun h => (hruns h).right, fun k h => (hfails k h).right⟩
      fun _ _ _ ⟨hr, _, hchip⟩ => ⟨_, hr, rfl, rfl, hchip⟩

/-- Settles O28: WRITE, as O24 says of it. -/
theorem writeBytesSendsTheBurst : Obligations.WriteBytesSendsTheBurst := fun addr wbytes s =>
  (runsOpcode_writeBytes addr wbytes).gate_success_failure (writeRunsItsFrame addr wbytes s)
    fun _ _ _ ⟨hr, _, hchip⟩ => ⟨_, hr, rfl, rfl, hchip⟩

/-- The calls of an addressed frame with one data byte, as the burst of length one counts them. -/
theorem burstOfOne_calls (aw : Nat) : 4 + aw = 3 + aw + 1 := by omega

/-- Settles O27: WRITE with one data byte. -/
theorem writeByteSendsOneByte : Obligations.WriteByteSendsOneByte := by
  intro addr value s
  rw [burstOfOne_calls]
  exact (runsOpcode_writeByte addr value).gate_success_failure (writeRunsItsFrame addr [value] s)
    fun _ _ _ ⟨hr, _, hchip⟩ => ⟨_, hr, rfl, rfl, hchip⟩

/-- Settles O30: READ, as O23 says of it. -/
theorem readBytesReturnsCountBytes : Obligations.ReadBytesReturnsCountBytes := fun addr count s =>
  (runsOpcode_readBytes addr count).gate_success_failure (readRunsItsFrame addr count s)
    fun _ _ _ ⟨hr, _, hchip⟩ => ⟨_, hr, rfl, rfl, hchip⟩

/-- Settles O29: READ of one byte. -/
theorem readByteReturnsOneByte : Obligations.ReadByteReturnsOneByte := by
  intro addr s
  rw [burstOfOne_calls]
  exact (runsOpcode_readByte addr).gate_success_failure (readRunsItsFrame addr 1 s)
    fun _ _ _ ⟨hr, _, hchip⟩ => ⟨_, hr, rfl, rfl, hchip⟩

/-- Settles O33: WRSR, as O22 says of it; the echo stays at the engine. -/
theorem setStatusDiscardsTheEcho : Obligations.SetStatusDiscardsTheEcho := fun value s =>
  (runsOpcode_setStatus value).gate_success_failure (wrsrRunsItsFrame value s)
    fun _ _ _ ⟨hr, _, hchip⟩ => ⟨_, hr, rfl, rfl, hchip⟩

/-! ## The bytes the chip drives in RDSR and RDID (spec/20_memory.md R64, R68) -/

/-- A frame answered by a chip that drives the bytes `bs` receives them. -/
theorem transact_rbytes_of_drives {v : Invocation} {s : State} {bs : List Byte} (hlen : bs.length = v.nread)
    (hc : s.chip.frame = none) (h : chipCalls (frameCalls v s.aw) s.answers = true)
    (hd : ∀ k, k < v.nread → chipDrives (withFrame s { tx := transmitted v s.aw, nrx := k }) = bs[k]?) :
    (transact v s).rbytes = bs := by
  obtain ⟨qs, _, hqs, rfl, -, -, -, hbytes⟩ := chip_sees_frame v s (okCalls_of_chipCalls h) hc (.inl h)
  refine List.ext_getElem? fun k => ?_
  by_cases hk : k < v.nread
  · have hbs : bs[k]? = some bs[k] := List.getElem?_eq_getElem (hlen ▸ hk)
    rw [hbs]
    exact hbytes h k _ hk ((hd k hk).trans hbs)
  · rw [List.getElem?_eq_none (by omega), List.getElem?_eq_none (by omega)]

/-- RDSR answered by the chip returns `SrView` and changes nothing (R64, D22). -/
theorem rdsr_answered {s : State} (h : okCalls 4 s.answers = true) :
    RunsFrame .rdsr s [0x05] 1 fun qs t => t.engineResult = some ⟨.ok, qs⟩ ∧ t.response = none ∧
      (s.chip.frame = none → chipCalls 4 s.answers = true →
        t.chip = s.chip ∧ qs = [Config.srView s.chip.sr s.chip.wel]) := by
  have rdsr := wireFrame_rdsr s.aw
  refine rdsr.runs h fun t ht hc hcalls => ⟨?_, ?_⟩
  · exact ht.trans (rdsr.chip h hc (.inl hcalls) fun st _ _ => frameMeaning_rdsr st)
  · refine transact_rbytes_of_drives (s := s.accept) rfl hc hcalls fun k hk => ?_
    obtain rfl : k = 0 := Nat.lt_one_iff.mp hk
    exact chipDrives_rdsr rfl

/-- RDID answered by the chip returns its identity and changes nothing (R68). -/
theorem rdid_answered {s : State} (h : okCalls 7 s.answers = true) :
    RunsFrame .rdid s [0x9F] 4 fun qs t => t.engineResult = some ⟨.ok, qs⟩ ∧ t.response = none ∧
      (s.chip.frame = none → chipCalls 7 s.answers = true → t.chip = s.chip ∧ qs = s.chip.id.toList) := by
  have rdid := wireFrame_rdid s.aw
  refine rdid.runs h fun t ht hc hcalls => ⟨?_, ?_⟩
  · exact ht.trans (rdid.chip h hc (.inl hcalls) fun st _ _ => frameMeaning_rdid st)
  · exact transact_rbytes_of_drives (s := s.accept) Vector.length_toList hc hcalls
      fun k _ => chipDrives_rdid rfl

/-- Settles O32: the response has RDSR's byte. -/
theorem getStatusReturnsTheStatusByte : Obligations.GetStatusReturnsTheStatusByte := by
  intro s
  obtain ⟨-, hfails⟩ := rdsrRunsItsFrame s
  exact runsOpcode_getStatus.gate_success_failure ⟨rdsr_answered, hfails⟩
    fun _ _ _ ⟨hr, _, hchip⟩ => ⟨_, hr, rfl, rfl, hchip⟩

theorem identityResult_four (q0 q1 q2 q3 : Byte) : identityResult [q0, q1, q2, q3] =
    { status := .ok, mfr := some q0, prod := some (q2 ++ q3 : BitVec 16) } := by
  rw [← joinProduct_eq]
  rfl

/-- Settles O31: the response has the identity read from RDID's four bytes. -/
theorem getDeviceIdReturnsTheIdentity : Obligations.GetDeviceIdReturnsTheIdentity := by
  intro s
  obtain ⟨-, hfails⟩ := rdidRunsItsFrame s
  refine runsOpcode_getDeviceId.gate_success_failure ⟨rdid_answered, hfails⟩
    fun qs t hlen ⟨hr, _, hchip⟩ => ⟨qs, hr, ?_, rfl, hchip⟩
  match qs, hlen with
  | [q0, q1, q2, q3], _ => exact ⟨q0, q1, q2, q3, rfl, congrArg some (identityResult_four q0 q1 q2 q3)⟩

/-! ## What every instruction but INIT keeps (R160, spec/60_exceptions.md R209) -/

/-- An instruction that is no INIT is refused at the gate or is one run of the engine. -/
theorem exec_refused_or_oneRun {i : Instr} (s : State) (hi : isInit i = false) :
    (isOperation i = true ∧ s.lifecycle ≠ .ready ∧ exec i s = .next (answeredOnly .stateError s)) ∨
      OneRun i s := by
  cases ho : isOperation i with
  | false => exact .inr (oneRun_wire ho hi s)
  | true =>
    by_cases hl : s.lifecycle = .ready
    · exact .inr ⟨hi, exec_operation i s ho hl⟩
    · exact .inl ⟨rfl, hl, exec_operation_refused i s ho hl⟩

theorem runEngine_inputs (i : Instr) (v : Invocation) (s : State) :
    (runEngine i v (ending i) s).inputs = s.inputs := by
  have k := transact_keeps v s
  obtain ⟨p, -, e⟩ | ⟨-, e⟩ := runEngine_cases i v (ending i) s <;> rw [e]
  · exact k.inputs
  · obtain ⟨-, -, hinputs, -⟩ := ending_facts i (engineReturn (transact v s).failed (transact v s).rbytes)
      (transact v s).st
    exact hinputs.trans k.inputs

theorem initCommand_inputs (aw : BitVec 3) (tp cp : Bool) (s : State) :
    (initCommand aw tp cp s).inputs = s.inputs := by
  obtain ⟨-, e⟩ | ⟨-, -, e⟩ | ⟨-, -, r, t, k, -, ⟨-, e⟩ | ⟨-, e⟩ | ⟨qs, -, e⟩⟩ :=
    init_cases aw tp cp s <;> rw [e]
  · rfl
  · rfl
  · exact k.inputs
  · exact k.inputs
  · exact (runEngine_inputs (.init aw tp cp) _ t).trans k.inputs

theorem exec_inputs {i : Instr} {s t : State} (h : exec i s = .next t) : t.inputs = s.inputs := by
  cases hi : isInit i with
  | false =>
    obtain ⟨-, -, e⟩ | o := exec_refused_or_oneRun s hi
    · cases e.symm.trans h
      rfl
    · cases o.run.symm.trans h
      exact runEngine_inputs i _ s.accept
  | true =>
    obtain ⟨-, hn⟩ | ⟨-, hn⟩ | ⟨-, aw, tp, cp, rfl⟩ := instr_kinds i
    · cases hi.symm.trans hn
    · cases hi.symm.trans hn
    · cases h
      exact initCommand_inputs aw tp cp s.accept

/-- One run of the engine keeps the lifecycle and the width, and one that ends has released chip-select (R135). -/
theorem OneRun.keeps {i : Instr} {s t : State} (o : OneRun i s) (h : exec i s = .next t) :
    t.lifecycle = s.lifecycle ∧ t.aw = s.aw ∧ (t.progress = none → t.cs = false) := by
  cases o.run.symm.trans h
  obtain ⟨p, -, e⟩ | ⟨hs, e⟩ := runEngine_cases i (invocation i) (ending i) s.accept <;> rw [e]
  · have k := transact_keeps (invocation i) s.accept
    exact ⟨k.lifecycle, k.aw, nofun⟩
  · obtain ⟨hlife, haw, hcs, -⟩ := blockKept_ending o.notInit hs
      (engineReturn (transact (invocation i) s.accept).failed (transact (invocation i) s.accept).rbytes)
    exact ⟨hlife, haw, fun _ => hcs⟩

/-- Settles O41: an instruction that is no INIT is refused with no change but the response, or is one run of the
engine. -/
theorem onlyInitChangesLifecycleOrWidth : Obligations.OnlyInitChangesLifecycleOrWidth := by
  intro i s t h
  obtain ⟨hid, haddr⟩ := Prod.ext_iff.mp (exec_constants h)
  refine ⟨exec_inputs h, hid, haddr, fun hi => ?_⟩
  obtain ⟨ho, hl, e⟩ | o := exec_refused_or_oneRun s hi
  · cases e.symm.trans h
    exact ⟨rfl, rfl, fun _ => .inr ⟨ho, hl, rfl⟩⟩
  · obtain ⟨hlife, haw, hcs⟩ := o.keeps h
    exact ⟨hlife, haw, fun hp => .inl (hcs hp)⟩

/-! ## Enable, write, read back (R169, R171) -/

/-- The burst from `a` stores nothing below `a` while it stays inside the array. -/
theorem burstStores_below {a x : Nat} {d : List Byte} (hin : a + d.length ≤ Config.memSize) (hx : x < a) :
    burstStores a d x = none := by
  induction d generalizing a with
  | nil => rfl
  | cons b bs ih =>
    rw [List.length_cons] at hin
    rw [burstStores, ih (by omega) (by omega), addrMap_of_lt (by omega), if_neg (by simp; omega)]
    rfl

/-- Inside the array every byte of a burst has a cell of its own. -/
theorem burstStores_inside {a : Nat} {d : List Byte} (hin : a + d.length ≤ Config.memSize) (k : Nat) :
    burstStores a d (a + k) = d[k]? := by
  induction d generalizing a k with
  | nil => rfl
  | cons b bs ih =>
    rw [List.length_cons] at hin
    rw [burstStores, addrMap_of_lt (by omega)]
    cases k with
    | zero => simp [burstStores_below (a := a + 1) (d := bs) (x := a) (by omega) (by omega)]
    | succ k =>
      have hnext := ih (a := a + 1) (by omega) k
      rw [Nat.add_right_comm a 1 k, Nat.add_assoc] at hnext
      rw [hnext, if_neg (by simp)]
      simp

/-- A command has left the block ready for the next: lifecycle and width as they were, the answers of its `n`
calls used up. -/
structure Served (s t : State) (n : Nat) : Prop where
  lifecycle : t.lifecycle = s.lifecycle
  aw : t.aw = s.aw
  answers : t.answers = s.answers.drop n

theorem RunsFrame.served {i : Instr} {s : State} {tx : List Byte} {nrx : Nat} {post : List Byte → State → Prop}
    (h : RunsFrame i s tx nrx post) :
    ∃ t qs, exec i s = .next t ∧ qs.length = nrx ∧ Served s t (2 + tx.length + nrx) ∧ post qs t := by
  obtain ⟨t, qs, he, hlen, -, -, hanswers, ⟨hlife, haw, -⟩, hp⟩ := h
  exact ⟨t, qs, he, hlen, ⟨hlife, haw, hanswers⟩, hp⟩

theorem writeEnable_served (enable : Bool) {s : State} (hl : s.lifecycle = .ready) (hc : s.chip.frame = none)
    (h : okCalls 3 s.answers = true) :
    ∃ t, exec (.writeEnable enable) s = .next t ∧ Served s t 3 ∧ t.chip = { s.chip with wel := enable } := by
  obtain ⟨-, hruns, -⟩ := writeEnableSendsWrenOrWrdi enable s
  obtain ⟨t, _, he, -, hserved, -, -, hchip⟩ := (hruns hl h).served
  exact ⟨t, he, hserved, hchip hc⟩

theorem RunsOpcode.write_served {i : Instr} {a : Nat} {d : List Byte} (o : RunsOpcode i (.write a d) plainResult)
    {s : State} (hl : s.lifecycle = .ready) (h : okCalls (3 + s.aw + d.length) s.answers = true) :
    ∃ t, exec i s = .next t ∧ Served s t (3 + s.aw + d.length) ∧ ChipWrote s t a d := by
  obtain ⟨hruns, -⟩ := writeRunsItsFrame a d s
  have hframe := o.runsFrame (post' := fun _ t => ChipWrote s t a d) hl (hruns h)
    fun _ _ _ ⟨hr, _, hchip⟩ => ⟨_, hr, hchip⟩
  obtain ⟨t, _, he, -, hserved, hchip⟩ := hframe.served
  have hn : 2 + (0x02 :: (encodeAddr a s.aw ++ d)).length + 0 = 3 + s.aw + d.length := by simp; omega
  exact ⟨t, he, hn ▸ hserved, hchip⟩

theorem RunsOpcode.read_returns {i : Instr} {a n : Nat} (o : RunsOpcode i (.read a n) bytesResult)
    {s : State} (hl : s.lifecycle = .ready) (h : okCalls (3 + s.aw + n) s.answers = true) :
    ∃ t qs, exec i s = .next t ∧ qs.length = n ∧ t.response = some { status := .ok, rbytes := some qs } ∧
      ChipWasRead s t (3 + s.aw + n) a qs := by
  obtain ⟨hruns, -⟩ := readRunsItsFrame a n s
  have hframe := o.runsFrame hl (hruns h) (post' := fun qs t =>
      t.response = some { status := .ok, rbytes := some qs } ∧ ChipWasRead s t (3 + s.aw + n) a qs)
    fun _ _ _ ⟨hr, _, hchip⟩ => ⟨_, hr, rfl, hchip⟩
  obtain ⟨t, qs, he, hlen, -, hrest⟩ := hframe.served
  exact ⟨t, qs, he, hlen, hrest⟩

/-- Write enable or disable, then a write of `d`, then a read of as many bytes from the same address: the read
returns what the write has left in those cells. -/
theorem readBack {iw ir : Instr} {a : Nat} {d : List Byte} (hiw : RunsOpcode iw (.write a d) plainResult)
    (hir : RunsOpcode ir (.read a d.length) bytesResult) (enable : Bool) {s : State} (hl : s.lifecycle = .ready)
    (hc : ChipReady s) (hwf : s.chip.mem.wf = true) (hin : a + d.length ≤ Config.memSize)
    (h : chipCalls (3 + 2 * (3 + s.aw + d.length)) s.answers = true) :
    ∃ t u w qs, exec (.writeEnable enable) s = .next t ∧ exec iw t = .next u ∧ exec ir u = .next w ∧
      w.response = some { status := .ok, rbytes := some qs } ∧ qs.length = d.length ∧
      ∀ k, k < d.length → qs[k]? = some (afterBurst { s.chip with wel := enable } (a % 2 ^ (8 * s.aw)) d
        (a % 2 ^ (8 * s.aw) + k)) := by
  obtain ⟨hframe, hwidth⟩ := hc
  rw [Nat.two_mul] at h
  obtain ⟨h₁, h⟩ := chipCalls_add h
  obtain ⟨h₂, h₃⟩ := chipCalls_add h
  obtain ⟨t, ht, st, hct⟩ := writeEnable_served enable hl hframe (okCalls_of_chipCalls h₁)
  rw [← st.answers, ← st.aw] at h₂ h₃
  obtain ⟨u, hu, su, hwrote⟩ := hiw.write_served (st.lifecycle.trans hl) (okCalls_of_chipCalls h₂)
  have hready : ChipReady t := by rw [ChipReady, hct, st.aw]; exact ⟨hframe, hwidth⟩
  obtain ⟨hcu, hcells⟩ := hwrote hready (by rw [hct]; exact hwf)
  rw [← su.answers, ← su.aw] at h₃
  obtain ⟨w, qs, hw, hlen, hresponse, hread⟩ :=
    hir.read_returns (su.lifecycle.trans (st.lifecycle.trans hl)) (okCalls_of_chipCalls h₃)
  obtain ⟨-, hbytes⟩ := hread (by rw [ChipReady, hcu, su.aw]; exact hready) h₃
  refine ⟨t, u, w, qs, ht, hu, hw, hresponse, hlen, fun k hk => ?_⟩
  have hle : a % 2 ^ (8 * s.aw) ≤ a := Nat.mod_le ..
  rw [hbytes k _ (by omega) (addrMap_of_lt (by rw [su.aw, st.aw]; omega)), hcells, su.aw, st.aw, hct]

/-- With the latch set, a burst inside the array leaves its own bytes. -/
theorem afterBurst_enabled {c : Chip} {a k : Nat} {d : List Byte} (hin : a + d.length ≤ Config.memSize)
    (hk : k < d.length) : afterBurst { c with wel := true } a d (a + k) = d[k] := by
  simp [afterBurst, burstStores_inside hin, hk]

/-- Write enable, write, read: the read returns what was written. -/
theorem readBack_enabled {iw ir : Instr} {a : Nat} {d : List Byte} (hiw : RunsOpcode iw (.write a d) plainResult)
    (hir : RunsOpcode ir (.read a d.length) bytesResult) {s : State} (hl : s.lifecycle = .ready)
    (hc : ChipReady s) (hwf : s.chip.mem.wf = true) (hin : a + d.length ≤ Config.memSize)
    (h : chipCalls (3 + 2 * (3 + s.aw + d.length)) s.answers = true) :
    ∃ t u w, exec (.writeEnable true) s = .next t ∧ exec iw t = .next u ∧ exec ir u = .next w ∧
      w.response = some { status := .ok, rbytes := some d } := by
  obtain ⟨t, u, w, qs, ht, hu, hw, hresponse, hlen, hqs⟩ := readBack hiw hir true hl hc hwf hin h
  have hle : a % 2 ^ (8 * s.aw) ≤ a := Nat.mod_le ..
  obtain rfl : qs = d := by
    refine List.ext_getElem hlen fun k hk hk' => Option.some.inj ?_
    rw [← List.getElem?_eq_getElem hk, hqs k hk', afterBurst_enabled (by omega) hk']
  exact ⟨t, u, w, ht, hu, hw, hresponse⟩

/-- Settles O52: with the latch set the cells read back are the burst's own, with it clear they are as they were. -/
theorem roundTripsReturnWhatWasWritten : Obligations.RoundTripsReturnWhatWasWritten := by
  intro s a d v hl hc hwf
  refine ⟨readBack_enabled (runsOpcode_writeBytes a d) (runsOpcode_readBytes a d.length) hl hc hwf, fun ha h => ?_⟩
  rw [burstOfOne_calls] at h
  refine ⟨readBack_enabled (runsOpcode_writeByte a v) (runsOpcode_readByte a) hl hc hwf ha h, ?_⟩
  obtain ⟨t, u, w, qs, ht, hu, hw, hresponse, hlen, hqs⟩ :=
    readBack (runsOpcode_writeByte a v) (runsOpcode_readByte a) false hl hc hwf ha h
  obtain ⟨q, rfl⟩ := List.length_eq_one_iff.mp hlen
  obtain rfl : q = s.chip.mem.read (a % 2 ^ (8 * s.aw)) := Option.some.inj (hqs 0 Nat.one_pos)
  exact ⟨t, u, w, ht, hu, hw, hresponse⟩

end Sys2Proof.Machine

namespace Sys2Proof.Machine

/-! ## The lifecycle: only the reset and INIT move it (spec/43_initialization.md R190)

INIT reaches `Ready` or `Failed` in three places: its refused operands, its release before the frame, and the
end of its frame. -/

/-- INIT has decided: the lifecycle is one of the two it ends in. -/
def Decided (t : State) : Prop := t.lifecycle = .ready ∨ t.lifecycle = .failed

/-- From `s` to `t` the lifecycle is kept, or INIT moves it from `Uninitialized`; `i` is the command at work. -/
def LifecycleMove (i : Instr) (s t : State) : Prop :=
  t.lifecycle = s.lifecycle ∨ (s.lifecycle = .uninitialized ∧ Decided t ∧ isInit i = true)

theorem LifecycleMove.of_lifecycle_eq {i : Instr} {s s' t : State} (h : LifecycleMove i s' t)
    (hl : s'.lifecycle = s.lifecycle) : LifecycleMove i s t := by
  unfold LifecycleMove
  rw [← hl]
  exact h

theorem eq_init_of_isInit {i : Instr} (h : isInit i = true) : ∃ aw tp cp, i = .init aw tp cp := by
  obtain ⟨-, hn⟩ | ⟨-, hn⟩ | ⟨-, hi⟩ := instr_kinds i
  · cases h.symm.trans hn
  · cases h.symm.trans hn
  · exact hi

theorem gatePassed.uninitialized {i : Instr} {s : State} (h : gatePassed i s) (hi : isInit i = true) :
    s.lifecycle = .uninitialized := by
  obtain ⟨-, hinit⟩ := h
  obtain ⟨aw, tp, cp, rfl⟩ := eq_init_of_isInit hi
  obtain ⟨hl, -⟩ := hinit aw tp cp rfl
  exact hl

theorem ending_lifecycleMove {i : Instr} (r : EngineResult) {s : State}
    (h : isInit i = true → s.lifecycle = .uninitialized) : LifecycleMove i s (ending i r s) := by
  cases hi : isInit i with
  | false => rw [ending_writes_results hi]; exact .inl rfl
  | true =>
    obtain ⟨aw, tp, cp, rfl⟩ := eq_init_of_isInit hi
    obtain ⟨-, -, hl⟩ := initValidate_keeps r s
    exact .inr ⟨h hi, hl.symm, rfl⟩

/-! ### A command run whole -/

theorem runEngine_lifecycleMove {i : Instr} (v : Invocation) {s : State}
    (h : isInit i = true → s.lifecycle = .uninitialized) : LifecycleMove i s (runEngine i v (ending i) s) := by
  have k := transact_keeps v s
  obtain ⟨p, -, e⟩ | ⟨-, e⟩ := runEngine_cases i v (ending i) s <;> rw [e]
  · exact .inl k.lifecycle
  · exact (ending_lifecycleMove _ fun hi => k.lifecycle.trans (h hi)).of_lifecycle_eq k.lifecycle

theorem initCommand_lifecycleMove (aw : BitVec 3) (tp cp : Bool) (s : State) :
    LifecycleMove (.init aw tp cp) s (initCommand aw tp cp s) := by
  obtain ⟨-, e⟩ | ⟨hl, -, e⟩ | ⟨hl, -, r, t, k, -, ⟨-, e⟩ | ⟨-, e⟩ | ⟨qs, -, e⟩⟩ :=
    init_cases aw tp cp s <;> rw [e]
  · exact .inl rfl
  · exact .inr ⟨hl, .inr rfl, rfl⟩
  · exact .inl k.lifecycle
  · exact .inr ⟨hl, .inr rfl, rfl⟩
  · exact (runEngine_lifecycleMove (i := .init aw tp cp) _ fun _ => k.lifecycle.trans hl).of_lifecycle_eq k.lifecycle

theorem exec_lifecycleMove {i : Instr} {s t : State} (h : exec i s = .next t) : LifecycleMove i s t := by
  cases hi : isInit i with
  | false =>
    obtain ⟨-, -, -, hkept⟩ := onlyInitChangesLifecycleOrWidth i s t h
    obtain ⟨hl, -⟩ := hkept hi
    exact .inl hl
  | true =>
    obtain ⟨aw, tp, cp, rfl⟩ := eq_init_of_isInit hi
    cases h
    exact initCommand_lifecycleMove aw tp cp s.accept

/-! ### A command begun, and its calls one by one -/

theorem beginInstr_lifecycleMove (i : Instr) (s : State) : LifecycleMove i s (beginInstr i s) := by
  obtain ⟨ho, -⟩ | ⟨ho, hi⟩ | ⟨-, aw, tp, cp, rfl⟩ := instr_kinds i
  · rw [beginInstr_operation i s ho]
    unfold beginOperation
    split
    · exact .inl rfl
    · exact .inl rfl
  · rw [beginInstr_wire i s ho hi]
    exact .inl rfl
  · show LifecycleMove _ s (beginInit aw tp cp s.accept)
    obtain ⟨-, e⟩ | ⟨hl, _, -, e⟩ | ⟨-, -, e⟩ := beginInit_cases aw tp cp s.accept <;> rw [e]
    · exact .inl rfl
    · exact .inr ⟨hl, .inr rfl, rfl⟩
    · exact .inl rfl

section
variable {p : Progress} {s : State} (hg : gatePassed p.instr s)
include hg

theorem afterOk_lifecycleMove (qs : List Byte) : LifecycleMove p.instr s (afterOk p qs s) := by
  unfold afterOk
  split
  · exact ending_lifecycleMove (s := s.setProgress none) _ hg.uninitialized
  all_goals exact .inl rfl

/-- A failure moves the lifecycle at the end of the frame or at INIT's own release before it. -/
theorem afterFail_lifecycleMove (hi : p.phase = .idleLevel → isInit p.instr = true) :
    LifecycleMove p.instr s (afterFail p s) := by
  unfold afterFail
  split
  · exact ending_lifecycleMove (s := s.setProgress none) _ hg.uninitialized
  · next hp => exact .inr ⟨hg.uninitialized (hi hp), .inr rfl, hi hp⟩
  all_goals exact .inl rfl

end

theorem tick_lifecycleMove {p : Progress} {s : State} (h : p.Consistent s) :
    LifecycleMove p.instr s (tick p s) := by
  obtain ⟨-, hidle, -, hgate, -⟩ := h
  rcases e : doCall (phaseCall (invocation p.instr) s.aw p.phase) s with ⟨r, t⟩
  have k := callSpec_of_doCall e
  have hgate := gatePassed_congr hgate k.lifecycle k.aw
  rw [tick_of_doCall rfl e]
  refine LifecycleMove.of_lifecycle_eq ?_ k.lifecycle
  cases r with
  | ok qs => exact afterOk_lifecycleMove hgate qs
  | fail => exact afterFail_lifecycleMove hgate hidle
  | never => exact .inl rfl

theorem advance_lifecycleMove {p : Progress} {s : State} (h : p.Consistent s) :
    LifecycleMove p.instr s (advance p s) := by
  unfold advance
  split
  · exact .inl rfl
  · exact tick_lifecycleMove h

/-- The command that a step from `s` works on: the one in progress, or the one the host asks for. -/
def AtWork (s : State) (i : Instr) : Prop :=
  (∃ p, s.progress = some p ∧ p.instr = i) ∨
    ∃ r, (s.inputs.head? = some (.present r) ∨ s.inputs.head? = some (.begin r)) ∧ decode s.aw r = .ok i

/-- A step keeps the lifecycle, or takes the reset, or moves it as the command at work does. -/
theorem NextStep.lifecycleMove {s t : State} (n : NextStep s t) (h : s.Inv) :
    t.lifecycle = s.lifecycle ∨ (s.inputs.head? = some .reset ∧ t.lifecycle = .uninitialized) ∨
      ∃ i, AtWork s i ∧ LifecycleMove i s t := by
  cases n with
  | idle | idleWait | reserved => exact .inl rfl
  | @chipPowerOn rest => exact .inl (chipPoweredOn_chipOnly (s.setInputs rest)).lifecycle
  | reset hi => exact .inr (.inl ⟨by rw [hi]; rfl, rfl⟩)
  | @present r rest i _ _ hi hd he =>
    exact .inr (.inr ⟨i, .inr ⟨r, .inl (by rw [hi]; rfl), hd⟩, (exec_lifecycleMove he :)⟩)
  | @begun r rest i _ hi hd =>
    exact .inr (.inr ⟨i, .inr ⟨r, .inr (by rw [hi]; rfl), hd⟩, beginInstr_lifecycleMove i (s.setInputs rest)⟩)
  | @busy p hp => exact .inr (.inr ⟨_, .inl ⟨p, hp, rfl⟩, tick_lifecycleMove (h.consistent hp)⟩)
  | @busyWait p rest hp =>
    exact .inr (.inr ⟨_, .inl ⟨p, hp, rfl⟩, advance_lifecycleMove (s := s.setInputs rest) (h.consistent hp)⟩)

/-- Settles O6: where the lifecycle moves at no reset, the command at work is INIT and it has decided. -/
theorem stepFollowsTheLifecycleTable : Obligations.StepFollowsTheLifecycleTable := by
  intro s t h he
  obtain hkept | hreset | ⟨i, hwork, hkept | ⟨hl, hdec, hi⟩⟩ := (step_next he).lifecycleMove h
  · exact .inl hkept
  · exact .inr (.inl hreset)
  · exact .inl hkept
  · obtain ⟨p, hp, rfl⟩ | ⟨r, hr, hd⟩ := hwork
    · exact .inr (.inr ⟨hl, hdec, .inl ⟨p, hp, hi⟩⟩)
    · exact .inr (.inr ⟨hl, hdec, .inr ⟨r, i, hr, hd, hi⟩⟩)

end Sys2Proof.Machine

namespace Sys2Proof.Machine

/-! ## INIT past its tests (spec/43_initialization.md R184 to R189)

INIT releases chip-select and then sends the frame of RDID, so what that frame does is what RDID's run at the
engine's port does. -/

@[simp] theorem initValidate_aw (r : EngineResult) (s : State) : (initValidate r s).aw = s.aw := by
  rw [(initValidate_keeps r s).1]
@[simp] theorem initValidate_cs (r : EngineResult) (s : State) : (initValidate r s).cs = s.cs := by
  rw [(initValidate_keeps r s).1]
@[simp] theorem initValidate_progress (r : EngineResult) (s : State) : (initValidate r s).progress = s.progress := by
  rw [(initValidate_keeps r s).1]
@[simp] theorem initValidate_engineResult (r : EngineResult) (s : State) :
    (initValidate r s).engineResult = s.engineResult := by
  rw [(initValidate_keeps r s).1]
@[simp] theorem initValidate_trace (r : EngineResult) (s : State) : (initValidate r s).trace = s.trace := by
  rw [(initValidate_keeps r s).1]
@[simp] theorem initValidate_chip (r : EngineResult) (s : State) : (initValidate r s).chip = s.chip := by
  rw [(initValidate_keeps r s).1]
@[simp] theorem initValidate_inputs (r : EngineResult) (s : State) : (initValidate r s).inputs = s.inputs := by
  rw [(initValidate_keeps r s).1]

theorem initValidate_accepted {rb : List Byte} (s : State) (h : identityAccepted rb = true) :
    initValidate ⟨.ok, rb⟩ s = respond { status := .ok } (s.setLifecycle .ready) := by
  simp [initValidate, h, State.setLifecycle]

/-- The identity test on the bytes as they come (R185, R186). -/
theorem identityAccepted_four (q0 q1 q2 q3 : Byte) : identityAccepted [q0, q1, q2, q3] = true ↔
    q0 ∈ Config.mfrIds ∧ (q2 ++ q3 : BitVec 16) ∈ Config.prodIds := by
  rw [← joinProduct_eq]
  simp [identityAccepted, identityMfr, identityProd]

theorem exec_init_refused {aw : BitVec 3} {tp cp : Bool} {s : State} (h : s.lifecycle ≠ .uninitialized) :
    exec (.init aw tp cp) s = .next (answeredOnly .stateError s) := by
  obtain ⟨-, e⟩ | ⟨hl, -⟩ | ⟨hl, -⟩ := init_cases aw tp cp s.accept
  · exact congrArg Host.Outcome.next e
  · exact absurd hl h
  · exact absurd hl h

/-- The state in which INIT, its tests passed, makes its first call. -/
def initStarted (aw : BitVec 3) (s : State) : State := s.accept.setWidth aw.toNat

/-- INIT's tests are passed in `s` (R181 to R183). -/
structure InitPasses (aw : BitVec 3) (s : State) : Prop where
  lifecycle : s.lifecycle = .uninitialized
  pos : 1 ≤ aw.toNat
  le : aw.toNat ≤ 4

section
variable {aw : BitVec 3} {s t : State} (h : InitPasses aw s)
include h

theorem InitPasses.exec_releaseFails (e : doCall (.cs false) (initStarted aw s) = (.fail, t)) :
    exec (.init aw true true) s = .next (initFail .transportError t) := by
  have hr : initRefusal aw true true = none := initRefusal_none.mpr ⟨rfl, rfl, h.pos, h.le⟩
  rw [initStarted] at e
  simp [exec, execInit, initCommand, h.lifecycle, hr, e]

theorem InitPasses.exec_releaseOk {qs : List Byte} (e : doCall (.cs false) (initStarted aw s) = (.ok qs, t)) :
    exec (.init aw true true) s = .next (runEngine (.init aw true true) (invocation .rdid) initValidate t) := by
  have hr : initRefusal aw true true = none := initRefusal_none.mpr ⟨rfl, rfl, h.pos, h.le⟩
  rw [initStarted] at e
  simp [exec, execInit, initCommand, h.lifecycle, hr, e, invocation]

end

/-- Step 3 of INIT, answered `ok`, has led from `s` to `t`, where the frame begins. -/
structure InitReleased (aw : BitVec 3) (s t : State) : Prop where
  exec_eq : exec (.init aw true true) s = .next (runEngine (.init aw true true) (invocation .rdid) initValidate t)
  call : CallSpec (.cs false) (initStarted aw s) (.ok []) t
  chip : s.chip.frame = none → t.chip = s.chip

theorem InitPasses.released {aw : BitVec 3} {s : State} {own : Option Byte} {rest : List Answer}
    (h : InitPasses aw s) (ha : s.answers = .ok own :: rest) : ∃ t, InitReleased aw s t := by
  have hstart : (initStarted aw s).answers = .ok own :: rest := ha
  have e := doCall_ok (c := .cs false) hstart
  refine ⟨_, h.exec_releaseOk e, callSpec_of_doCall e, fun hf => ?_⟩
  exact congrArg (·.2.chip) (e.symm.trans (doCall_release_noFrame (s := initStarted aw s) hf hstart))

theorem accept_of_noResult {s : State} (hr : s.response = none) (he : s.engineResult = none) : s.accept = s := by
  cases s
  cases hr
  cases he
  rfl

/-- A run of the engine that ends at the engine's port with the result `r` ends, with any other ending, in what
that ending makes of `r`. -/
theorem runEngine_of_port {i j : Instr} {v : Invocation} {s : State} {r : EngineResult}
    (k : EngineResult → State → State) (hs : s.engineResult = none)
    (hr : (runEngine j v endEngine s).engineResult = some r) :
    runEngine i v k s = k r ((runEngine j v endEngine s).setEngineResult none) := by
  have hport : (transact v s).st.engineResult = none := (transact_keeps v s).engineResult.trans hs
  obtain ⟨p, -, e⟩ | ⟨hstuck, e⟩ := runEngine_cases j v endEngine s <;> rw [e] at hr ⊢
  · exact nomatch hr.symm.trans hport
  · cases hr
    rw [setEngineResult_endEngine hport]
    simp [runEngine, hstuck]

section
variable {aw : BitVec 3} {s t : State} (k : InitReleased aw s t)
include k

/-- After its release INIT ends where RDID's run ends, the result validated in place of standing at the port. -/
theorem InitReleased.exec_of_rdid {u : State} {r : EngineResult} (he : exec .rdid t = .next u)
    (hr : u.engineResult = some r) :
    exec (.init aw true true) s = .next (initValidate r (u.setEngineResult none)) := by
  cases (exec_wire .rdid t rfl rfl).symm.trans he
  rw [accept_of_noResult k.call.response k.call.engineResult] at hr ⊢
  rw [k.exec_eq, runEngine_of_port initValidate k.call.engineResult hr]
  rfl

theorem InitReleased.width {u : State} (h : BlockKept t u) : u.aw = aw.toNat := by
  obtain ⟨-, haw, -⟩ := h
  exact haw.trans k.call.aw

end

/-! ### Every call answered -/

/-- INIT from `s` has read the identity bytes `qs` and validates them in `w` (R185, R186). -/
structure IdentityRead (aw : BitVec 3) (s : State) (qs : List Byte) (w : State) : Prop where
  exec_eq : exec (.init aw true true) s = .next (initValidate ⟨.ok, qs⟩ w)
  length : qs.length = 4
  own : OwnBytes 3 s.answers qs
  trace : w.trace = s.trace ++ [.cs false] ++ frameEvents [0x9F] qs
  aw : w.aw = aw.toNat
  cs : w.cs = false
  progress : w.progress = s.progress
  inputs : w.inputs = s.inputs
  engineResult : w.engineResult = none
  chip : s.chip.frame = none → chipCalls 8 s.answers = true → w.chip = s.chip ∧ qs = s.chip.id.toList

theorem OwnBytes.of_tail {m : Nat} {as : List Answer} {qs : List Byte} (h : OwnBytes m as.tail qs) :
    OwnBytes (m + 1) as qs := by
  intro k b hk hb
  refine h k b hk ?_
  rwa [List.getElem?_tail, Nat.add_right_comm]

theorem InitPasses.identityRead {aw : BitVec 3} {s : State} (h : InitPasses aw s)
    (hok : okCalls 8 s.answers = true) : ∃ qs w, IdentityRead aw s qs w := by
  obtain ⟨own, rest, ha, hrest⟩ := okCalls_cons hok
  obtain ⟨t, k⟩ := h.released ha
  have hanswers : t.answers = s.answers.tail := k.call.answers
  obtain ⟨u, qs, he, hlen, hown, htrace, -, hkept, hr, -, hchip⟩ :=
    rdid_answered (s := t) (by rw [hanswers, ha]; exact hrest)
  have haw := k.width hkept
  obtain ⟨-, -, hcs, hprogress, hinputs⟩ := hkept
  refine ⟨qs, _, k.exec_of_rdid he hr, hlen, (hanswers ▸ hown).of_tail, ?_, haw, hcs,
    hprogress.trans k.call.progress, hinputs.trans k.call.inputs, rfl, fun hf hcalls => ?_⟩
  · exact htrace.trans (congrArg (· ++ frameEvents [0x9F] qs) k.call.trace)
  · obtain ⟨-, hcalls⟩ := chipCalls_add (m := 1) (n := 7) hcalls
    rw [k.chip hf, hanswers, ← List.drop_one] at hchip
    exact hchip hf hcalls

/-- Settles O35: INIT validates the four bytes that RDID's frame returns. -/
theorem initEndsInReadyOnAnAcceptedIdentity : Obligations.InitEndsInReadyOnAnAcceptedIdentity := by
  intro aw tp cp s
  refine ⟨exec_init_refused, ?_⟩
  rintro hl rfl rfl hpos hle hok
  obtain ⟨qs, w, d⟩ := InitPasses.identityRead ⟨hl, hpos, hle⟩ hok
  obtain ⟨q0, q1, q2, q3, rfl⟩ := List.length_eq_four.mp d.length
  refine ⟨_, q0, q1, q2, q3, d.exec_eq, d.own, (initValidate_trace ..).trans d.trace,
    (initValidate_aw ..).trans d.aw, (initValidate_cs ..).trans d.cs, (initValidate_progress ..).trans d.progress,
    (initValidate_inputs ..).trans d.inputs, (initValidate_engineResult ..).trans d.engineResult,
    fun hm hp => ?_, fun hf hcalls => ?_⟩
  · rw [initValidate_accepted w ((identityAccepted_four q0 q1 q2 q3).mpr ⟨hm, hp⟩)]
    exact ⟨rfl, rfl⟩
  · rw [initValidate_chip]
    exact d.chip hf hcalls

/-! ### A call that fails (D13) -/

/-- Settles O38: a failed release ends INIT at once, a failed frame ends it as it ends RDID. -/
theorem initTransportFailureIsFinal : Obligations.InitTransportFailureIsFinal := by
  intro aw s hl hpos hle
  have h : InitPasses aw s := ⟨hl, hpos, hle⟩
  refine ⟨fun arrived rest ha => ?_, fun own rest i ha hfails => ?_⟩
  · rcases e : doCall (.cs false) (initStarted aw s) with ⟨r, t⟩
    obtain rfl : r = .fail := (congrArg Prod.fst e).symm.trans (doCall_fail (s := initStarted aw s) ha)
    have k := callSpec_of_doCall e
    exact ⟨_, h.exec_releaseFails e, rfl, k.cs, k.aw, rfl, k.trace⟩
  · obtain ⟨t, k⟩ := h.released ha
    have hanswers : t.answers = rest := k.call.answers.trans (congrArg List.tail ha)
    obtain ⟨-, hrdid⟩ := rdidRunsItsFrame t
    obtain ⟨u, he, hr, -, hkept⟩ := hrdid i (hanswers ▸ hfails)
    have haw := k.width hkept
    obtain ⟨-, -, hcs, -⟩ := hkept
    exact ⟨_, k.exec_of_rdid he hr, rfl, hcs, haw, rfl⟩

end Sys2Proof.Machine

namespace Sys2Proof.Machine

/-! ## A host command in `Failed` (spec/43_initialization.md R191, spec/60_exceptions.md R208)

A reserved code is answered before any other test; INIT and the operations find the lifecycle neither
`Uninitialized` nor `Ready`. -/

theorem decodeCommand_reserved {c : CommandRecord} (h : 9 ≤ c.cmd.toNat) :
    decodeCommand c = .error (.reservedCommand c.cmd) := by
  unfold decodeCommand
  split
  case h_10 => rfl
  all_goals omega

/-- A code below 9 is INIT or one of the eight operations (spec/30_encoding.md R100). -/
theorem decodeCommand_hostCommand {c : CommandRecord} (h : c.cmd.toNat < 9) :
    ∃ i, decodeCommand c = .ok i ∧ (isOperation i = true ∨ isInit i = true) := by
  unfold decodeCommand
  generalize c.cmd.toNat = code at h ⊢
  interval_cases code
  · exact ⟨_, rfl, .inr rfl⟩
  all_goals exact ⟨_, rfl, .inl rfl⟩

/-- A reserved code, presented or begun, is answered in every lifecycle state (R205). -/
theorem step_of_reservedCode {s : State} {c : CommandRecord} {rest : List HostEvent} (hp : s.progress = none)
    (hc : 9 ≤ c.cmd.toNat) (hi : s.inputs = .present (.command c) :: rest ∨ s.inputs = .begin (.command c) :: rest) :
    step s = .next (answeredOnly .illegalCommand { s with inputs := rest }) := by
  have hd : ∀ w, decode w (.command c) = .error (.reservedCommand c.cmd) := fun _ => decodeCommand_reserved hc
  rw [step_idle hp]
  obtain hi | hi := hi
  · simp only [idleStep, hi, runRequest, hd]
    rfl
  · simp only [idleStep, hi, beginRequest, hd]
    rfl

section
variable {i : Instr} {s : State} (hl : s.lifecycle = .failed) (hi : isOperation i = true ∨ isInit i = true)
include hl hi

theorem exec_of_failed : exec i s = .next (answeredOnly .stateError s) := by
  obtain ho | hi := hi
  · exact exec_operation_refused i s ho (by simp [hl])
  · obtain ⟨aw, tp, cp, rfl⟩ := eq_init_of_isInit hi
    exact exec_init_refused (by simp [hl])

theorem beginInstr_of_failed : beginInstr i s = answeredOnly .stateError s := by
  obtain ho | hi := hi
  · rw [beginInstr_operation i s ho, beginOperation, if_pos (by simp [hl])]
    rfl
  · obtain ⟨aw, tp, cp, rfl⟩ := eq_init_of_isInit hi
    show beginInit aw tp cp s.accept = _
    rw [beginInit, if_pos (by simp [hl])]
    rfl

end

/-- Settles O7: a reserved code is answered as everywhere, any other as its test of the lifecycle says. -/
theorem failedAnswersOnlyErrors : Obligations.FailedAnswersOnlyErrors := by
  intro s c rest hp hl hi
  split
  · next hc => exact step_of_reservedCode hp hc hi
  · next hc =>
    obtain ⟨i, hd, hhost⟩ := decodeCommand_hostCommand (not_le.mp hc)
    obtain ⟨hpresent, hbegin⟩ := stepRunsTheDecodedRequest s (.command c) i rest hp hd
    obtain hi | hi := hi
    · exact (hpresent hi).trans (exec_of_failed hl hhost)
    · exact (hbegin hi).trans (congrArg Host.Outcome.next (beginInstr_of_failed hl hhost))

end Sys2Proof.Machine

namespace Sys2Proof.Machine

/-! ## What is reported (spec/60_exceptions.md R200 to R206)

The status of a response told from the events of the command: a run of the engine fails exactly if one of its
calls fails (R133), and only then, or at a test of its own, a command is answered by an error. -/

/-- No call has answered `fail`. -/
abbrev NoFailure (evs : List Ev) : Prop := ∀ e ∈ evs, isFailEvent e = false

theorem noFailure_append {evs evs' : List Ev} : NoFailure (evs ++ evs') ↔ NoFailure evs ∧ NoFailure evs' :=
  List.forall_mem_append

theorem noFailure_singleton {e : Ev} : NoFailure [e] ↔ isFailEvent e = false := List.forall_mem_singleton

theorem RunTrace.failed_iff {l : List (Phase × Call)} {a b : EngineRun} {evs : List Ev} (h : RunTrace l a b evs) :
    b.failed = false ↔ NoFailure evs := by
  refine ⟨h.good, fun hgood => ?_⟩
  cases hb : b.failed with
  | false => rfl
  | true =>
    obtain ⟨e, he, hfail⟩ := h.bad hb
    exact nomatch hfail.symm.trans (hgood e he)

/-- What Transact, ended, has left: its result told from the events `evs` of its calls. -/
structure FrameEnded (v : Invocation) (s : State) (evs : List Ev) : Prop where
  trace : (transact v s).st.trace = s.trace ++ evs
  failed_iff : (transact v s).failed = false ↔ NoFailure evs
  rbytes : (transact v s).rbytes = evs.filterMap receivedByte

/-- The release adds one event `e`, no receive, to those of the calls before it. -/
theorem FrameEnded.of_release {v : Invocation} {s : State} {a : EngineRun} {evs : List Ev} {e : Ev}
    (k : RunTrace (framePlan v s.aw) { st := s } a evs) (ha : transact v s = release a)
    (htrace : (release a).st.trace = a.st.trace ++ [e]) (hbytes : (release a).rbytes = a.rbytes)
    (he : receivedByte e = none)
    (hfailed : (release a).failed = false ↔ a.failed = false ∧ isFailEvent e = false) :
    FrameEnded v s (evs ++ [e]) := by
  constructor <;> rw [ha]
  · rw [htrace, k.trace, List.append_assoc]
  · rw [hfailed, k.failed_iff, noFailure_append, noFailure_singleton]
  · rw [hbytes, k.rbytes, List.filterMap_append]
    simp [he]

theorem frameEnded_of_notStuck {v : Invocation} {s : State} (h : (transact v s).stuck = none) :
    ∃ evs, FrameEnded v s evs := by
  obtain ⟨evs, k⟩ := runCalls_trace (framePlan v s.aw) { st := s } rfl rfl
  have hrun := transact_eq v s
  rw [hrun] at h
  cases hs : (runCalls (framePlan v s.aw) { st := s }).stuck with
  | some p => rw [release_stuck hs, hs] at h; cases h
  | none =>
    obtain ⟨htrace, hfailed, -, hbytes⟩ | ⟨htrace, hfailed, -, hbytes⟩ | ⟨-, -, hstuck, -⟩ := release_cases hs
    · exact ⟨_, .of_release k hrun htrace hbytes rfl (by simp [hfailed, isFailEvent])⟩
    · exact ⟨_, .of_release k hrun htrace hbytes rfl (by simp [hfailed, isFailEvent])⟩
    · exact nomatch hstuck.symm.trans h

/-- A run of the engine that leaves no command in progress hands the bytes received to its ending, or
`TransportError` when a call has failed (R131). -/
theorem runEngine_ended {i : Instr} {v : Invocation} {k : EngineResult → State → State} {s : State}
    (hp : (runEngine i v k s).progress = none) :
    ∃ evs u, u.trace = s.trace ++ evs ∧
      ((NoFailure evs ∧ runEngine i v k s = k ⟨.ok, evs.filterMap receivedByte⟩ u) ∨
        (¬NoFailure evs ∧ runEngine i v k s = k ⟨.transportError, []⟩ u)) := by
  obtain ⟨p, -, e⟩ | ⟨hs, e⟩ := runEngine_cases i v k s
  · rw [e] at hp
    cases hp
  obtain ⟨evs, d⟩ := frameEnded_of_notStuck hs
  refine ⟨evs, _, d.trace, ?_⟩
  rw [e, d.rbytes]
  cases hfailed : (transact v s).failed with
  | false => exact .inl ⟨d.failed_iff.mp hfailed, rfl⟩
  | true => exact .inr ⟨fun hno => Bool.noConfusion (hfailed.symm.trans (d.failed_iff.mpr hno)), rfl⟩

/-- An error has no data (R206). -/
def Response.DataOnlyIfOk (r : Response) : Prop :=
  r.status ≠ .ok → r.rbytes = none ∧ r.mfr = none ∧ r.prod = none

/-- `t` holds the response to a command run from `s`: its status is OK exactly if `P` holds of the events
appended since, and it has data only then. -/
def Reports (s t : State) (P : List Ev → Prop) : Prop :=
  ∃ r evs, t.response = some r ∧ t.trace = s.trace ++ evs ∧ r.DataOnlyIfOk ∧ (r.status = .ok ↔ P evs)

section
variable {s t : State} {P : List Ev → Prop} {evs : List Ev} (ht : t.trace = s.trace ++ evs)
include ht

theorem Reports.of_error {e : Status} (hr : t.response = some { status := e }) (he : e ≠ .ok) (hP : ¬P evs) :
    Reports s t P :=
  ⟨_, evs, hr, ht, fun _ => ⟨rfl, rfl, rfl⟩, iff_of_false he hP⟩

theorem Reports.of_ok {r : Response} (hr : t.response = some r) (hok : r.status = .ok) (hP : P evs) :
    Reports s t P :=
  ⟨r, evs, hr, ht, fun h => absurd hok h, iff_of_true hok hP⟩

end

/-- A command answered by an error with no call made. -/
theorem Reports.of_refusal {s t : State} {P : List Ev → Prop} {e : Status} (ht : t.trace = s.trace)
    (hr : t.response = some { status := e }) (he : e ≠ .ok) (hP : ¬P []) : Reports s t P :=
  .of_error (ht.trans (List.append_nil _).symm) hr he hP

/-! ### Operations (R160) -/

theorem operation_reports {i : Instr} {s t : State} (ho : isOperation i = true) (he : exec i s = .next t)
    (hp : t.progress = none) : Reports s t fun evs => s.lifecycle = .ready ∧ NoFailure evs := by
  by_cases hl : s.lifecycle = .ready
  · cases (exec_operation i s ho hl).symm.trans he
    obtain ⟨f, hf, hok⟩ := ending_operation i ho
    rw [hf] at hp ⊢
    obtain ⟨evs, u, htrace, ⟨hno, e⟩ | ⟨hfail, e⟩⟩ := runEngine_ended hp <;> rw [e]
    · exact .of_ok htrace rfl (hok _) ⟨hl, hno⟩
    · exact .of_error htrace rfl nofun fun h => hfail h.right
  · cases (exec_operation_refused i s ho hl).symm.trans he
    exact .of_refusal rfl rfl nofun fun h => hl h.left

/-- The statuses an operation answers with, if it answers (R200 to R204). -/
theorem operation_status {i : Instr} {s t : State} {r : Response} (ho : isOperation i = true)
    (he : exec i s = .next t) (hr : t.response = some r) :
    r.status = .ok ∨ r.status = .transportError ∨ r.status = .stateError := by
  by_cases hl : s.lifecycle = .ready
  · cases (exec_operation i s ho hl).symm.trans he
    obtain ⟨f, hf, hok⟩ := ending_operation i ho
    obtain ⟨p, -, e⟩ | ⟨-, e⟩ := runEngine_cases i (invocation i) (ending i) s.accept <;> rw [e] at hr
    · exact nomatch hr.symm.trans (transact_keeps (invocation i) s.accept).response
    · rw [hf] at hr
      unfold endOperation at hr
      split at hr <;> cases hr
      · exact .inl (hok _)
      · exact .inr (.inl rfl)
  · cases (exec_operation_refused i s ho hl).symm.trans he
    cases hr
    exact .inr (.inr rfl)

/-! ### INIT (spec/43_initialization.md R181 to R188) -/

theorem initValidate_rejected {rb : List Byte} (s : State) (h : identityAccepted rb = false) :
    initValidate ⟨.ok, rb⟩ s = initFail .identityMismatchError s := by
  simp [initValidate, h]

/-- INIT's frame, ended: the validation is told from the events of the frame. -/
theorem initFrame_reports {i : Instr} {v : Invocation} {s : State}
    (hp : (runEngine i v initValidate s).progress = none) :
    Reports s (runEngine i v initValidate s) fun evs =>
      NoFailure evs ∧ identityAccepted (evs.filterMap receivedByte) = true := by
  obtain ⟨evs, u, htrace, ⟨hno, e⟩ | ⟨hfail, e⟩⟩ := runEngine_ended hp <;> rw [e]
  · cases hid : identityAccepted (evs.filterMap receivedByte) with
    | true =>
      rw [initValidate_accepted u hid]
      exact .of_ok htrace rfl rfl ⟨hno, hid⟩
    | false =>
      rw [initValidate_rejected u hid]
      exact .of_error htrace rfl nofun fun h => nomatch hid.symm.trans h.right
  · exact .of_error htrace rfl nofun fun h => hfail h.left

/-- A report told from `s'` is one told from `s`, when the events `evs₀` lead from `s` to `s'`. -/
theorem Reports.after_events {s s' t : State} {evs₀ : List Ev} {P Q : List Ev → Prop} (h : Reports s' t P)
    (hs : s'.trace = s.trace ++ evs₀) (hPQ : ∀ evs, Q (evs₀ ++ evs) ↔ P evs) : Reports s t Q := by
  obtain ⟨r, evs, hr, htrace, hdata, hiff⟩ := h
  exact ⟨r, evs₀ ++ evs, hr, by rw [htrace, hs, List.append_assoc], hdata, hiff.trans (hPQ evs).symm⟩

theorem init_reports {aw : BitVec 3} {tp cp : Bool} {s t : State} (he : exec (.init aw tp cp) s = .next t)
    (hp : t.progress = none) :
    Reports s t fun evs => s.lifecycle = .uninitialized ∧ initRefusal aw tp cp = none ∧
      NoFailure evs ∧ identityAccepted (evs.filterMap receivedByte) = true := by
  cases he
  obtain ⟨hl, e⟩ | ⟨-, hr, e⟩ | ⟨hl, hr, r, u, k, -, hcase⟩ := init_cases aw tp cp s.accept
  · rw [e]
    exact .of_refusal rfl rfl nofun fun ⟨hu, _⟩ => hl hu
  · rw [e]
    exact .of_refusal rfl rfl nofun fun ⟨_, hn, _⟩ => nomatch hr.symm.trans hn
  obtain ⟨rfl, e⟩ | ⟨rfl, e⟩ | ⟨qs, rfl, e⟩ := hcase <;> rw [e] at hp ⊢
  · cases hp
  · exact .of_error k.trace rfl nofun fun ⟨_, _, hno, _⟩ => nomatch noFailure_singleton.mp hno
  · have hrelease : NoFailure [.cs false] := noFailure_singleton.mpr rfl
    refine (initFrame_reports hp).after_events (evs₀ := [.cs false]) k.trace fun evs => ?_
    rw [noFailure_append]
    exact ⟨fun ⟨_, _, ⟨_, hno⟩, hid⟩ => ⟨hno, hid⟩, fun ⟨hno, hid⟩ => ⟨hl, hr, ⟨hrelease, hno⟩, hid⟩⟩

/-- Settles O39: an operation and INIT each report their own tests and the events of their calls. -/
theorem okMeansEveryCallAnsweredOk : Obligations.OkMeansEveryCallAnsweredOk := by
  intro i s t he _ hp hhost
  obtain ⟨ho, hi⟩ | ⟨ho, hi⟩ | ⟨ho, aw, tp, cp, rfl⟩ := instr_kinds i
  · obtain ⟨r, evs, hr, htrace, hdata, hok⟩ := operation_reports ho he hp
    refine ⟨r, evs, hr, htrace, hdata, fun _ => hok, ?_⟩
    rintro aw tp cp rfl
    cases hi
  · simp [ho, hi] at hhost
  · obtain ⟨r, evs, hr, htrace, hdata, hok⟩ := init_reports he hp
    refine ⟨r, evs, hr, htrace, hdata, fun h => (nomatch ho.symm.trans h), ?_⟩
    rintro _ _ _ ⟨⟩
    simpa only [initRefusal_none, and_assoc] using hok

/-- Settles O37: INIT validates the four bytes of RDID's frame; no operation validates anything. -/
theorem initRaisesIdentityMismatchError : Obligations.InitRaisesIdentityMismatchError := by
  refine ⟨?_, fun s t r he hr => ?_⟩
  · rintro aw _ _ s hl rfl rfl hpos hle hok
    obtain ⟨qs, w, d⟩ := InitPasses.identityRead ⟨hl, hpos, hle⟩ hok
    obtain ⟨q0, q1, q2, q3, rfl⟩ := List.length_eq_four.mp d.length
    refine ⟨_, q0, q1, q2, q3, d.exec_eq, d.own, (initValidate_trace ..).trans d.trace,
      (initValidate_cs ..).trans d.cs, fun hbad => ?_⟩
    have hid : identityAccepted [q0, q1, q2, q3] = false :=
      Bool.eq_false_iff.mpr fun h => hbad ((identityAccepted_four q0 q1 q2 q3).mp h)
    rw [initValidate_rejected w hid]
    exact ⟨rfl, rfl⟩
  · obtain h | h | h := operation_status rfl he hr <;> rw [h] <;> nofun

/-- Settles O36: of the three ways INIT can go, the operands leave only the refusal. -/
theorem initRaisesConfigurationError : Obligations.InitRaisesConfigurationError := by
  intro aw tp cp s hl hbad
  obtain ⟨hn, -⟩ | ⟨-, -, e⟩ | ⟨-, hr, -⟩ := init_cases aw tp cp s.accept
  · exact absurd hl hn
  · exact congrArg Host.Outcome.next e
  · obtain ⟨rfl, rfl, hpos, hle⟩ := initRefusal_none.mp hr
    obtain h | h | h | h := hbad
    · cases h
    · cases h
    · omega
    · omega

/-- Settles O56: `step_of_reservedCode` has no premise on the lifecycle. -/
theorem reservedCodesAreIllegal : Obligations.ReservedCodesAreIllegal :=
  fun _ _ _ hp hc hi => step_of_reservedCode hp hc hi

end Sys2Proof.Machine

namespace Sys2Proof.Machine

/-! ## The reset of the block and the chip (spec/70_reset_and_hazards.md R230, R232) -/

/-- The line that goes inactive at reset leaves no frame open: one that was open is cut. -/
theorem cutFrame_frame (s : State) : (cutFrame s).chip.frame = none := by
  unfold cutFrame
  split
  · next h => exact h
  · rfl

theorem cutFrame_of_noFrame {s : State} (h : s.chip.frame = none) : cutFrame s = s := by
  simp [cutFrame, h]

/-- Settles O2: what a reset writes outside the block is what `cutFrame` writes, the chip and the draws alone. -/
theorem resetLeavesTheChipUnlessItCutsAFrame : Obligations.ResetLeavesTheChipUnlessItCutsAFrame := by
  intro s
  have k := cutFrame_chipOnly s
  exact ⟨k.trace, k.answers, k.inputs, fun h => (congrArg State.chip (cutFrame_of_noFrame h) :), cutFrame_frame s,
    k.id, k.addrBytes⟩

/-! ## A block with a command in progress (R242, R251) -/

theorem step_unanswered {s : State} {p : Progress} (hp : s.progress = some p) (hw : p.waiting = true)
    (hi : s.inputs = []) : step s = .fault .transportNeverAnswers := by
  simp [step_busy hp, busyStep, hi, hw]

theorem step_nextCall {s : State} {p : Progress} (hp : s.progress = some p) (hw : p.waiting = false)
    (hi : s.inputs = []) : step s = .next (tick p s) := by
  simp [step_busy hp, busyStep, hi, hw]

/-- A second request, presented or begun, has no meaning (D23). -/
theorem step_secondRequest {s : State} {p : Progress} {r : Request} {rest : List HostEvent}
    (hp : s.progress = some p) (hi : s.inputs = .present r :: rest ∨ s.inputs = .begin r :: rest) :
    step s = .refused .busy := by
  rw [step_busy hp]
  obtain hi | hi := hi
  · simp only [busyStep, hi]
  · simp only [busyStep, hi]

/-- The reset input acts on the idle and on the busy block alike (R230). -/
theorem step_reset {s : State} {rest : List HostEvent} (hi : s.inputs = .reset :: rest) :
    step s = .next (hardwareReset (s.setInputs rest)) := by
  cases hp : s.progress with
  | none => simp only [step_idle hp, idleStep, hi]
  | some p => simp only [step_busy hp, busyStep, hi]

theorem step_idle_noEvent {s : State} (hp : s.progress = none) (hi : s.inputs = []) : step s = .next s := by
  simp only [step_idle hp, idleStep, hi]

/-- Settles O57: the branches of `busyStep`, the reset in either state, and the wait of `idleStep`. -/
theorem busyBlockStepsByItsOwnCalls : Obligations.BusyBlockStepsByItsOwnCalls :=
  ⟨fun _ _ hp => ⟨fun hi hw => step_nextCall hp hw hi, fun hi hw => step_unanswered hp hw hi,
      fun _ _ hi => step_secondRequest hp hi⟩,
    fun _ _ hi => step_reset hi, fun _ hp hi => step_idle_noEvent hp hi⟩

/-! ## A call that is never answered (R251, spec/60_exceptions.md R214) -/

/-- A guarded call whose answer never comes. -/
theorem guarded_never {p : Phase} {c : Call} {a : EngineRun} {arrived : Bool} {rest : List Answer}
    (hf : a.failed = false) (hs : a.stuck = none) (h : a.st.answers = .never arrived :: rest) :
    (guarded p c a).stuck = some p := by
  have hnever := doCall_never (c := c) h
  have hg : guarded p c a = attempt p c a := by simp [guarded, hf, hs]
  obtain ⟨r, t, e, -, hcase⟩ := attempt_cases p c a
  rw [e] at hnever
  subst hnever
  obtain ⟨_, hr, -⟩ | ⟨hr, -⟩ | ⟨-, ha⟩ := hcase
  · cases hr
  · cases hr
  · rw [hg, ha]

theorem exists_drop_eq_cons {as : List Answer} {k : Nat} {x : Answer} (h : as[k]? = some x) :
    ∃ rest, as.drop k = x :: rest :=
  List.head?_eq_some_iff.mp (List.head?_drop.trans h)

/-- A run of calls of which call `k`, the ones before it answered `ok`, is never answered. -/
theorem runCalls_never {l : List (Phase × Call)} {a : EngineRun} {k : Nat} {arrived : Bool} (hk : k < l.length)
    (hf : a.failed = false) (hs : a.stuck = none) (hok : okCalls k a.st.answers = true)
    (hnever : a.st.answers[k]? = some (.never arrived)) : ∃ p, (runCalls l a).stuck = some p := by
  induction l generalizing a k with
  | nil => cases hk
  | cons pc l ih =>
    obtain ⟨p, c⟩ := pc
    cases k with
    | zero =>
      obtain ⟨rest, ha⟩ := exists_drop_eq_cons hnever
      have hstuck := guarded_never (p := p) (c := c) hf hs ha
      rw [runCalls_cons, runCalls_stopped l (by simp [hstuck])]
      exact ⟨p, hstuck⟩
    | succ k =>
      obtain ⟨own, rest, ha, hrest⟩ := okCalls_cons hok
      obtain ⟨qs, t, -, spec, e, -⟩ := guarded_ok (p := p) (c := c) hf hs ha
      have ht : t.answers = rest := by rw [spec.answers, ha, List.tail_cons]
      rw [ha, List.getElem?_cons_succ] at hnever
      rw [runCalls_cons, e]
      exact ih (Nat.lt_of_succ_lt_succ hk) hf hs (ht ▸ hrest) (ht ▸ hnever)

/-- Transact of which call `k`, the release included, is never answered: it stands at a phase. -/
theorem transact_never {v : Invocation} {s : State} {k : Nat} {arrived : Bool} (hk : k < frameCalls v s.aw)
    (hok : okCalls k s.answers = true) (hnever : s.answers[k]? = some (.never arrived)) :
    ∃ p, (transact v s).stuck = some p := by
  rw [← framePlan_length] at hk
  rw [transact_eq]
  obtain hlt | rfl := Nat.lt_succ_iff_lt_or_eq.mp hk
  · obtain ⟨p, hp⟩ := runCalls_never (a := { st := s }) hlt rfl rfl hok hnever
    exact ⟨p, by rw [release_stuck hp, hp]⟩
  · obtain ⟨_, -, hf, hs, -, -, hanswers, -⟩ := runCalls_ok (framePlan v s.aw) { st := s } rfl rfl hok
    rw [release_eq_guarded hf hs]
    obtain ⟨rest, hrest⟩ := exists_drop_eq_cons hnever
    exact ⟨.desel, guarded_never hf hs (hanswers.trans hrest)⟩

/-- Settles O58: the engine stands at the unanswered call, and a waiting block with no host event has no step. -/
theorem unansweredCallHangsTheCommand : Obligations.UnansweredCallHangsTheCommand := by
  intro i s k arrived _ hl ho hk hok hnever
  obtain ⟨p, hp⟩ := transact_never (s := s.accept) hk hok hnever
  obtain ⟨q, -, e⟩ | ⟨hs, -⟩ := runEngine_cases i (invocation i) (ending i) s.accept
  · have hrun := exec_operation i s ho hl
    rw [e] at hrun
    exact ⟨_, _, hrun, rfl, rfl, rfl, (transact_keeps (invocation i) s.accept).response, step_unanswered rfl rfl rfl⟩
  · cases hs.symm.trans hp

end Sys2Proof.Machine

namespace Sys2Proof.Machine

/-! ## The number of transport calls (R251) -/

/-- A call appends at most one event. -/
theorem CallSpec.trace_length_le {c : Call} {s t : State} {r : Reply} (k : CallSpec c s r t) :
    t.trace.length ≤ s.trace.length + 1 := by
  rw [k.trace, List.length_append]
  cases r with
  | ok qs =>
    obtain ⟨e, he, -⟩ := callEvents_ok_facts (k.count qs rfl)
    rw [he]
    exact le_rfl
  | fail => exact le_rfl
  | never => exact Nat.le_succ _

/-- The release adds at most its own event. -/
theorem release_trace_length_le (a : EngineRun) : (release a).st.trace.length ≤ a.st.trace.length + 1 := by
  cases hs : a.stuck with
  | some p => rw [release_stuck hs]; omega
  | none => obtain ⟨e, -⟩ | ⟨e, -⟩ | ⟨e, -⟩ := release_cases hs <;> simp [e]

/-- Transact appends at most one event for each call of its frame. -/
theorem transact_trace_length_le (v : Invocation) (s : State) :
    (transact v s).st.trace.length ≤ s.trace.length + frameCalls v s.aw := by
  obtain ⟨evs, h⟩ := runCalls_trace (framePlan v s.aw) { st := s } rfl rfl
  have hplan : (runCalls (framePlan v s.aw) { st := s }).st.trace.length = s.trace.length + evs.length := by
    rw [h.trace, List.length_append]
  have hrel := release_trace_length_le (runCalls (framePlan v s.aw) { st := s })
  have hlen := h.length
  have hcalls := framePlan_length v s.aw
  rw [transact_eq]
  omega

theorem runEngine_trace_length_le (i : Instr) (v : Invocation) (s : State) :
    (runEngine i v (ending i) s).trace.length ≤ s.trace.length + frameCalls v s.aw :=
  runEngine_trace i v s ▸ transact_trace_length_le v s

/-- The frame that INIT sends has no address phase: its calls do not depend on the width (R185). -/
theorem frameCalls_init (aw : BitVec 3) (tp cp : Bool) (w : Nat) :
    frameCalls (invocation (.init aw tp cp)) w = 7 := rfl

/-- INIT makes one call before its frame (R188). -/
theorem initCommand_trace_length_le (aw : BitVec 3) (tp cp : Bool) (s : State) :
    (initCommand aw tp cp s).trace.length ≤
      s.trace.length + (frameCalls (invocation (.init aw tp cp)) s.aw + 1) := by
  obtain ⟨-, e⟩ | ⟨-, -, e⟩ | ⟨-, -, r, t, k, -, hcase⟩ := init_cases aw tp cp s
  · rw [e]; exact Nat.le_add_right ..
  · rw [e]; exact Nat.le_add_right ..
  have hcall : t.trace.length ≤ s.trace.length + 1 := k.trace_length_le
  obtain ⟨-, e⟩ | ⟨-, e⟩ | ⟨-, -, e⟩ := hcase <;> rw [e]
  · exact hcall.trans (by omega)
  · exact hcall.trans (by omega)
  · have hframe := runEngine_trace_length_le (.init aw tp cp) (invocation (.init aw tp cp)) t
    rw [frameCalls_init] at hframe ⊢
    exact hframe.trans (by omega)

theorem exec_trace_length_le {i : Instr} {s t : State} (h : exec i s = .next t) :
    t.trace.length ≤ s.trace.length + (frameCalls (invocation i) s.aw + if isInit i then 1 else 0) := by
  cases hi : isInit i with
  | false =>
    obtain ⟨-, -, e⟩ | o := exec_refused_or_oneRun s hi
    · cases e.symm.trans h
      exact Nat.le_add_right ..
    · cases o.run.symm.trans h
      exact runEngine_trace_length_le i (invocation i) s.accept
  | true =>
    obtain ⟨aw, tp, cp, rfl⟩ := eq_init_of_isInit hi
    cases h
    exact initCommand_trace_length_le aw tp cp s.accept

theorem frameEvents_length {v : Invocation} {qs : List Byte} (aw : Nat) (h : qs.length = v.nread) :
    (frameEvents (transmitted v aw) qs).length = frameCalls v aw := by
  rw [frameCalls_eq]
  simp [frameEvents, h]
  omega

/-- Settles O19: at most one event a call of the frame, and all of the frame's when every call is answered `ok`. -/
theorem commandMakesAFixedNumberOfCalls : Obligations.CommandMakesAFixedNumberOfCalls := by
  intro i s t he
  obtain ⟨evs, htrace⟩ := exec_trace_prefix he
  have hle := exec_trace_length_le he
  rw [← htrace, List.length_append] at hle
  refine ⟨evs, htrace.symm, Nat.le_of_add_le_add_left hle, fun ho hl => ?_, fun ho hl hok => ?_⟩
  · cases (exec_operation_refused i s ho hl).symm.trans he
    exact List.append_right_eq_self.mp htrace
  · cases (exec_operation i s ho hl).symm.trans he
    obtain ⟨qs, d⟩ := frameDone_of_okCalls (s := s.accept) hok
    rw [runEngine_trace, d.trace] at htrace
    rw [List.append_cancel_left htrace]
    exact frameEvents_length s.aw d.length

end Sys2Proof.Machine

namespace Sys2Proof.Machine

/-! ## Commands one after another against the chip (R240, spec/20_memory.md R69) -/

/-- The block is in `Ready` with width `w`, the chip is between frames with a canonical array, and the next
`calls` calls are answered by the chip. -/
structure Primed (w calls : Nat) (s : State) : Prop where
  lifecycle : s.lifecycle = .ready
  aw : s.aw = w
  frame : s.chip.frame = none
  addrBytes : s.chip.addrBytes = w
  wf : s.chip.mem.wf = true
  calls : chipCalls calls s.answers = true

/-- An operation keeps the array canonical, whatever its calls are answered. -/
theorem exec_operation_wf {i : Instr} {s t : State} (ho : isOperation i = true) (hl : s.lifecycle = .ready)
    (he : exec i s = .next t) (hwf : s.chip.mem.wf = true) : t.chip.mem.wf = true := by
  have htransact := (transact_keeps (invocation i) s.accept).wf hwf
  cases (exec_operation i s ho hl).symm.trans he
  obtain ⟨p, -, e⟩ | ⟨-, e⟩ := runEngine_cases i (invocation i) (ending i) s.accept <;> rw [e]
  · exact htransact
  · rwa [ending_chip]

section
variable {w n : Nat} {s : State}

theorem Primed.chipReady (h : Primed w n s) : ChipReady s := ⟨h.frame, h.addrBytes.trans h.aw.symm⟩

/-- An operation that has used the answers of its `m` calls and left no frame open primes the next one. -/
theorem Primed.after {m : Nat} {i : Instr} {t : State} (h : Primed w (m + n) s) (ho : isOperation i = true)
    (he : exec i s = .next t) (k : Served s t m) (hf : t.chip.frame = none) : Primed w n t := by
  obtain ⟨-, haddr⟩ := Prod.ext_iff.mp (exec_constants he)
  obtain ⟨-, hcalls⟩ := chipCalls_add h.calls
  exact ⟨k.lifecycle.trans h.lifecycle, k.aw.trans h.aw, hf, haddr.trans h.addrBytes,
    exec_operation_wf ho h.lifecycle he h.wf, k.answers ▸ hcalls⟩

/-- The calls of the first operation alone. -/
theorem Primed.first {m : Nat} (h : Primed w (m + n) s) : chipCalls m s.answers = true := by
  obtain ⟨hcalls, -⟩ := chipCalls_add h.calls
  exact hcalls

theorem Primed.writeEnable (enable : Bool) (h : Primed w (3 + n) s) :
    ∃ t, exec (.writeEnable enable) s = .next t ∧ Primed w n t ∧ t.chip = { s.chip with wel := enable } := by
  obtain ⟨t, he, k, hchip⟩ := writeEnable_served enable h.lifecycle h.frame (okCalls_of_chipCalls h.first)
  exact ⟨t, he, h.after rfl he k (by rw [hchip]; exact h.frame), hchip⟩

theorem Primed.readBytes {a count : Nat} (h : Primed w (3 + w + count + n) s) :
    ∃ t, exec (.readBytes a count) s = .next t ∧ Primed w n t ∧ t.chip = s.chip := by
  have he := exec_operation (.readBytes a count) s rfl h.lifecycle
  obtain ⟨_, d⟩ := exec_readBytes_done h.lifecycle h.chipReady (h.aw ▸ h.first) he
  exact ⟨_, he, h.after rfl he ⟨d.lifecycle, d.aw, h.aw ▸ d.answers⟩ (by rw [d.chip]; exact h.frame), d.chip⟩

theorem Primed.writeBytes {a : Nat} {d : List Byte} (h : Primed w (3 + w + d.length + n) s) :
    ∃ t, exec (.writeBytes a d) s = .next t ∧ Primed w n t ∧ t.response = some { status := .ok } ∧
      t.chip.wel = false ∧ ∀ x, t.chip.mem.read x = afterBurst s.chip (a % 2 ^ (8 * w)) d x := by
  obtain ⟨-, hruns, -⟩ := writeBytesSendsTheBurst a d s
  obtain ⟨t, _, he, -, k, hresponse, -, hwrote⟩ :=
    (hruns h.lifecycle (okCalls_of_chipCalls (h.aw ▸ h.first))).served
  obtain ⟨hchip, hcells⟩ := hwrote h.chipReady h.wf
  have hn : 2 + (0x02 :: (encodeAddr a s.aw ++ d)).length + 0 = 3 + w + d.length := by simp [h.aw]; omega
  exact ⟨t, he, h.after rfl he (hn ▸ k) (by rw [hchip]; exact h.frame), hresponse, by rw [hchip], h.aw ▸ hcells⟩

end

/-- Settles O53: the read leaves the chip with the latch set, the first burst is stored and clears it, and with the
latch clear a burst leaves every cell as it was. -/
theorem oneWriteEnableServesOneWrite : Obligations.OneWriteEnableServesOneWrite := by
  intro s a n b d c e hl hc hwf hcalls
  obtain ⟨hframe, haddr⟩ := hc
  have h : Primed s.aw (3 + (3 + s.aw + n + (3 + s.aw + d.length + (3 + s.aw + e.length + 0)))) s :=
    ⟨hl, rfl, hframe, haddr, hwf, by simpa only [Nat.add_assoc, Nat.add_zero] using hcalls⟩
  obtain ⟨t₁, he₁, h₁, hchip₁⟩ := h.writeEnable true
  obtain ⟨t₂, he₂, h₂, hchip₂⟩ := h₁.readBytes (a := a)
  obtain ⟨t₃, he₃, h₃, -, hwel₃, hcells₃⟩ := h₂.writeBytes (a := b)
  obtain ⟨t₄, he₄, -, hresponse, -, hcells₄⟩ := h₃.writeBytes (a := c)
  have hchip : t₂.chip = { s.chip with wel := true } := hchip₂.trans hchip₁
  refine ⟨t₁, t₂, t₃, t₄, he₁, he₂, he₃, he₄, by rw [hchip], hwel₃, hresponse, fun x => ?_, fun x => ?_⟩
  · rw [hcells₃, hchip]
    simp [afterBurst]
  · rw [hcells₄]
    simp [afterBurst, hwel₃]

end Sys2Proof.Machine
